-- ==== Sys2Proof/Word.lean ====
section
/-! DEFINITION. The word types: a byte on the bus or in a window, a 16-bit protocol word or geometry
field, a 32-bit host register or command word, and a line level (00_scope.md rules R7, R8). -/

namespace Sys2Proof

/-- One byte: a channel of a pixel, a packed pair of samples, or one bus transfer (R7). -/
abbrev Byte := BitVec 8

/-- A protocol word, or a coordinate, size or geometry field (R7). -/
abbrev Word16 := BitVec 16

/-- A host register or a host command word (R7). -/
abbrev Word32 := BitVec 32

/-- The level of a one-bit line: `true` is 1 and `false` is 0 (R220). -/
abbrev Level := Bool

end Sys2Proof
end

