-- ==== Sys2Proof/Config.lean ====
section
/-! DEFINITION. The implementation parameters of 00_scope.md rule R6, the controller code table of
30_encoding.md rule R120, the fixed protocol constants, and the values the spec leaves open, which
are opaque constants without a body. -/

namespace Sys2Proof

/-- WIRE_WORD_ORDER: which byte of a 16-bit word goes on the bus first (R6, R221). -/
inductive ByteOrder where
  | highFirst
  | lowFirst
  deriving DecidableEq, Repr

/-- SPI_BIT_ORDER: a value the Config event carries and nothing interprets (R6, D37). -/
inductive BitOrder where
  | msbFirst
  | lsbFirst
  deriving DecidableEq, Repr

/-- LUMA_TIE: the luminance at exact decimal ties (R6, R196, R197). -/
inductive LumaTie where
  | halfUp
  | refF32
  | refF64
  deriving DecidableEq, Repr

/-- CODES: the 17 controller command codes and register addresses (R120). The ones no host command
sends (R127) are part of the table only. -/
structure Codes where
  sysRun     : Word16
  standby    : Word16
  sleep      : Word16
  regRd      : Word16
  regWr      : Word16
  memBstRdT  : Word16
  memBstRdS  : Word16
  memBstWr   : Word16
  memBstEnd  : Word16
  ldImg      : Word16
  ldImgArea  : Word16
  ldImgEnd   : Word16
  dpyArea    : Word16
  dpyBufArea : Word16
  vcom       : Word16
  getDevInfo : Word16
  i80cpcr    : Word16
  deriving DecidableEq, Repr

/-- The named parameters a model takes as arguments (R6). -/
structure Params where
  blockBase         : Nat
  frameCap          : Nat
  regionCap         : Nat
  packedCap         : Nat
  fbCap             : Nat
  wireWordOrder     : ByteOrder
  readDummyWords    : Nat
  readyLevel        : Level
  resetAssertLevel  : Level
  resetSettleMs     : Nat
  spiBitOrder       : BitOrder
  spiMode           : Nat
  spiClockDivisor   : Nat
  codes             : Codes
  ldimgArg          : Word16
  displayMode       : Word16
  lumaTie           : LumaTie
  devinfoWords      : Nat
  deriving DecidableEq, Repr

/-- BLOCK_BASE, OPEN (R6): the platform's choice. -/
opaque Config.blockBase : Nat

/-- RESET_SETTLE_MS, OPEN (R6, D35). -/
opaque Config.resetSettleMs : Nat

/-- SPI_CLOCK_DIVISOR, OPEN (R6, D37). -/
opaque Config.spiClockDivisor : Nat

/-- DISPLAY_MODE, OPEN (R6, D34). -/
opaque Config.displayMode : Word16

/-- The unspecified value of the k-th host read, made while BUSY = 1, of a register or window the
running command writes (R93, R304, R351; 93 U2: any value). -/
opaque Config.freeRead : Nat → Word32

/-- The i-th word of a read phase that has received fewer words (notes/assumptions 17): the spec gives
it no value. No sequence meets the case when DEVINFO_WORDS is at least the 20 that R122 names. -/
opaque Config.missingWord : Nat → Word16

/-- The default value of CODES (R120, D29). -/
def Config.codes : Codes where
  sysRun     := 0x0001
  standby    := 0x0002
  sleep      := 0x0003
  regRd      := 0x0010
  regWr      := 0x0011
  memBstRdT  := 0x0012
  memBstRdS  := 0x0013
  memBstWr   := 0x0014
  memBstEnd  := 0x0015
  ldImg      := 0x0020
  ldImgArea  := 0x0021
  ldImgEnd   := 0x0022
  dpyArea    := 0x0034
  dpyBufArea := 0x0037
  vcom       := 0x0039
  getDevInfo := 0x0302
  i80cpcr    := 0x0004

/-- The parameter values of rule R6: each decided value as decided, each OPEN one opaque. -/
def Config.params : Params where
  blockBase        := Config.blockBase
  frameCap         := 4194304
  regionCap        := 4194304
  packedCap        := 2097152
  fbCap            := 2097152
  wireWordOrder    := .highFirst
  readDummyWords   := 1
  readyLevel       := true
  resetAssertLevel := false
  resetSettleMs    := Config.resetSettleMs
  spiBitOrder      := .msbFirst
  spiMode          := 0
  spiClockDivisor  := Config.spiClockDivisor
  codes            := Config.codes
  ldimgArg         := 0x0020
  displayMode      := Config.displayMode
  lumaTie          := .halfUp
  devinfoWords     := 20

/-- The command preamble (R115). -/
def Config.preambleCmd : Word16 := 0x6000

/-- The write-data preamble (R115). -/
def Config.preambleWrite : Word16 := 0x0000

/-- The read-data preamble (R115). -/
def Config.preambleRead : Word16 := 0x1000

/-- The VCOM sub-function word of a get (R121 (b)). -/
def Config.vcomGetWord : Word16 := 0x0000

/-- The VCOM sub-function word of a set (R121 (b)). -/
def Config.vcomSetWord : Word16 := 0x0001

/-- The packed-transfer enable value written to I80CPCR (R121 (c), D32). -/
def Config.packedEnable : Word16 := 0x0001

/-- The value of the ID register (R31). -/
def Config.idValue : Word32 := 0x41440007

end Sys2Proof
end

