-- ==== Sys2Proof/Syntax.lean ====
section
/-! DEFINITION. The instructions: one constructor per row of spec/opcode_table.json, that is the ten
host commands written to CMD (30_encoding.md rule R111), the three preambles (R115) and the seven
controller command codes the sequencer sends (R120). -/

namespace Sys2Proof

/-- CMD.S: the slot that holds the new frame (R110, R113). -/
inductive Slot where
  | frame0
  | frame1
  deriving DecidableEq, Repr

/-- The block's instructions. A host command is one 32-bit word written to CMD. A wire word is one
16-bit word the display-controller sequencer puts on the bus. -/
inductive Instr where
  /-- COMPARE with its S (new-frame slot) and P (old frame present) bits (R150). -/
  | compare (newSlot : Slot) (oldPresent : Bool)
  /-- ROTATE (R190). -/
  | rotate
  /-- PACK (R200). -/
  | pack
  /-- INIT (R250). -/
  | init
  /-- DISCOVER (R256). -/
  | discover
  /-- CONFIGURE (R262). -/
  | configure
  /-- DRAW (R270). -/
  | draw
  /-- DISPLAY (R275). -/
  | display
  /-- REG_READ (R282). -/
  | regRead
  /-- REG_WRITE (R286). -/
  | regWrite
  /-- The command preamble word (R115, R223). -/
  | preambleCmd
  /-- The write-data preamble word (R115, R224). -/
  | preambleWrite
  /-- The read-data preamble word (R115, R225). -/
  | preambleRead
  /-- The register-read code word (R120, R227). -/
  | codeRegRd
  /-- The register-write code word (R120, R227). -/
  | codeRegWr
  /-- The load-image-area code word (R120, R275). -/
  | codeLdImgArea
  /-- The load-image-end code word (R120, R275). -/
  | codeLdImgEnd
  /-- The display-area code word (R120, R275). -/
  | codeDpyArea
  /-- The reference-voltage code word (R120, R228). -/
  | codeVcom
  /-- The get-device-info code word (R120, R256). -/
  | codeGetDevInfo
  deriving DecidableEq, Repr

/-- The instruction is a host command, written to CMD (R111), and not a word of the wire. -/
def Instr.isCommand : Instr → Bool
  | .compare _ _ | .rotate | .pack | .init | .discover | .configure | .draw | .display
  | .regRead | .regWrite => true
  | .preambleCmd | .preambleWrite | .preambleRead | .codeRegRd | .codeRegWr | .codeLdImgArea
  | .codeLdImgEnd | .codeDpyArea | .codeVcom | .codeGetDevInfo => false

/-- The width of a host access: 8, 16 or 32 bits (R91). -/
inductive Width where
  | w8
  | w16
  | w32
  deriving DecidableEq, Repr

/-- One host access, the unit of a host program (R95, R140). `offset` is relative to BLOCK_BASE:
the bus address is BLOCK_BASE + offset. -/
inductive Access where
  /-- `rd8`, `rd16` or `rd32`. -/
  | read (offset : Nat) (width : Width)
  /-- `wr8`, `wr16` or `wr32`; a narrow write uses the low bits of `value`. -/
  | write (offset : Nat) (width : Width) (value : Word32)
  deriving DecidableEq, Repr

end Sys2Proof
end

