-- ==== Sys2Proof/WellFormed.lean ====
section
/-! DEFINITION. Well-formedness: the constraints rule R6 (D8) puts on the capacities, a code table
that tells the wire words apart, and the instructions such a table can encode. -/

namespace Sys2Proof

/-- The words the sequencer sends as a preamble or a command code (R115, R120). -/
def Codes.issued (c : Codes) : List Word16 :=
  [Config.preambleCmd, Config.preambleWrite, Config.preambleRead,
   c.regRd, c.regWr, c.ldImgArea, c.ldImgEnd, c.dpyArea, c.vcom, c.getDevInfo]

/-- No two of the issued words are equal, so that a word names at most one row of the table. -/
def Codes.wf (c : Codes) : Bool := decide c.issued.Nodup

/-- A host command is always well formed: its operand fields admit every value of their types. A
wire word is well formed when its code table tells the wire words apart. -/
def Instr.wf (c : Codes) (i : Instr) : Bool := i.isCommand || c.wf

/-- The constraints on the capacities (R6, D8): each window holds its capacity, and PACKED holds
the packed form of a full REGION_PIX (PACKED_CAP is at least REGION_CAP/2, not rounded). -/
def Params.capacitiesWf (p : Params) : Bool :=
  decide (3 * p.frameCap ≤ 2 ^ 24 ∧ 3 * p.regionCap ≤ 2 ^ 24 ∧
    p.regionCap ≤ 2 * p.packedCap ∧ p.packedCap ≤ 2 ^ 24)

/-- FB_LEN is a 32-bit register, so the frame buffer's capacity fits one (R47, R55). -/
def Params.fbCapWf (p : Params) : Bool := decide (p.fbCap < 2 ^ 32)

/-- DISCOVER uses r[0] to r[19] of the DEVINFO_WORDS words it reads (R122, R256). -/
def Params.devinfoWf (p : Params) : Bool := decide (20 ≤ p.devinfoWords)

/-- Well-formed parameters (R6). -/
def Params.wf (p : Params) : Bool := p.capacitiesWf && p.fbCapWf && p.devinfoWf && p.codes.wf

end Sys2Proof
end

