-- ==== Sys2Proof/Decode.lean ====
section
/-! DEFINITION. Decoding and encoding. A host command word follows 30_encoding.md rules R110-R114,
a wire word the tables of R115 and R120; bytes are laid out as the host writes CMD (little-endian,
R82) and as the default bus sends a word (high byte first, R116). -/

namespace Sys2Proof

/-- An instruction's words: a 32-bit command word or a 16-bit wire word. -/
inductive Encoded where
  | cmd (w : Word32)
  | wire (w : Word16)
  deriving DecidableEq, Repr

/-- Why a word or a byte string is no instruction. The three rejections of a command word are the
three ILLEGAL_COMMAND cases of R112. -/
inductive Reject where
  /-- OPC is not in the opcode map (R111, R114). -/
  | reservedOpcode
  /-- RSV, bits [31:10], is not 0 (R112). -/
  | reservedBits
  /-- S or P is set on a command other than COMPARE (R112). -/
  | operandBits
  /-- The wire word is neither a preamble nor an issued code (R115, R120). -/
  | unknownWireWord
  /-- The byte string is neither 4 bytes (a command) nor 2 bytes (a wire word). -/
  | badLength
  deriving DecidableEq, Repr

/-- OPC, bits [7:0] (R110). -/
def cmdOpc (w : Word32) : Byte := w.extractLsb' 0 8

/-- S, bit [8] (R110, R113): 0 selects FRAME0. -/
def cmdSlot (w : Word32) : Slot := if w.getLsbD 8 then .frame1 else .frame0

/-- P, bit [9] (R110). -/
def cmdOldPresent (w : Word32) : Bool := w.getLsbD 9

/-- RSV, bits [31:10] (R110). -/
def cmdRsv (w : Word32) : BitVec 22 := w.extractLsb' 10 22

/-- Bits [9:8] together, which are 0 on every command but COMPARE (R112). -/
def cmdOperandBits (w : Word32) : BitVec 2 := w.extractLsb' 8 2

/-- The commands without operand bits, by OPC (R111). -/
def plainCommand (op : Byte) : Option Instr :=
  if op = 0x02 then some .rotate
  else if op = 0x03 then some .pack
  else if op = 0x10 then some .init
  else if op = 0x11 then some .discover
  else if op = 0x12 then some .configure
  else if op = 0x13 then some .draw
  else if op = 0x14 then some .display
  else if op = 0x15 then some .regRead
  else if op = 0x16 then some .regWrite
  else none

/-- Decoding a command word is total (R112). -/
def decodeCmd (w : Word32) : Except Reject Instr :=
  if cmdOpc w = 0x01 then
    if cmdRsv w ≠ 0 then .error .reservedBits
    else .ok (.compare (cmdSlot w) (cmdOldPresent w))
  else
    match plainCommand (cmdOpc w) with
    | none => .error .reservedOpcode
    | some i =>
      if cmdRsv w ≠ 0 then .error .reservedBits
      else if cmdOperandBits w ≠ 0 then .error .operandBits
      else .ok i

/-- The wire word's row: a preamble (R115), else an issued code of the table `c` (R120). -/
def decodeWire (c : Codes) (w : Word16) : Except Reject Instr :=
  if w = Config.preambleCmd then .ok .preambleCmd
  else if w = Config.preambleWrite then .ok .preambleWrite
  else if w = Config.preambleRead then .ok .preambleRead
  else if w = c.regRd then .ok .codeRegRd
  else if w = c.regWr then .ok .codeRegWr
  else if w = c.ldImgArea then .ok .codeLdImgArea
  else if w = c.ldImgEnd then .ok .codeLdImgEnd
  else if w = c.dpyArea then .ok .codeDpyArea
  else if w = c.vcom then .ok .codeVcom
  else if w = c.getDevInfo then .ok .codeGetDevInfo
  else .error .unknownWireWord

/-- Decoding of either kind of word, under the code table `c`. -/
def decodeWord (c : Codes) : Encoded → Except Reject Instr
  | .cmd w => decodeCmd w
  | .wire w => decodeWire c w

/-- The encoded word a byte string holds: four bytes are a CMD value, least significant byte first;
two bytes are a wire word, high byte first (R116). -/
def encodedOfBytes : List Byte → Except Reject Encoded
  | [b0, b1, b2, b3] => .ok (.cmd (b3 ++ b2 ++ b1 ++ b0))
  | [hi, lo] => .ok (.wire (hi ++ lo))
  | _ => .error .badLength

/-- Decoding is total on bytes, and rejects by name. -/
def decode (c : Codes) (bs : List Byte) : Except Reject Instr :=
  match encodedOfBytes bs with
  | .error r => .error r
  | .ok e => decodeWord c e

/-- The bytes of a table row's word `w` of `nbits` bits, laid out as the hardware stores them. -/
def tableBytes (nbits w : Nat) : List Byte :=
  if nbits = 32 then
    [BitVec.ofNat 8 w, BitVec.ofNat 8 (w / 2 ^ 8), BitVec.ofNat 8 (w / 2 ^ 16),
     BitVec.ofNat 8 (w / 2 ^ 24)]
  else if nbits = 16 then
    [BitVec.ofNat 8 (w / 2 ^ 8), BitVec.ofNat 8 w]
  else []

/-- The instruction the decoder reads from a table row's word, with the default code table. -/
def decodeTableWord (nbits w : Nat) : Option Instr :=
  match decode Config.codes (tableBytes nbits w) with
  | .error _ => none
  | .ok i => some i

/-- A command word with OPC `op` and every other bit 0 (R112: zext_32(op)). -/
def plainWord (op : Byte) : Word32 := op.setWidth 32

/-- The COMPARE word: 0x0000_0001 or (S << 8) or (P << 9) (R141, R150). -/
def compareWord (newSlot : Slot) (oldPresent : Bool) : Word32 :=
  let s : BitVec 1 := match newSlot with
    | .frame0 => 0
    | .frame1 => 1
  (0 : BitVec 22) ++ BitVec.ofBool oldPresent ++ s ++ (0x01 : Byte)

/-- The words of an instruction, written from the encoding tables (R110, R111, R115, R120). -/
def encodeWord (c : Codes) : Instr → Encoded
  | .compare newSlot oldPresent => .cmd (compareWord newSlot oldPresent)
  | .rotate => .cmd (plainWord 0x02)
  | .pack => .cmd (plainWord 0x03)
  | .init => .cmd (plainWord 0x10)
  | .discover => .cmd (plainWord 0x11)
  | .configure => .cmd (plainWord 0x12)
  | .draw => .cmd (plainWord 0x13)
  | .display => .cmd (plainWord 0x14)
  | .regRead => .cmd (plainWord 0x15)
  | .regWrite => .cmd (plainWord 0x16)
  | .preambleCmd => .wire Config.preambleCmd
  | .preambleWrite => .wire Config.preambleWrite
  | .preambleRead => .wire Config.preambleRead
  | .codeRegRd => .wire c.regRd
  | .codeRegWr => .wire c.regWr
  | .codeLdImgArea => .wire c.ldImgArea
  | .codeLdImgEnd => .wire c.ldImgEnd
  | .codeDpyArea => .wire c.dpyArea
  | .codeVcom => .wire c.vcom
  | .codeGetDevInfo => .wire c.getDevInfo

/-- The bytes of an encoded word, in the layout `encodedOfBytes` reads. -/
def bytesOfEncoded : Encoded → List Byte
  | .cmd w => [w.extractLsb' 0 8, w.extractLsb' 8 8, w.extractLsb' 16 8, w.extractLsb' 24 8]
  | .wire w => [w.extractLsb' 8 8, w.extractLsb' 0 8]

/-- The bytes of an instruction. -/
def encode (c : Codes) (i : Instr) : List Byte := bytesOfEncoded (encodeWord c i)

end Sys2Proof
end

