-- ==== Sys2Proof/Machine/State.lean ====
section
/-! DEFINITION. The machine's state as plain data (10_state.md), the reasons a step can stop, and
the state after reset (70_reset_and_hazards.md rule R340). -/

namespace Sys2Proof.Machine

/-- CSTATE (R53). The encodings 4, 5 and 6 are never taken. -/
inductive CState where
  | uninit
  | reset
  | discovered
  | ready
  | failed
  deriving DecidableEq, Repr

/-- The error of the last accepted command (R300). -/
inductive ErrCode where
  | none
  | initFailure
  | protocolTimeout
  | invariantViolation
  | stateError
  | geometryFault
  | illegalCommand
  | capacityFault
  deriving DecidableEq, Repr

/-- The stored fields of STATUS (R33). BUSY is not stored here: it is 1 exactly while
`State.running` names a command. -/
structure Status where
  done    : Bool
  rvalid  : Bool
  err     : Bool
  rej     : Bool
  errcode : ErrCode
  cstate  : CState
  deriving DecidableEq, Repr

/-- The host registers that have storage of their own (R34-R46). A register whose upper half is
reserved is stored as its 16 defined bits. ID, CMD, STATUS, FB_LEN and the DEV registers are read
through `readReg` from the state they show. -/
structure Regs where
  angle      : Word32
  panelGeom  : Word32
  frameGeom  : Word32
  regionXY   : Word32
  regionWH   : Word32
  packedLen  : Word32
  dispXY     : Word32
  dispWH     : Word32
  regAddr    : Word16
  regData    : Word16
  vcomTarget : Word16
  vcomRead   : Word16
  timeout    : Word32
  deriving DecidableEq, Repr

/-- DeviceInfo (R54), shown by DEV_GEOM, DEV_IMGADDR, DEV_FW0-3 and DEV_LUT0-3 (R48-R51). -/
structure DeviceInfo where
  panelWidth         : Word16
  panelHeight        : Word16
  imageBufferAddress : Word32
  firmwareVersion    : Vector Word16 8
  lutVersion         : Vector Word16 8
  deriving DecidableEq, Repr

/-- The level of an output line (R60): undriven until INIT drives it (R340). -/
inductive Line where
  | undriven
  | driven (l : Level)
  deriving DecidableEq, Repr

/-- A transport event with its answer (R220). -/
inductive Event where
  /-- `Init`, answered ok (`true`) or fail. -/
  | init (ok : Bool)
  /-- `Config(bit_order, mode, divisor)`. -/
  | config (order : BitOrder) (mode : Nat) (divisor : Nat)
  /-- `PinDir(SEL: out, HRDY: in, RST: out)`. -/
  | pinDir
  /-- `Select(l)`. -/
  | select (l : Level)
  /-- `Xfer(sent)`, answered `answer`. -/
  | xfer (sent answer : Byte)
  /-- `ReadPin(HRDY)`, answered `l`. -/
  | readPin (l : Level)
  /-- `WritePin(RST, l)`. -/
  | writePin (l : Level)
  /-- `Delay(ms)`. -/
  | delay (ms : Nat)
  deriving DecidableEq, Repr

/-- What the sequencer still has to do, one item at a time: the events and words of a command's
pseudocode and the commit that ends it (R58; R220-R228; R250-R286). -/
inductive Item where
  /-- The accepted command has not begun: its state check, operand read and body come next (R303). -/
  | begin
  /-- `r <- Init` (R250). -/
  | initCall
  /-- `emit Config(...)` with the parameters' values (R250). -/
  | config
  /-- `emit PinDir(...)` (R250). -/
  | pinDir
  /-- `emit Select(l)`. -/
  | select (l : Level)
  /-- `emit WritePin(RST, l)`. -/
  | writeRst (l : Level)
  /-- `emit Delay(RESET_SETTLE_MS)`. -/
  | delay
  /-- `wait_ready()` (R222). -/
  | poll
  /-- `send_word(w)` of a preamble or a command code: the fetched wire instruction. -/
  | op (w : Word16)
  /-- `send_word(w)` of an argument or payload word. -/
  | data (w : Word16)
  /-- `Xfer(b)` with the answer ignored: one byte of a word being sent (R221). -/
  | xfer (b : Byte)
  /-- `Xfer(0x00)` of `recv_word`; the answer is kept when `keep` holds (R221, R225). -/
  | recv (keep : Bool)
  /-- CONFIGURE's `if v != t: vcom_set(t)` (R262). -/
  | vcomCheck (target : Word16)
  /-- INIT's last two steps (R250). -/
  | finishInit
  /-- DISCOVER's steps after its read phase (R256). -/
  | finishDiscover
  /-- CONFIGURE's last three steps (R262). -/
  | finishConfigure
  /-- REG_READ's last two steps (R282). -/
  | finishRegRead
  /-- `complete`, for DISPLAY and REG_WRITE. -/
  | finish
  deriving DecidableEq, Repr

/-- The sequencer's hidden state (R58, R60). -/
structure Sequencer where
  /-- The position in the running command's pseudocode: what is left of it. -/
  items : List Item
  /-- The not-ready reads of the current poll so far (R222). -/
  polls : Nat
  /-- The kept bytes of the running command's read phases, oldest first. -/
  rx    : List Byte
  /-- TIMEOUT as the running command read it when it started (R113, R222). -/
  bound : Nat
  deriving DecidableEq, Repr

/-- The sequencer with no command's sequence in it. -/
def Sequencer.idle : Sequencer := { items := [], polls := 0, rx := [], bound := 0 }

/-- The external oracle's answers still to come, in the order the events ask for them (R14, R220,
D59). An event whose answer is not there waits for it: every event is blocking (R96). -/
structure Oracle where
  /-- The answers to `Init`. -/
  inits  : List Bool
  /-- The answers to `ReadPin(HRDY)`. -/
  levels : List Level
  /-- The answers to `Xfer`. -/
  bytes  : List Byte
  deriving DecidableEq, Repr

/-- What the outside does next, in order (R14, R95, R142, R341). -/
inductive Input where
  /-- The host makes one access. -/
  | access (a : Access)
  /-- The host's `wait`: it polls STATUS until BUSY = 0 (R142). -/
  | wait
  /-- The outside does nothing while the block does one item of its sequence. -/
  | block
  /-- The external reset input is asserted (R341). -/
  | reset
  deriving DecidableEq, Repr

/-- How far an accepted command gets before the next input lands. -/
inductive Pace where
  /-- As far as the oracle's answers take it: to its completion, if they last. -/
  | whole
  /-- Not at all: it has been accepted, and each further step does one item of it. -/
  | single
  deriving DecidableEq, Repr

/-- The four windows of the block's memory, as one list of (block offset, byte) cells (R80). -/
abbrev Memory := List Host.Cell

/-- Memory's canonical form: addresses strictly rising. An address that is not listed has no value
(a never-written byte, R340), so no cell can repeat what an unlisted address reads as. -/
def Memory.wf : Memory → Bool
  | [] => true
  | [_] => true
  | (a, _) :: (b, c) :: rest => decide (a < b) && Memory.wf ((b, c) :: rest)

/-- The machine. -/
structure State where
  /-- The parameters of R6. They are arguments of the model and not state of the block: no step
  changes them. -/
  params    : Params
  /-- The host registers with storage (R34-R46). -/
  regs      : Regs
  /-- STATUS but for BUSY (R33, R53). -/
  status    : Status
  /-- The command that is running; STATUS.BUSY is 1 iff there is one (R33). -/
  running   : Option Instr
  /-- The sequencer's position, poll counter, received bytes and poll bound (R58, R60, R222). -/
  seq       : Sequencer
  /-- DeviceInfo (R54). -/
  dev       : DeviceInfo
  /-- FB; FB_LEN is its length (R55). -/
  fb        : List Byte
  /-- FRAME0, FRAME1, REGION_PIX and PACKED (R80). -/
  mem       : Memory
  /-- The level on the select line (R60). -/
  sel       : Line
  /-- The level on the reset line (R60). -/
  rst       : Line
  /-- The bus trace so far, oldest event first (R220). -/
  trace     : List Event
  /-- The oracle's answers to come (the model's own field: the outside). -/
  oracle    : Oracle
  /-- The outside's accesses and resets to come (the model's own field: the outside). -/
  inputs    : List Input
  /-- The interleaving of the block with the outside (the model's own field). -/
  pace      : Pace
  /-- The value the last host read returned (the model's own field: the host's side). -/
  readback  : Word32
  /-- How many unspecified host reads there were (the model's own field; R93). -/
  freeCount : Nat
  deriving DecidableEq, Repr

/-- Why the machine stops with a fault. -/
inductive Fault where
  /-- A byte of a window that nothing has written was read, by COMPARE, ROTATE, PACK or DRAW, or by a
  host read of the window (R340; 93 U1: `fault`). SAFE: the model makes no claim past it. -/
  | unwrittenByte (offset : Nat)
  deriving DecidableEq, Repr

/-- Why a step gives an instruction no meaning. -/
inductive Refusal where
  /-- An instruction of the table that has no meaning yet; no arm of exec answers it. SAFE. -/
  | notModelled (mnemonic : String)
  /-- The sequencer's next word is neither a preamble nor an issued code, which no sequence of the
  block contains (R115: the block never sends any other preamble value). SAFE. -/
  | unknownWireWord (w : Word16)
  deriving DecidableEq, Repr

/-- What a step or a meaning answers. -/
abbrev Result := Host.Outcome State Fault Refusal

/-- STATUS after reset: 0x0000_0000 (R340). -/
def Status.reset : Status :=
  { done := false, rvalid := false, err := false, rej := false, errcode := .none, cstate := .uninit }

/-- The host registers after reset: every one 0 (R340). -/
def Regs.reset : Regs :=
  { angle := 0, panelGeom := 0, frameGeom := 0, regionXY := 0, regionWH := 0, packedLen := 0,
    dispXY := 0, dispWH := 0, regAddr := 0, regData := 0, vcomTarget := 0, vcomRead := 0,
    timeout := 0 }

/-- DeviceInfo after reset: every field 0 (R54, R340). -/
def DeviceInfo.reset : DeviceInfo :=
  { panelWidth := 0, panelHeight := 0, imageBufferAddress := 0,
    firmwareVersion := #v[0, 0, 0, 0, 0, 0, 0, 0], lutVersion := #v[0, 0, 0, 0, 0, 0, 0, 0] }

/-- The machine right after reset (R340), with nothing to come from the outside. The model's own
fields `oracle`, `inputs`, `pace`, `readback` and `freeCount` are DESIGN CHOICES (notes/assumptions
4, 5, 6, 7 and 8). -/
def State.reset : State where
  params    := Config.params
  regs      := Regs.reset
  status    := Status.reset
  running   := none
  seq       := Sequencer.idle
  dev       := DeviceInfo.reset
  fb        := []
  mem       := []
  sel       := .undriven
  rst       := .undriven
  trace     := []
  oracle    := { inits := [], levels := [], bytes := [] }
  inputs    := []
  pace      := .whole
  readback  := 0
  freeCount := 0

end Sys2Proof.Machine
end

