-- ==== Sys2Proof/Machine/Ops.lean ====
section
/-! DEFINITION. The named operations over memory and the machine: reading and writing window bytes and
pixels (20_memory.md), emitting a bus event (42_bus_phases.md rule R220), ending a command with or
without an error (60_exceptions.md rules R300-R302), and the external reset (R341). -/

namespace Sys2Proof.Machine

/-! ### Window bytes -/

/-- The byte at a block offset, if anything has written it. -/
def Memory.read : Memory → Nat → Option Byte
  | [], _ => none
  | (k, b) :: m, a => if k = a then some b else Memory.read m a

/-- Writing one byte keeps the addresses strictly rising. -/
def Memory.write : Memory → Nat → Byte → Memory
  | [], a, b => [(a, b)]
  | (k, c) :: m, a, b =>
    if a < k then (a, b) :: (k, c) :: m
    else if a = k then (a, b) :: m
    else (k, c) :: Memory.write m a b

/-- The bytes `bs` written at consecutive offsets from `a`. -/
def Memory.writeBytes : Memory → Nat → List Byte → Memory
  | m, _, [] => m
  | m, a, b :: bs => Memory.writeBytes (Memory.write m a b) (a + 1) bs

/-- The `n` bytes from offset `a`, or the first offset among them that nothing has written. -/
def Memory.readBytes (m : Memory) : Nat → Nat → Except Nat (List Byte)
  | _, 0 => .ok []
  | a, n + 1 =>
    match Memory.read m a with
    | none => .error a
    | some b =>
      match Memory.readBytes m (a + 1) n with
      | .error e => .error e
      | .ok bs => .ok (b :: bs)

/-! ### Windows and pixels -/

/-- The four windows (R80). -/
inductive Window where
  | frame0
  | frame1
  | regionPix
  | packed
  deriving DecidableEq, Repr

/-- The first offset of a window (R80). -/
def Window.base : Window → Nat
  | .frame0 => 0x01000000
  | .frame1 => 0x02000000
  | .regionPix => 0x03000000
  | .packed => 0x04000000

/-- The offsets a window's region of the address map holds: 16 MiB (R80). -/
def Window.span : Nat := 0x01000000

/-- A window's capacity in use, in bytes (R80). -/
def Window.capacity (p : Params) : Window → Nat
  | .frame0 => 3 * p.frameCap
  | .frame1 => 3 * p.frameCap
  | .regionPix => 3 * p.regionCap
  | .packed => p.packedCap

/-- A pixel: three channels, no alpha (R84). Equality is channel-wise (R11). -/
structure Pixel where
  b : Byte
  g : Byte
  r : Byte
  deriving DecidableEq, Repr

/-- WHITE (R11). -/
def Pixel.white : Pixel := { b := 255, g := 255, r := 255 }

/-- BLACK (R11). -/
def Pixel.black : Pixel := { b := 0, g := 0, r := 0 }

/-- A pixel's bytes in a window: blue, green, red (R84). -/
def Pixel.bytes (p : Pixel) : List Byte := [p.b, p.g, p.r]

/-- `Pix(win, i)`: bytes 3i, 3i+1 and 3i+2 of the window (R84), or the first of them unwritten. -/
def readPixel (m : Memory) (w : Window) (i : Nat) : Except Nat Pixel :=
  let a := w.base + 3 * i
  match Memory.read m a with
  | none => .error a
  | some b =>
    match Memory.read m (a + 1) with
    | none => .error (a + 1)
    | some g =>
      match Memory.read m (a + 2) with
      | none => .error (a + 2)
      | some r => .ok { b := b, g := g, r := r }

/-- The pixels at the given indices, in order, or the first unwritten offset among their bytes. -/
def readPixels (m : Memory) (w : Window) : List Nat → Except Nat (List Pixel)
  | [] => .ok []
  | i :: is =>
    match readPixel m w i with
    | .error e => .error e
    | .ok p =>
      match readPixels m w is with
      | .error e => .error e
      | .ok ps => .ok (p :: ps)

/-- `PixW(win, i, ps[i])` for every i: the pixels from index 0 (R84). -/
def writePixels (m : Memory) (w : Window) (ps : List Pixel) : Memory :=
  Memory.writeBytes m w.base (ps.flatMap Pixel.bytes)

/-- A meaning's reads: the machine stops at a never-written byte (93 U1), and goes on otherwise. -/
def orFault {α : Type} (r : Except Nat α) (k : α → Result) : Result :=
  match r with
  | .error a => .fault (.unwrittenByte a)
  | .ok v => k v

/-! ### Bus events -/

/-- The select line after an event: only Select sets it (R60, R220). -/
def selAfter (e : Event) (sel : Line) : Line :=
  match e with
  | .select l => .driven l
  | .init _ | .config _ _ _ | .pinDir | .xfer _ _ | .readPin _ | .writePin _ | .delay _ => sel

/-- The reset line after an event: only WritePin(RST, ...) sets it (R60, R220). -/
def rstAfter (e : Event) (rst : Line) : Line :=
  match e with
  | .writePin l => .driven l
  | .init _ | .config _ _ _ | .pinDir | .select _ | .xfer _ _ | .readPin _ | .delay _ => rst

/-- `emit Ev(...)`: append the event to the bus trace and set the line it drives (R10, R220). -/
def emit (e : Event) (s : State) : State :=
  { s with trace := s.trace ++ [e], sel := selAfter e s.sel, rst := rstAfter e s.rst }

/-! ### Ending a command -/

/-- The errors after which CSTATE = FAILED (R300, R301). -/
def ErrCode.fatal : ErrCode → Bool
  | .initFailure | .invariantViolation | .geometryFault => true
  | .none | .protocolTimeout | .stateError | .illegalCommand | .capacityFault => false

/-- CSTATE after a completion with error `e` (R301, R302). -/
def cstateAfter (e : ErrCode) (c : CState) : CState := if e.fatal then .failed else c

/-- A command completes with error code `e` (`ErrCode.none` for none): BUSY <- 0, DONE <- 1,
ERR and ERRCODE, CSTATE <- FAILED if `e` is fatal; REJ is not changed (R302). With `e` an error this
is `raise Fault(e)` (R10): the one way an error is taken. COMPARE's RVALID is `Flags`' `setRvalid`. -/
def complete (e : ErrCode) (s : State) : State :=
  { s with
    running := none
    seq := Sequencer.idle
    status := { s.status with
      done := true
      err := decide (e ≠ .none)
      errcode := e
      cstate := cstateAfter e s.status.cstate } }

/-! ### External reset -/

/-- The external reset takes effect in one step (R341): every piece of the block's state has its
value of R340, a running command is abandoned, and no event is emitted (R342). The window contents
are unspecified again (R340), so no byte of them counts as written. What belongs to the outside
stays: the parameters, the trace already emitted, the answers and inputs to come. -/
def externalReset (s : State) : State :=
  { State.reset with
    params := s.params
    trace := s.trace
    oracle := s.oracle
    inputs := s.inputs
    pace := s.pace
    readback := s.readback
    freeCount := s.freeCount }

end Sys2Proof.Machine
end

