-- ==== Sys2Proof/Machine/Operands.lean ====
section
/-! DEFINITION. The operand forms: the two-field geometry registers, the frame slots, ANGLE and its
rotation class, 4-alignment, the host register map with its access codes, the target of a host
access, and the byte order of words (10_state.md; 20_memory.md; 30_encoding.md rules R113, R116). -/

namespace Sys2Proof.Machine

/-! ### Fields of registers -/

/-- Bits [15:0] of a register as an unbounded integer (R8, R113). -/
def lo16 (w : Word32) : Nat := (w.extractLsb' 0 16).toNat

/-- Bits [31:16] of a register as an unbounded integer (R8, R113). -/
def hi16 (w : Word32) : Nat := (w.extractLsb' 16 16).toNat

/-- `{hi[15:0], lo[15:0]}` (R8). -/
def pairWord (hi lo : Nat) : Word32 := BitVec.ofNat 16 hi ++ BitVec.ofNat 16 lo

/-- `{hi, lo}` of two 16-bit words (R8). -/
def joinWords (hi lo : Word16) : Word32 := hi ++ lo

/-- FW (R36). -/
def frameWidth (s : State) : Nat := lo16 s.regs.frameGeom

/-- FH (R36). -/
def frameHeight (s : State) : Nat := hi16 s.regs.frameGeom

/-- PW as the FDU and PPE read it (R35). -/
def panelWidth (s : State) : Nat := lo16 s.regs.panelGeom

/-- PH as the FDU and PPE read it (R35). -/
def panelHeight (s : State) : Nat := hi16 s.regs.panelGeom

/-- REGION_XY.X (R37). -/
def regionX (s : State) : Nat := lo16 s.regs.regionXY

/-- REGION_XY.Y (R37). -/
def regionY (s : State) : Nat := hi16 s.regs.regionXY

/-- REGION_WH.W (R38). -/
def regionW (s : State) : Nat := lo16 s.regs.regionWH

/-- REGION_WH.H (R38). -/
def regionH (s : State) : Nat := hi16 s.regs.regionWH

/-! ### COMPARE's operands -/

/-- ANGLE as a 32-bit two's-complement integer (R34, R113). -/
def angle (s : State) : Int := s.regs.angle.toInt

/-- NEW: the window of the new frame (R113). -/
def newWindow : Slot → Window
  | .frame0 => .frame0
  | .frame1 => .frame1

/-- OLD: the other slot's window (R113). -/
def oldWindow : Slot → Window
  | .frame0 => .frame1
  | .frame1 => .frame0

/-- The window COMPARE takes old pixels from; none stands for the all-white frame (R113, R153). -/
def oldSource (slot : Slot) (oldPresent : Bool) : Option Window :=
  if oldPresent then some (oldWindow slot) else none

/-- T: a quarter-turn is pending. ANGLE is not reduced modulo 360 (R151). -/
def transposed (a : Int) : Bool := decide (a = 90 ∨ a = 270)

/-- LX, the column limit (R151). -/
def columnLimit (t : Bool) (pw ph : Nat) : Nat := if t then ph else pw

/-- LY, the row limit (R151). -/
def rowLimit (t : Bool) (pw ph : Nat) : Nat := if t then pw else ph

/-- `floor4(n)` (R9). -/
def floor4 (n : Nat) : Nat := n - n % 4

/-- `ceil4(n)` (R9). -/
def ceil4 (n : Nat) : Nat := floor4 (n + 3)

/-! ### Words and bytes on the bus -/

/-- The two bytes of a word in the order they go on the bus (R116, R221). -/
def wordBytes (order : ByteOrder) (w : Word16) : List Byte :=
  let hi := w.extractLsb' 8 8
  let lo := w.extractLsb' 0 8
  match order with
  | .highFirst => [hi, lo]
  | .lowFirst => [lo, hi]

/-- The words a list of received bytes holds, two bytes a word (R116, R221). -/
def receivedWords (order : ByteOrder) : List Byte → List Word16
  | a :: b :: rest =>
    (match order with
      | .highFirst => a ++ b
      | .lowFirst => b ++ a) :: receivedWords order rest
  | _ => []

/-- The frame-buffer words: `W_i = FB[2i] + 256*FB[2i+1]` (R88, R277). -/
def frameBufferWords : List Byte → List Word16
  | a :: b :: rest => (b ++ a) :: frameBufferWords rest
  | _ => []

/-! ### Host registers -/

/-- The host registers (R31-R51). -/
inductive HostReg where
  | id | cmd | status | angle | panelGeom | frameGeom | regionXY | regionWH | packedLen
  | dispXY | dispWH | regAddr | regData | vcomTarget | vcomRead | timeout | fbLen | devGeom
  | devImgAddr
  | devFw (k : Fin 4)
  | devLut (k : Fin 4)
  deriving DecidableEq, Repr

/-- The registers in the order of their offsets (R31-R51). -/
def HostReg.all : List HostReg :=
  [.id, .cmd, .status, .angle, .panelGeom, .frameGeom, .regionXY, .regionWH, .packedLen,
   .dispXY, .dispWH, .regAddr, .regData, .vcomTarget, .vcomRead, .timeout, .fbLen, .devGeom,
   .devImgAddr, .devFw 0, .devFw 1, .devFw 2, .devFw 3, .devLut 0, .devLut 1, .devLut 2, .devLut 3]

/-- A register's byte offset (R31-R51). -/
def HostReg.offset : HostReg → Nat
  | .id => 0x000
  | .cmd => 0x004
  | .status => 0x008
  | .angle => 0x00C
  | .panelGeom => 0x010
  | .frameGeom => 0x014
  | .regionXY => 0x018
  | .regionWH => 0x01C
  | .packedLen => 0x020
  | .dispXY => 0x024
  | .dispWH => 0x028
  | .regAddr => 0x02C
  | .regData => 0x030
  | .vcomTarget => 0x034
  | .vcomRead => 0x038
  | .timeout => 0x03C
  | .fbLen => 0x040
  | .devGeom => 0x044
  | .devImgAddr => 0x048
  | .devFw k => 0x04C + 4 * k.val
  | .devLut k => 0x05C + 4 * k.val

/-- The register at an offset; every other offset of the page is reserved (R52). -/
def regAt (offset : Nat) : Option HostReg := HostReg.all.find? fun r => r.offset == offset

/-- What a host access names (R80): a register or bytes of a window. -/
inductive Target where
  | reg (r : HostReg)
  | window (w : Window)
  deriving DecidableEq, Repr

/-- A width in bytes (R82, R91). -/
def Width.bytes : Width → Nat
  | .w8 => 1
  | .w16 => 2
  | .w32 => 4

/-- The access lies in window `w`, every byte of it below the window's capacity in use (R80, R83). -/
def inWindow (p : Params) (offset n : Nat) (w : Window) : Bool :=
  decide (w.base ≤ offset ∧ offset + n ≤ w.base + min (w.capacity p) Window.span)

/-- The window an access lies in. -/
def windowAt (p : Params) (offset n : Nat) : Option Window :=
  [Window.frame0, .frame1, .regionPix, .packed].find? (inWindow p offset n)

/-- What an access names, or none where rules R80-R83 and R52 ignore it: a register access that is
not 32 bits wide and aligned or is at a reserved offset, a misaligned window access, an access past
a window's capacity, an unmapped offset. An access that names something is well formed (R304). -/
def accessTarget (p : Params) (offset : Nat) (width : Width) : Option Target :=
  if offset < 0x1000 then
    if width = .w32 ∧ offset % 4 = 0 then (regAt offset).map .reg else none
  else if offset % Width.bytes width = 0 then
    (windowAt p offset (Width.bytes width)).map .window
  else none

/-- The bytes a write stores: bits [8k+7:8k] at byte k (R82). -/
def valueBytes (width : Width) (v : Word32) : List Byte :=
  match width with
  | .w8 => [v.extractLsb' 0 8]
  | .w16 => [v.extractLsb' 0 8, v.extractLsb' 8 8]
  | .w32 => [v.extractLsb' 0 8, v.extractLsb' 8 8, v.extractLsb' 16 8, v.extractLsb' 24 8]

/-- The value of a window read, little-endian and zero-extended: `{byte a+n-1, ..., byte a}` (R82). -/
def bytesValue (bs : List Byte) : Word32 :=
  BitVec.ofNat 32 (bs.foldr (fun b acc => b.toNat + 256 * acc) 0)

/-- The low bits of a value that a read of this width returns. -/
def truncateTo (width : Width) (v : Word32) : Word32 :=
  match width with
  | .w8 => (v.extractLsb' 0 8).setWidth 32
  | .w16 => (v.extractLsb' 0 16).setWidth 32
  | .w32 => v

/-! ### What a running command writes (R93, R351) -/

/-- The registers a command writes, as its rule's "Writes" line names them (R150-R286): ROTATE's only
when ANGLE, `a`, is 90 (R190, R191). -/
def writesReg (a : Int) (i : Instr) (r : HostReg) : Bool :=
  match i with
  | .compare _ _ => r = .regionXY ∨ r = .regionWH
  | .rotate => a = 90 ∧ (r = .regionXY ∨ r = .regionWH)
  | .pack => r = .packedLen
  | .discover =>
    match r with
    | .panelGeom | .fbLen | .devGeom | .devImgAddr | .devFw _ | .devLut _ => true
    | .id | .cmd | .status | .angle | .frameGeom | .regionXY | .regionWH | .packedLen | .dispXY
    | .dispWH | .regAddr | .regData | .vcomTarget | .vcomRead | .timeout => false
  | .configure => r = .vcomRead
  | .draw => r = .fbLen
  | .regRead => r = .regData
  | .init | .display | .regWrite | .preambleCmd | .preambleWrite | .preambleRead | .codeRegRd
  | .codeRegWr | .codeLdImgArea | .codeLdImgEnd | .codeDpyArea | .codeVcom | .codeGetDevInfo => false

/-- The windows a command writes (R150, R190, R200): ROTATE only when ANGLE, `a`, is 90. -/
def writesWindow (a : Int) (i : Instr) (w : Window) : Bool :=
  match i with
  | .compare _ _ => w = .regionPix
  | .rotate => a = 90 ∧ w = .regionPix
  | .pack => w = .packed
  | .init | .discover | .configure | .draw | .display | .regRead | .regWrite
  | .preambleCmd | .preambleWrite | .preambleRead | .codeRegRd | .codeRegWr | .codeLdImgArea
  | .codeLdImgEnd | .codeDpyArea | .codeVcom | .codeGetDevInfo => false

/-- What a command writes, of the targets a host access can name. -/
def writesTarget (a : Int) (i : Instr) (t : Target) : Bool :=
  match t with
  | .reg r => writesReg a i r
  | .window w => writesWindow a i w

end Sys2Proof.Machine
end

