-- ==== Sys2Proof/Machine/Flags.lean ====
section
/-! DEFINITION. The STATUS register: its word, and every way a field of it is written other than by a
completion (10_state.md rules R33, R53, R61; 60_exceptions.md rules R300, R303, R304, R306). -/

namespace Sys2Proof.Machine

/-- STATUS.BUSY: 1 while a command runs (R33). -/
def busy (s : State) : Bool := s.running.isSome

/-- ERRCODE's encoding (R300). -/
def ErrCode.code : ErrCode → Nat
  | .none => 0x0
  | .initFailure => 0x1
  | .protocolTimeout => 0x2
  | .invariantViolation => 0x3
  | .stateError => 0x4
  | .geometryFault => 0x5
  | .illegalCommand => 0x6
  | .capacityFault => 0x7

/-- CSTATE's encoding (R53). -/
def CState.code : CState → Nat
  | .uninit => 0
  | .reset => 1
  | .discovered => 2
  | .ready => 3
  | .failed => 7

/-- STATUS as the host reads it: BUSY [0], DONE [1], RVALID [2], ERR [3], REJ [4], ERRCODE [11:8],
CSTATE [14:12]; bits [7:5] and [31:15] are 0 (R33). -/
def statusWord (s : State) : Word32 :=
  BitVec.ofNat 32 ((busy s).toNat + 2 * s.status.done.toNat + 4 * s.status.rvalid.toNat
    + 8 * s.status.err.toNat + 16 * s.status.rej.toNat + 256 * s.status.errcode.code
    + 4096 * s.status.cstate.code)

/-- REJ <- 1: a host write was ignored (R33, R303, R304). -/
def setRej (s : State) : State := { s with status := { s.status with rej := true } }

/-- RVALID <- v: COMPARE's own flag (R61). -/
def setRvalid (v : Bool) (s : State) : State := { s with status := { s.status with rvalid := v } }

/-- Acceptance's effect on STATUS: DONE, ERR, ERRCODE and REJ are cleared, RVALID and CSTATE are
unchanged (R303 (3)). -/
def acceptStatus (st : Status) : Status :=
  { st with done := false, err := false, errcode := .none, rej := false }

/-- Acceptance of a decoded command: STATUS as above, BUSY <- 1, and the command not begun (R303). -/
def accept (i : Instr) (s : State) : State :=
  { s with
    status := acceptStatus s.status
    running := some i
    seq := { items := [.begin], polls := 0, rx := [], bound := 0 } }

/-- Acceptance of an undecodable word: it completes at once with ILLEGAL_COMMAND (R112, R303). -/
def acceptIllegal (s : State) : State :=
  complete .illegalCommand { s with status := acceptStatus s.status }

/-- The states a controller command is allowed in (R306). FAILED is in no row: a CMD write is then
rejected before any command runs (R303 (2)). -/
def allowedIn (i : Instr) (c : CState) : Bool :=
  match i with
  | .compare _ _ | .rotate | .pack => decide (c ≠ .failed)
  | .init => decide (c = .uninit)
  | .discover => decide (c = .reset)
  | .configure => decide (c = .discovered)
  | .draw | .display => decide (c = .ready)
  | .regRead | .regWrite => decide (c = .reset ∨ c = .discovered ∨ c = .ready)
  | .preambleCmd | .preambleWrite | .preambleRead | .codeRegRd | .codeRegWr | .codeLdImgArea
  | .codeLdImgEnd | .codeDpyArea | .codeVcom | .codeGetDevInfo => true

/-- A host read of this target would return an unspecified value now: a running command writes it (R93,
R304, R351). A command outside its allowed states writes nothing but STATUS (R306). -/
def readIsFree (s : State) (t : Target) : Bool :=
  match s.running with
  | none => false
  | some i => allowedIn i s.status.cstate && writesTarget (angle s) i t

/-- A command outside its allowed states completes with STATE_ERROR before its operands are read
(R303, R306); inside them its body runs. -/
def gated (i : Instr) (body : State → Result) (s : State) : Result :=
  if allowedIn i s.status.cstate then body s else .next (complete .stateError s)

end Sys2Proof.Machine
end

