-- ==== Sys2Proof/Machine/Bus.lean ====
section
/-! DEFINITION. The bus procedures as sequences of items (42_bus_phases.md rules R221-R228), one item's
effect (`perform`), the commits that end the controller commands (43_controller.md), and running a
sequence as far as the oracle's answers take it. -/

namespace Sys2Proof.Machine

/-! ### Sequences -/

/-- `phase_cmd(c)` (R223). -/
def phaseCmd (c : Word16) : List Item :=
  [.poll, .select false, .op Config.preambleCmd, .op c, .select true]

/-- `phase_write(ws)` (R224). -/
def phaseWrite (ws : List Word16) : List Item :=
  [.poll, .select false, .op Config.preambleWrite] ++ ws.map .data ++ [.select true]

/-- `recv_word()`, its two bytes kept or not (R221). -/
def recvWord (keep : Bool) : List Item := [.recv keep, .recv keep]

/-- `recv_word()` the given number of times. -/
def recvWords (keep : Bool) : Nat → List Item
  | 0 => []
  | n + 1 => recvWord keep ++ recvWords keep n

/-- `phase_read(k)`: READ_DUMMY_WORDS words are discarded, then k are kept (R225). -/
def phaseRead (p : Params) (k : Nat) : List Item :=
  [.poll, .select false, .op Config.preambleRead] ++ recvWords false p.readDummyWords
    ++ recvWords true k ++ [.select true]

/-- `write_cmd_args(c, args)`: each argument in a write-data phase of its own (R226). -/
def writeCmdArgs (c : Word16) (args : List Word16) : List Item :=
  phaseCmd c ++ args.flatMap fun a => phaseWrite [a]

/-- `reg_write(a, v)` (R227). -/
def regWriteSeq (p : Params) (a v : Word16) : List Item := writeCmdArgs p.codes.regWr [a, v]

/-- `reg_read(a)` (R227). -/
def regReadSeq (p : Params) (a : Word16) : List Item :=
  writeCmdArgs p.codes.regRd [a] ++ phaseRead p 1

/-- `vcom_get()` (R228). -/
def vcomGetSeq (p : Params) : List Item :=
  writeCmdArgs p.codes.vcom [Config.vcomGetWord] ++ phaseRead p 1

/-- `vcom_set(v)` (R228). -/
def vcomSetSeq (p : Params) (v : Word16) : List Item :=
  writeCmdArgs p.codes.vcom [Config.vcomSetWord, v]

/-! ### The sequencer's position -/

/-- The position becomes `items`, and the poll counter is that of no poll. -/
def setItems (items : List Item) (s : State) : State :=
  { s with seq := { s.seq with items := items, polls := 0 } }

/-- The words received so far by the running command's read phases (R221, R231). -/
def rxWords (s : State) : List Word16 := receivedWords s.params.wireWordOrder s.seq.rx

/-- The i-th received word; where fewer have come, a free value (notes/assumptions 17). -/
def rxWord (s : State) (i : Nat) : Word16 := (rxWords s).getD i (Config.missingWord i)

/-! ### Events that need an answer -/

/-- `r <- Init` (R220, R250): waits for its answer; fail raises INIT_FAILURE. -/
def doInit (rest : List Item) (s : State) : State :=
  match s.oracle.inits with
  | [] => s
  | ok :: more =>
    let s1 := emit (.init ok) { s with oracle := { s.oracle with inits := more } }
    if ok then setItems rest s1 else complete .initFailure s1

/-- One ReadPin of `wait_ready` (R222): ready ends the poll; a not-ready read counts, and the
TIMEOUT-th in a row raises PROTOCOL_TIMEOUT when TIMEOUT is not 0. -/
def doPoll (rest : List Item) (s : State) : State :=
  match s.oracle.levels with
  | [] => s
  | l :: more =>
    let s1 := emit (.readPin l) { s with oracle := { s.oracle with levels := more } }
    if l = s.params.readyLevel then setItems rest s1
    else if s.seq.bound ≠ 0 ∧ s.seq.bound ≤ s.seq.polls + 1 then complete .protocolTimeout s1
    else { s1 with seq := { s1.seq with polls := s.seq.polls + 1 } }

/-- `Xfer(b)` with the answer ignored (R221). -/
def doXfer (b : Byte) (rest : List Item) (s : State) : State :=
  match s.oracle.bytes with
  | [] => s
  | a :: more => setItems rest (emit (.xfer b a) { s with oracle := { s.oracle with bytes := more } })

/-- `Xfer(0x00)` of `recv_word`, its answer kept or discarded (R221, R225). -/
def doRecv (keep : Bool) (rest : List Item) (s : State) : State :=
  match s.oracle.bytes with
  | [] => s
  | a :: more =>
    let s1 := setItems rest (emit (.xfer 0 a) { s with oracle := { s.oracle with bytes := more } })
    if keep then { s1 with seq := { s1.seq with rx := s1.seq.rx ++ [a] } } else s1

/-- `send_word(w)` becomes its two Xfers (R221). -/
def pushWord (w : Word16) (rest : List Item) (s : State) : State :=
  setItems ((wordBytes s.params.wireWordOrder w).map .xfer ++ rest) s

/-! ### Commits -/

/-- INIT's last steps: CSTATE <- RESET; complete (R250). -/
def commitInit (s : State) : State :=
  complete .none { s with status := { s.status with cstate := .reset } }

/-- The frame buffer's size: floor(PW*PH/2) (R256, R259). -/
def frameBufferSize (pw ph : Word16) : Nat := pw.toNat * ph.toNat / 2

/-- DeviceInfo from its words r[0] to r[19], field by field (R122, R256, R258). -/
def deviceInfoOf (r : Nat → Word16) : DeviceInfo where
  panelWidth := r 0
  panelHeight := r 1
  imageBufferAddress := joinWords (r 3) (r 2)
  firmwareVersion := #v[r 4, r 5, r 6, r 7, r 8, r 9, r 10, r 11]
  lutVersion := #v[r 12, r 13, r 14, r 15, r 16, r 17, r 18, r 19]

/-- DISCOVER after its read phase: no acknowledgement raises INIT_FAILURE (R257); else DeviceInfo, FB
and PANEL_GEOM are written and CSTATE <- DISCOVERED (R256). -/
def commitDiscover (s : State) : State :=
  let pw := rxWord s 0
  let ph := rxWord s 1
  let size := frameBufferSize pw ph
  if pw = 0 ∨ ph = 0 ∨ s.params.fbCap < size then complete .initFailure s
  else
    complete .none { s with
      dev := deviceInfoOf (rxWord s)
      fb := List.replicate size 0
      regs := { s.regs with panelGeom := joinWords ph pw }
      status := { s.status with cstate := .discovered } }

/-- CONFIGURE's branch: `if v != t: vcom_set(t)` (R262). -/
def vcomBranch (t : Word16) (rest : List Item) (s : State) : State :=
  setItems ((if rxWord s 0 = t then [] else vcomSetSeq s.params t) ++ rest) s

/-- CONFIGURE's last steps: VCOM_READ <- v; CSTATE <- READY; complete (R262). -/
def commitConfigure (s : State) : State :=
  complete .none { s with
    regs := { s.regs with vcomRead := rxWord s 0 }
    status := { s.status with cstate := .ready } }

/-- REG_READ's last steps: REG_DATA <- v; complete (R282). -/
def commitRegRead (s : State) : State :=
  complete .none { s with regs := { s.regs with regData := rxWord s 0 } }

/-! ### One item -/

/-- The effect of the sequencer's next item. An item whose answer has not come leaves the machine as
it is: the block waits (R96). `begin` is the step's to run, with the command's meaning. -/
def perform (s : State) : State :=
  match s.seq.items with
  | [] => s
  | .begin :: _ => s
  | .initCall :: rest => doInit rest s
  | .config :: rest =>
    setItems rest (emit (.config s.params.spiBitOrder s.params.spiMode s.params.spiClockDivisor) s)
  | .pinDir :: rest => setItems rest (emit .pinDir s)
  | .select l :: rest => setItems rest (emit (.select l) s)
  | .writeRst l :: rest => setItems rest (emit (.writePin l) s)
  | .delay :: rest => setItems rest (emit (.delay s.params.resetSettleMs) s)
  | .poll :: rest => doPoll rest s
  | .op w :: rest => pushWord w rest s
  | .data w :: rest => pushWord w rest s
  | .xfer b :: rest => doXfer b rest s
  | .recv keep :: rest => doRecv keep rest s
  | .vcomCheck t :: rest => vcomBranch t rest s
  | .finishInit :: _ => commitInit s
  | .finishDiscover :: _ => commitDiscover s
  | .finishConfigure :: _ => commitConfigure s
  | .finishRegRead :: _ => commitRegRead s
  | .finish :: _ => complete .none s

/-- `n` items in a row. -/
def advance : Nat → State → State
  | 0, s => s
  | n + 1, s => advance n (perform s)

/-- The most performs an item takes, its not-ready reads apart. -/
def itemCost (i : Item) : Nat :=
  match i with
  | .op _ | .data _ => 3
  | .vcomCheck _ => 28
  | .begin | .initCall | .config | .pinDir | .select _ | .writeRst _ | .delay | .poll | .xfer _
  | .recv _ | .finishInit | .finishDiscover | .finishConfigure | .finishRegRead | .finish => 1

/-- Enough performs to take the sequence to its end, or to an event whose answer has not come: each
item's cost, and one perform more for each HRDY answer there is. -/
def enough (s : State) : Nat := (s.seq.items.map itemCost).sum + s.oracle.levels.length

/-- A command whose body is the sequence `items`: TIMEOUT is read now (R113, R222), and the sequence
runs as far as the answers take it, or item by item under `Pace.single`. -/
def runSequence (i : Instr) (items : List Item) (s : State) : State :=
  let s1 : State := { s with
    running := some i
    seq := { items := items, polls := 0, rx := [], bound := s.regs.timeout.toNat } }
  match s1.pace with
  | .single => s1
  | .whole => advance (enough s1) s1

/-- A wire word's meaning: `send_word(w)`, that is two Xfers whose answers are ignored (R116, R221),
ahead of what the sequencer still has to do. -/
def sendWord (w : Word16) (s : State) : State :=
  let s1 := pushWord w s.seq.items s
  match s1.pace with
  | .single => s1
  | .whole => advance 2 s1

end Sys2Proof.Machine
end

