-- ==== Sys2Proof/Machine/Controller.lean ====
section
/-! DEFINITION. The display-controller sequencer's commands: INIT, DISCOVER, CONFIGURE, DRAW, DISPLAY,
REG_READ and REG_WRITE (43_controller.md rules R250-R292). -/

namespace Sys2Proof.Machine

/-- INIT's steps (R250, R251). -/
def initSeq (p : Params) : List Item :=
  [.initCall, .config, .pinDir, .select true, .writeRst p.resetAssertLevel, .delay,
   .writeRst (!p.resetAssertLevel), .finishInit]

/-- INIT (R250). -/
def execInit (s : State) : Result :=
  gated .init (fun s => .next (runSequence .init (initSeq s.params) s)) s

/-- DISCOVER's steps (R256). -/
def discoverSeq (p : Params) : List Item :=
  phaseCmd p.codes.getDevInfo ++ phaseRead p p.devinfoWords ++ [.finishDiscover]

/-- DISCOVER (R256). -/
def execDiscover (s : State) : Result :=
  gated .discover (fun s => .next (runSequence .discover (discoverSeq s.params) s)) s

/-- CONFIGURE's steps, with t = VCOM_TARGET[15:0] (R262). -/
def configureSeq (p : Params) (t : Word16) : List Item :=
  regWriteSeq p p.codes.i80cpcr Config.packedEnable ++ vcomGetSeq p
    ++ [.vcomCheck t, .finishConfigure]

/-- CONFIGURE (R262). -/
def execConfigure (s : State) : Result :=
  gated .configure
    (fun s => .next (runSequence .configure (configureSeq s.params s.regs.vcomTarget) s)) s

/-- DRAW's body (R270): the frame buffer becomes PACKED[0 .. PACKED_LEN), a full replace. -/
def drawBody (s : State) : Result :=
  let size := s.regs.packedLen.toNat
  if s.params.packedCap < size ∨ s.params.fbCap < size then .next (complete .capacityFault s)
  else
    orFault (Memory.readBytes s.mem Window.packed.base size) fun bs =>
      .next (complete .none { s with fb := bs })

/-- DRAW (R270). -/
def execDraw (s : State) : Result := gated .draw drawBody s

/-- Clipping one axis: w' = 0 if x >= PW, else min(w, PW - x) (R276). -/
def clip (start size bound : Nat) : Nat := if bound ≤ start then 0 else min size (bound - start)

/-- The clipped width w' (R275, R276); the bounds come from DeviceInfo. -/
def clippedW (s : State) : Nat :=
  clip (lo16 s.regs.dispXY) (lo16 s.regs.dispWH) s.dev.panelWidth.toNat

/-- The clipped height h' (R275, R276). -/
def clippedH (s : State) : Nat :=
  clip (hi16 s.regs.dispXY) (hi16 s.regs.dispWH) s.dev.panelHeight.toNat

/-- n = floor(w'*h'/4), the words streamed (R275). -/
def displayWordCount (s : State) : Nat := clippedW s * clippedH s / 4

/-- The rectangle words x, y, w', h' (R121 (e), R275). -/
def displayRect (s : State) : List Word16 :=
  [BitVec.ofNat 16 (lo16 s.regs.dispXY), BitVec.ofNat 16 (hi16 s.regs.dispXY),
   BitVec.ofNat 16 (clippedW s), BitVec.ofNat 16 (clippedH s)]

/-- DISPLAY's steps (R275): load-image area, the stream in one write-data phase (R277), load-image
end, and the display-area command with the same rectangle (R276). -/
def displaySeq (p : Params) (rect words : List Word16) : List Item :=
  writeCmdArgs p.codes.ldImgArea (p.ldimgArg :: rect) ++ phaseWrite words
    ++ phaseCmd p.codes.ldImgEnd ++ writeCmdArgs p.codes.dpyArea (rect ++ [p.displayMode])
    ++ [.finish]

/-- DISPLAY's body (R275): a frame buffer too short for the stream raises INVARIANT_VIOLATION before
any event (D42). -/
def displayBody (s : State) : Result :=
  let n := displayWordCount s
  if s.fb.length < 2 * n then .next (complete .invariantViolation s)
  else
    .next (runSequence .display
      (displaySeq s.params (displayRect s) (frameBufferWords (s.fb.take (2 * n)))) s)

/-- DISPLAY (R275). -/
def execDisplay (s : State) : Result := gated .display displayBody s

/-- REG_READ (R282): only REG_ADDR[15:0] is sent. -/
def execRegRead (s : State) : Result :=
  gated .regRead
    (fun s => .next (runSequence .regRead
      (regReadSeq s.params s.regs.regAddr ++ [.finishRegRead]) s)) s

/-- REG_WRITE (R286): only REG_ADDR[15:0] and REG_DATA[15:0] are sent. -/
def execRegWrite (s : State) : Result :=
  gated .regWrite
    (fun s => .next (runSequence .regWrite
      (regWriteSeq s.params s.regs.regAddr s.regs.regData ++ [.finish]) s)) s

end Sys2Proof.Machine
end

