-- ==== Sys2Proof/Machine/Differencer.lean ====
section
/-! DEFINITION. The frame differencer unit: COMPARE (40_differencer.md rules R150-R164). -/

namespace Sys2Proof.Machine

/-- `old(P, OLD, FW, x, y)`: the old slot's pixel, or WHITE where there is no old frame; in that case
no byte of the old slot is read (R153). -/
def oldPixel (m : Memory) (old : Option Window) (i : Nat) : Except Nat Pixel :=
  match old with
  | none => .ok Pixel.white
  | some w => readPixel m w i

/-- The scanned coordinates (x, y), row by row (R154). -/
def scanCoords (rows cols : Nat) : List (Nat × Nat) :=
  (List.range rows).flatMap fun y => (List.range cols).map fun x => (x, y)

/-- The changed coordinates among those given: the C[y] of R150 in one list (R153, R154). -/
def changedAt (m : Memory) (new : Window) (old : Option Window) (fw : Nat) :
    List (Nat × Nat) → Except Nat (List (Nat × Nat))
  | [] => .ok []
  | (x, y) :: rest =>
    match readPixel m new (y * fw + x) with
    | .error e => .error e
    | .ok p =>
      match oldPixel m old (y * fw + x) with
      | .error e => .error e
      | .ok q =>
        match changedAt m new old fw rest with
        | .error e => .error e
        | .ok cs => .ok (if p = q then cs else (x, y) :: cs)

/-- The unaligned rectangle: columns [x0, x1] by rows [y0, y1] (R155). -/
structure Box where
  x0 : Nat
  x1 : Nat
  y0 : Nat
  y1 : Nat
  deriving DecidableEq, Repr

/-- The box grown to hold one more coordinate. -/
def Box.extend (b : Box) (c : Nat × Nat) : Box :=
  { x0 := min b.x0 c.1, x1 := max b.x1 c.1, y0 := min b.y0 c.2, y1 := max b.y1 c.2 }

/-- The tight bounding box of the changed coordinates, or none where there is no change (R155). -/
def boundingBox : List (Nat × Nat) → Option Box
  | [] => none
  | (x, y) :: rest => some (rest.foldl Box.extend { x0 := x, x1 := x, y0 := y, y1 := y })

/-- A region's origin and size. -/
structure Rect where
  x : Nat
  y : Nat
  w : Nat
  h : Nat
  deriving DecidableEq, Repr

/-- The fit of one axis: a rectangle past the bound moves back by 4, once; it cannot when its start
is below 4 (R157, R158). -/
def fitStart (start size bound : Nat) : Option Nat :=
  if bound < start + size then
    if start < 4 then none else some (start - 4)
  else some start

/-- The aligned rectangle: horizontally always (R156, R157), vertically when T (R158); none where a
shift would go below 0. -/
def alignBox (t : Bool) (pw ly : Nat) (b : Box) : Option Rect :=
  let aw := ceil4 (b.x1 - b.x0 + 1)
  match fitStart (floor4 b.x0) aw pw with
  | none => none
  | some ax =>
    if t then
      let ah := ceil4 (b.y1 - b.y0 + 1)
      match fitStart (floor4 b.y0) ah ly with
      | none => none
      | some ay => some { x := ax, y := ay, w := aw, h := ah }
    else some { x := ax, y := b.y0, w := aw, h := b.y1 - b.y0 + 1 }

/-- COMPARE completes with an error: RVALID <- 0 and nothing else but STATUS (R61, R162, R302). -/
def compareFails (e : ErrCode) (s : State) : State := complete e (setRvalid false s)

/-- COMPARE finds no change: RVALID <- 0, the region unchanged, no error (R155, R159, R162). -/
def compareNoChange (s : State) : State := complete .none (setRvalid false s)

/-- The frame pixel indices of a rectangle, row-major (R161). -/
def rectIndices (fw : Nat) (r : Rect) : List Nat :=
  (List.range r.h).flatMap fun j => (List.range r.w).map fun c => (r.y + j) * fw + (r.x + c)

/-- COMPARE's success: the pixels go to REGION_PIX, the geometry to REGION_XY and REGION_WH, and
RVALID <- 1 (R161, R162). -/
def storeRegion (r : Rect) (ps : List Pixel) (s : State) : State :=
  complete .none (setRvalid true { s with
    mem := writePixels s.mem .regionPix ps
    regs := { s.regs with regionXY := pairWord r.y r.x, regionWH := pairWord r.h r.w } })

/-- The range and capacity checks and the extraction (R159, R160, R161). -/
def extractRegion (new : Window) (r : Rect) (s : State) : Result :=
  let fw := frameWidth s
  let fh := frameHeight s
  if r.w = 0 ∨ r.h = 0 then .next (compareNoChange s)
  else if fw < r.x + r.w ∨ fh < r.y + r.h ∨ 0xFFFF < r.w ∨ 0xFFFF < r.h then
    .next (compareFails .geometryFault s)
  else if s.params.regionCap < r.w * r.h then .next (compareFails .capacityFault s)
  else orFault (readPixels s.mem new (rectIndices fw r)) fun ps => .next (storeRegion r ps s)

/-- COMPARE's body (R150), its steps in the order of R163. -/
def compareBody (newSlot : Slot) (oldPresent : Bool) (s : State) : Result :=
  let fw := frameWidth s
  let fh := frameHeight s
  let pw := panelWidth s
  let ph := panelHeight s
  let t := transposed (angle s)
  let lx := columnLimit t pw ph
  let ly := rowLimit t pw ph
  let new := newWindow newSlot
  if s.params.frameCap < fw * fh then .next (compareFails .capacityFault s)
  else
    orFault (changedAt s.mem new (oldSource newSlot oldPresent) fw
        (scanCoords (min fh ly) (min fw lx))) fun changed =>
      match boundingBox changed with
      | none => .next (compareNoChange s)
      | some b =>
        match alignBox t pw ly b with
        | none => .next (compareFails .geometryFault s)
        | some r => extractRegion new r s

/-- COMPARE (R150). -/
def execCompare (newSlot : Slot) (oldPresent : Bool) (s : State) : Result :=
  gated (.compare newSlot oldPresent) (compareBody newSlot oldPresent) s

end Sys2Proof.Machine
end

