-- ==== Sys2Proof/Machine/Luma.lean ====
section
/-! DEFINITION. Luminance, quantisation and nibble packing (41_pixel_transform.md rules R196-R201). -/

namespace Sys2Proof.Machine

/-- s = 2125*R + 7154*G + 721*B (R196). -/
def lumaSum (p : Pixel) : Nat := 2125 * p.r.toNat + 7154 * p.g.toNat + 721 * p.b.toNat

/-- `x` rounded to `p` significant bits, ties to even: one IEEE operation's rounding on a
non-negative exact result held as an integer multiple of 2^-56 (R197). -/
def roundSig (p x : Nat) : Nat :=
  if x < 2 ^ p then x
  else
    let sh := Nat.log2 x + 1 - p
    let q := x / 2 ^ sh
    let r := x % 2 ^ sh
    let half := 2 ^ (sh - 1)
    if r < half ∨ (r = half ∧ q % 2 = 0) then q * 2 ^ sh else (q + 1) * 2 ^ sh

/-- The reference luminance with `p`-bit floats and coefficients `cr`, `cg`, `cb`, given as integer
multiples of 2^-56: ((c_R*R + c_G*G) + c_B*B) left to right, each operation rounded to nearest even,
the sum rounded half away from zero (R197). -/
def refLuma (p cr cg cb : Nat) (px : Pixel) : Nat :=
  let rg := roundSig p (roundSig p (cr * px.r.toNat) + roundSig p (cg * px.g.toNat))
  let sum := roundSig p (rg + roundSig p (cb * px.b.toNat))
  (sum + 2 ^ 55) / 2 ^ 56

/-- REF_F32 (R197); the coefficients are the binary32 values nearest 0.2125, 0.7154 and 0.0721. -/
def refLumaF32 (px : Pixel) : Nat :=
  refLuma 24 15312239162556416 51550001372856320 5195352428773376 px

/-- REF_F64 (R197); the coefficients are the binary64 values nearest 0.2125, 0.7154 and 0.0721. -/
def refLumaF64 (px : Pixel) : Nat :=
  refLuma 53 15312238733059686 51550002774733648 5195352530134604 px

/-- luma(R, G, B) (R196): exact off ties; at an exact tie, the value LUMA_TIE names. -/
def luma (tie : LumaTie) (px : Pixel) : Nat :=
  let s := lumaSum px
  if s % 10000 = 5000 then
    match tie with
    | .halfUp => (s + 5000) / 10000
    | .refF32 => refLumaF32 px
    | .refF64 => refLumaF64 px
  else (s + 5000) / 10000

/-- q = luma div 16 (R198). -/
def quantise (tie : LumaTie) (px : Pixel) : Nat := luma tie px / 16

/-- One packed byte: the earlier sample in the low nibble, the later one in the high nibble (R201). -/
def packByte (q0 q1 : Nat) : Byte := BitVec.ofNat 4 q1 ++ BitVec.ofNat 4 q0

/-- The packed bytes of the samples, two per byte (R200, R201). -/
def packSamples : List Nat → List Byte
  | q0 :: q1 :: rest => packByte q0 q1 :: packSamples rest
  | _ => []

end Sys2Proof.Machine
end

