-- ==== Sys2Proof/Machine/PixelPack.lean ====
section
/-! DEFINITION. The pixel-pack engine: ROTATE and PACK (41_pixel_transform.md rules R190-R203). -/

namespace Sys2Proof.Machine

/-- Where the pixels of the turned region come from, in output order: out[r*h + c] is
in[(h - 1 - c)*w + r] for r in [0, w) and c in [0, h) (R194). -/
def turnedIndices (w h : Nat) : List Nat :=
  (List.range w).flatMap fun r => (List.range h).map fun c => (h - 1 - c) * w + r

/-- The turned pixels of a snapshot (R194). Every index is below w*h, the snapshot's length, so the
default is never taken. -/
def turnPixels (w h : Nat) (snapshot : List Pixel) : List Pixel :=
  (turnedIndices w h).map fun i => snapshot.getD i Pixel.black

/-- The turned region is stored: its pixels, computed from a snapshot of the input, and its geometry
X' = PW - y - h, Y' = x, W' = h, H' = w (R193, R194). -/
def storeTurned (ps : List Pixel) (s : State) : State :=
  let x := regionX s
  let y := regionY s
  let w := regionW s
  let h := regionH s
  complete .none { s with
    mem := writePixels s.mem .regionPix ps
    regs := { s.regs with
      regionXY := pairWord x (panelWidth s - y - h)
      regionWH := pairWord w h } }

/-- ROTATE's body (R190): the identity unless ANGLE = 90 (R191); the checks of R192, in order, before
anything is written; then the snapshot of pixels 0 to w*h - 1. That a fault names the first unwritten
byte of that snapshot, in its order, is a DESIGN CHOICE (notes/assumptions 21): the spec names none. -/
def rotateBody (s : State) : Result :=
  if angle s ≠ 90 then .next (complete .none s)
  else if s.params.regionCap < regionW s * regionH s then .next (complete .capacityFault s)
  else if panelWidth s < regionY s + regionH s then .next (complete .geometryFault s)
  else
    orFault (readPixels s.mem .regionPix (List.range (regionW s * regionH s))) fun snapshot =>
      .next (storeTurned (turnPixels (regionW s) (regionH s) snapshot) s)

/-- ROTATE (R190). -/
def execRotate (s : State) : Result := gated .rotate rotateBody s

/-- The packed bytes are stored and PACKED_LEN <- n div 2 (R200). -/
def storePacked (n : Nat) (ps : List Pixel) (s : State) : State :=
  complete .none { s with
    mem := Memory.writeBytes s.mem Window.packed.base
      (packSamples (ps.map (quantise s.params.lumaTie)))
    regs := { s.regs with packedLen := BitVec.ofNat 32 (n / 2) } }

/-- PACK's body (R200), its three checks in order before any byte is written. -/
def packBody (s : State) : Result :=
  let n := regionW s * regionH s
  if s.params.regionCap < n then .next (complete .capacityFault s)
  else if n % 4 ≠ 0 then .next (complete .invariantViolation s)
  else if s.params.packedCap < n / 2 then .next (complete .capacityFault s)
  else
    orFault (readPixels s.mem .regionPix (List.range n)) fun ps => .next (storePacked n ps s)

/-- PACK (R200). -/
def execPack (s : State) : Result := gated .pack packBody s

end Sys2Proof.Machine
end

