-- ==== Sys2Proof/Machine/Wire.lean ====
section
/-! DEFINITION. The wire words: each is `send_word` of its 16-bit value (30_encoding.md rules R115,
R116, R120; 42_bus_phases.md rule R221). The ready poll and the select line belong to the phase
around a word (R223-R225) and are items of their own. -/

namespace Sys2Proof.Machine

/-- The command preamble 0x6000 (R115). -/
def execPreambleCmd (s : State) : Result := .next (sendWord Config.preambleCmd s)

/-- The write-data preamble 0x0000 (R115). -/
def execPreambleWrite (s : State) : Result := .next (sendWord Config.preambleWrite s)

/-- The read-data preamble 0x1000 (R115). -/
def execPreambleRead (s : State) : Result := .next (sendWord Config.preambleRead s)

/-- CODES.REG_RD (R120, R227). -/
def execCodeRegRd (s : State) : Result := .next (sendWord s.params.codes.regRd s)

/-- CODES.REG_WR (R120, R227). -/
def execCodeRegWr (s : State) : Result := .next (sendWord s.params.codes.regWr s)

/-- CODES.LD_IMG_AREA (R120, R275). -/
def execCodeLdImgArea (s : State) : Result := .next (sendWord s.params.codes.ldImgArea s)

/-- CODES.LD_IMG_END (R120, R275). -/
def execCodeLdImgEnd (s : State) : Result := .next (sendWord s.params.codes.ldImgEnd s)

/-- CODES.DPY_AREA (R120, R275). -/
def execCodeDpyArea (s : State) : Result := .next (sendWord s.params.codes.dpyArea s)

/-- CODES.VCOM (R120, R228). -/
def execCodeVcom (s : State) : Result := .next (sendWord s.params.codes.vcom s)

/-- CODES.GET_DEV_INFO (R120, R256). -/
def execCodeGetDevInfo (s : State) : Result := .next (sendWord s.params.codes.getDevInfo s)

end Sys2Proof.Machine
end

