-- ==== Sys2Proof/Machine/Dispatch.lean ====
section
/-! DEFINITION. The dispatch: one arm per constructor of Instr, each one direct call of its meaning. -/

namespace Sys2Proof.Machine

def exec (i : Instr) (s : State) : Host.Outcome State Fault Refusal :=
  match i with
  | .compare newSlot oldPresent => Sys2Proof.Machine.execCompare newSlot oldPresent s
  | .rotate => Sys2Proof.Machine.execRotate s
  | .pack => Sys2Proof.Machine.execPack s
  | .init => Sys2Proof.Machine.execInit s
  | .discover => Sys2Proof.Machine.execDiscover s
  | .configure => Sys2Proof.Machine.execConfigure s
  | .draw => Sys2Proof.Machine.execDraw s
  | .display => Sys2Proof.Machine.execDisplay s
  | .regRead => Sys2Proof.Machine.execRegRead s
  | .regWrite => Sys2Proof.Machine.execRegWrite s
  | .preambleCmd => Sys2Proof.Machine.execPreambleCmd s
  | .preambleWrite => Sys2Proof.Machine.execPreambleWrite s
  | .preambleRead => Sys2Proof.Machine.execPreambleRead s
  | .codeRegRd => Sys2Proof.Machine.execCodeRegRd s
  | .codeRegWr => Sys2Proof.Machine.execCodeRegWr s
  | .codeLdImgArea => Sys2Proof.Machine.execCodeLdImgArea s
  | .codeLdImgEnd => Sys2Proof.Machine.execCodeLdImgEnd s
  | .codeDpyArea => Sys2Proof.Machine.execCodeDpyArea s
  | .codeVcom => Sys2Proof.Machine.execCodeVcom s
  | .codeGetDevInfo => Sys2Proof.Machine.execCodeGetDevInfo s

end Sys2Proof.Machine
end

