-- ==== Sys2Proof/Machine/HostPort.lean ====
section
/-! DEFINITION. The host's side: reading and writing registers and windows (10_state.md rules R31-R52;
20_memory.md rules R80-R83, R92), accepting a command (60_exceptions.md rules R303, R304), the block's
own turn, and taking the next input of the outside. -/

namespace Sys2Proof.Machine

/-! ### Reads -/

/-- A 32-bit register made of versions 2k and 2k+1 (R50, R51). -/
def versionPair (v : Vector Word16 8) (k : Fin 4) : Word32 :=
  joinWords (v[2 * k.val + 1]'(by omega)) (v[2 * k.val]'(by omega))

/-- The value of a register as the host reads it (R31-R51); reserved upper halves read 0 (R30). -/
def readReg (r : HostReg) (s : State) : Word32 :=
  match r with
  | .id => Config.idValue
  | .cmd => 0
  | .status => statusWord s
  | .angle => s.regs.angle
  | .panelGeom => s.regs.panelGeom
  | .frameGeom => s.regs.frameGeom
  | .regionXY => s.regs.regionXY
  | .regionWH => s.regs.regionWH
  | .packedLen => s.regs.packedLen
  | .dispXY => s.regs.dispXY
  | .dispWH => s.regs.dispWH
  | .regAddr => s.regs.regAddr.setWidth 32
  | .regData => s.regs.regData.setWidth 32
  | .vcomTarget => s.regs.vcomTarget.setWidth 32
  | .vcomRead => s.regs.vcomRead.setWidth 32
  | .timeout => s.regs.timeout
  | .fbLen => BitVec.ofNat 32 s.fb.length
  | .devGeom => joinWords s.dev.panelHeight s.dev.panelWidth
  | .devImgAddr => s.dev.imageBufferAddress
  | .devFw k => versionPair s.dev.firmwareVersion k
  | .devLut k => versionPair s.dev.lutVersion k

/-- The value a host read returns, or the first never-written byte it would read: a register, window
bytes in little-endian order, and 0 for an access that names nothing (R80-R83). -/
def readTarget (offset : Nat) (width : Width) (t : Option Target) (s : State) :
    Except Nat Word32 :=
  match t with
  | none => .ok 0
  | some (.reg r) => .ok (readReg r s)
  | some (.window _) =>
    match Memory.readBytes s.mem offset (Width.bytes width) with
    | .error a => .error a
    | .ok bs => .ok (bytesValue bs)

/-- The target's value is unspecified now: a running command writes it (R93, R304, R351). -/
def targetIsFree (s : State) (t : Option Target) : Bool :=
  match t with
  | none => false
  | some t => readIsFree s t

/-- A host read has no side effect: only the value returned is recorded (R92). The unspecified value
of a read while busy is the next free value (93 U2). Where such a read is also one of a never-written
byte, 93 U1 asks for a fault and U2 for any value, and the spec does not say which wins: the model
answers the free value, a DESIGN CHOICE (notes/assumptions 22). -/
def hostRead (offset : Nat) (width : Width) (s : State) : Result :=
  let t := accessTarget s.params offset width
  if targetIsFree s t then
    .next { s with
      readback := truncateTo width (Config.freeRead s.freeCount)
      freeCount := s.freeCount + 1 }
  else orFault (readTarget offset width t s) fun v => .next { s with readback := v }

/-! ### Writes -/

/-- Writing a register other than CMD while the block is idle: its stored value where its access code
allows it (R31-R51); PANEL_GEOM only in UNINIT and RESET (R35). -/
def writeReg (r : HostReg) (v : Word32) (s : State) : State :=
  match r with
  | .angle => { s with regs := { s.regs with angle := v } }
  | .panelGeom =>
    if s.status.cstate = .uninit ∨ s.status.cstate = .reset then
      { s with regs := { s.regs with panelGeom := v } }
    else s
  | .frameGeom => { s with regs := { s.regs with frameGeom := v } }
  | .regionXY => { s with regs := { s.regs with regionXY := v } }
  | .regionWH => { s with regs := { s.regs with regionWH := v } }
  | .packedLen => { s with regs := { s.regs with packedLen := v } }
  | .dispXY => { s with regs := { s.regs with dispXY := v } }
  | .dispWH => { s with regs := { s.regs with dispWH := v } }
  | .regAddr => { s with regs := { s.regs with regAddr := v.extractLsb' 0 16 } }
  | .regData => { s with regs := { s.regs with regData := v.extractLsb' 0 16 } }
  | .vcomTarget => { s with regs := { s.regs with vcomTarget := v.extractLsb' 0 16 } }
  | .timeout => { s with regs := { s.regs with timeout := v } }
  | .id | .cmd | .status | .vcomRead | .fbLen | .devGeom | .devImgAddr | .devFw _ | .devLut _ => s

/-- A CMD write while the block is idle (R303): rejected in FAILED; else accepted, decoded, and, unless
the pace says that the outside moves first, begun with the command's meaning. -/
def commandWrite (w : Word32) (s : State) : Result :=
  if s.status.cstate = .failed then .next (setRej s)
  else
    match decodeCmd w with
    | .error _ => .next (acceptIllegal s)
    | .ok i =>
      match s.pace with
      | .single => .next (accept i s)
      | .whole => exec i (accept i s)

/-- A host write (R81-R83, R303, R304): one that names nothing is ignored; a well-formed one is
ignored and sets REJ while BUSY = 1; else CMD starts a command, a register or window is written. -/
def hostWrite (offset : Nat) (width : Width) (v : Word32) (s : State) : Result :=
  match accessTarget s.params offset width with
  | none => .next s
  | some t =>
    if busy s then .next (setRej s)
    else
      match t with
      | .reg r => if r = .cmd then commandWrite v s else .next (writeReg r v s)
      | .window _ =>
        .next { s with mem := Memory.writeBytes s.mem offset (valueBytes width v) }

/-- One host access (R91, R94). -/
def hostAccess (a : Access) (s : State) : Result :=
  match a with
  | .read offset width => hostRead offset width s
  | .write offset width v => hostWrite offset width v s

/-! ### The block's turn -/

/-- The fetched wire word runs as the instruction it decodes to (R115, R120). -/
def runWireWord (w : Word16) (rest : List Item) (s : State) : Result :=
  match decodeWire s.params.codes w with
  | .error _ => .refused (.unknownWireWord w)
  | .ok i => exec i (setItems rest s)

/-- An accepted command begins: its meaning runs (R303). -/
def beginRunning (rest : List Item) (s : State) : Result :=
  match s.running with
  | none => .next (setItems rest s)
  | some i => exec i (setItems rest s)

/-- The block does the next item of its sequence; with none, it is idle and nothing happens. -/
def blockTurn (s : State) : Result :=
  match s.seq.items with
  | [] => .next s
  | .begin :: rest => beginRunning rest s
  | .op w :: rest => runWireWord w rest s
  | .initCall :: _ | .config :: _ | .pinDir :: _ | .select _ :: _ | .writeRst _ :: _ | .delay :: _
  | .poll :: _ | .data _ :: _ | .xfer _ :: _ | .recv _ :: _ | .vcomCheck _ :: _ | .finishInit :: _
  | .finishDiscover :: _ | .finishConfigure :: _ | .finishRegRead :: _ | .finish :: _ =>
    .next (perform s)

/-- The host's `wait` (R142): it reads STATUS, and reads it again, with the block moving in between,
until BUSY = 0. -/
def hostWait (rest : List Input) (s : State) : Result :=
  let s1 : State := { s with readback := statusWord s }
  if busy s then blockTurn s1 else .next { s1 with inputs := rest }

/-- One step of the machine: the next input of the outside; with none, the block's own turn. -/
def takeInput (s : State) : Result :=
  match s.inputs with
  | [] => blockTurn s
  | .block :: rest => blockTurn { s with inputs := rest }
  | .access a :: rest => hostAccess a { s with inputs := rest }
  | .wait :: rest => hostWait rest s
  | .reset :: rest => .next (externalReset { s with inputs := rest })

/-! ### Placing an instruction where the step fetches it -/

/-- The state whose next step runs the word `w` of `nbits` bits. A command word becomes the host's
next access, a CMD write, to an idle block that begins it in the same step; a wire word becomes the
next item of the sequencer, on whose turn it is. -/
def placeWord (s : State) (nbits w : Nat) : State :=
  if nbits = 16 then
    { s with
      seq := { s.seq with items := .op (BitVec.ofNat 16 w) :: s.seq.items }
      inputs := .block :: s.inputs }
  else
    { s with
      running := none
      seq := Sequencer.idle
      pace := .whole
      inputs := .access (.write 0x004 .w32 (BitVec.ofNat 32 w)) :: s.inputs }

/-! ### Pseudo-instructions (R140-R142) -/

/-- `cmd M`: a 32-bit write of M's command word to CMD; a wire word is no host command. -/
def pseudoCmd (i : Instr) : List Input :=
  match encodeWord Config.codes i with
  | .cmd w => [.access (.write 0x004 .w32 w)]
  | .wire _ => []

/-- `run M`: `cmd M` followed by `wait`. -/
def pseudoRun (i : Instr) : List Input := pseudoCmd i ++ [.wait]

/-- `pix WIN, i, (b, g, r)`: three byte writes at WIN+3i. -/
def pseudoPix (w : Window) (i : Nat) (p : Pixel) : List Input :=
  [.access (.write (w.base + 3 * i) .w8 (p.b.setWidth 32)),
   .access (.write (w.base + 3 * i + 1) .w8 (p.g.setWidth 32)),
   .access (.write (w.base + 3 * i + 2) .w8 (p.r.setWidth 32))]

/-- `geom NAME, lo, hi`: one write of (hi << 16) or lo. -/
def pseudoGeom (r : HostReg) (lo hi : Word16) : List Input :=
  [.access (.write r.offset .w32 (joinWords hi lo))]

/-- The bus address of an access: BLOCK_BASE + offset (R140). -/
def busAddress (p : Params) (offset : Nat) : Nat := p.blockBase + offset

end Sys2Proof.Machine
end

