-- ==== Sys2Proof/Safety.lean ====
section
/-! DEFINITION. What counts as a safe state and a safe run: the machine's invariant, part by part, and
the discipline of the bus trace (42_bus_phases.md rule R230). -/

namespace Sys2Proof.Machine

/-- Memory is in canonical form and holds no byte outside a window's capacity in use (R80, R83). -/
def memSound (s : State) : Bool :=
  Memory.wf s.mem && s.mem.all fun c => (windowAt s.params c.1 1).isSome

/-- STATUS is consistent: ERR says whether ERRCODE is an error; a fatal ERRCODE and CSTATE = FAILED go
together, with DONE = 1; while a command runs DONE, ERR and ERRCODE are clear (R301, R302, R303). -/
def statusSound (s : State) : Bool :=
  decide (s.status.err = true ↔ s.status.errcode ≠ .none)
    && decide (s.status.cstate = .failed ↔ s.status.errcode.fatal = true)
    && decide (s.status.cstate = .failed → s.status.done = true)
    && decide (s.running.isSome = true →
        s.status.done = false ∧ s.status.errcode = .none)

/-- The commands whose sequences have phases on the bus (R256, R262, R275, R282, R286). -/
def usesBus (i : Instr) : Bool :=
  decide (i = .discover ∨ i = .configure ∨ i = .display ∨ i = .regRead ∨ i = .regWrite)

/-- The item can stand in the sequence of this command (R250-R286). -/
def itemOf (i : Instr) : Item → Bool
  | .begin => i.isCommand
  | .initCall | .config | .pinDir | .writeRst _ | .delay | .finishInit => decide (i = .init)
  | .finishDiscover => decide (i = .discover)
  | .vcomCheck _ | .finishConfigure => decide (i = .configure)
  | .finishRegRead => decide (i = .regRead)
  | .finish => decide (i = .display ∨ i = .regWrite)
  | .select _ => decide (i = .init) || usesBus i
  | .poll | .op _ | .data _ | .xfer _ | .recv _ => usesBus i

/-- The sequencer works for the running command alone: it is idle when none runs, and a running
command is a host command, in a state that allows it, with items of its own only (R58, R306). A
command that has not begun has nothing else queued, and one that has begun has something left. -/
def runningSound (s : State) : Bool :=
  match s.running with
  | none => decide (s.seq = Sequencer.idle)
  | some i =>
    i.isCommand && decide (s.status.cstate ≠ .failed)
      && (decide (s.seq.items = [.begin])
        || (allowedIn i s.status.cstate && s.seq.items.all (itemOf i)
          && !s.seq.items.contains .begin && !s.seq.items.isEmpty))

/-- In DISCOVERED and READY, PANEL_GEOM equals DEV_GEOM (R35, R276). -/
def geometrySound (s : State) : Bool :=
  decide (s.status.cstate = .discovered ∨ s.status.cstate = .ready →
    s.regs.panelGeom = joinWords s.dev.panelHeight s.dev.panelWidth)

/-- 0 <= FB_LEN <= FB_CAP (R55). -/
def frameBufferSound (s : State) : Bool := decide (s.fb.length ≤ s.params.fbCap)

/-- The select line between commands: undriven before INIT has driven it, high after (R230 (a), R340). -/
def lineAtRest (c : CState) (sel : Line) : Bool :=
  match c with
  | .uninit => decide (sel = .undriven)
  | .reset | .discovered | .ready => decide (sel = .driven true)
  | .failed => true

/-- A sequence that drives the select line as R230 says, from the line's level `sel`; `polled` says
that the item before was a ready poll, which a Select(0) must follow at once. -/
def sequenceShape : Line → Bool → List Item → Bool
  | _, _, [] => false
  | sel, polled, item :: rest =>
    match item with
    | .begin => false
    | .initCall | .config | .pinDir =>
      !polled && decide (sel = .undriven) && sequenceShape sel false rest
    | .select true =>
      !polled && decide (sel ≠ .driven true) && sequenceShape (.driven true) false rest
    | .select false =>
      polled && decide (sel = .driven true) && sequenceShape (.driven false) false rest
    | .writeRst _ | .delay | .vcomCheck _ =>
      !polled && decide (sel = .driven true) && sequenceShape sel false rest
    | .poll => !polled && decide (sel = .driven true) && sequenceShape sel true rest
    | .op _ | .data _ | .xfer _ | .recv _ =>
      !polled && decide (sel = .driven false) && sequenceShape sel false rest
    | .finishInit | .finishDiscover | .finishConfigure | .finishRegRead | .finish =>
      !polled && decide (sel = .driven true) && rest.isEmpty

/-- The next item is the Select(0) that a ready poll has just released. -/
def released (items : List Item) : Bool :=
  match items with
  | .select false :: _ => true
  | _ => false

/-- The last event of the trace is a ReadPin answered READY_LEVEL. -/
def lastIsReady (p : Params) (last : Option Event) : Bool :=
  decide (last = some (.readPin p.readyLevel))

/-- The lines agree with the sequencer's position (R60, R230): at rest between commands, and in a
sequence that keeps the discipline. -/
def lineSound (s : State) : Bool :=
  if s.seq.items = [] ∨ s.seq.items = [.begin] then lineAtRest s.status.cstate s.sel
  else
    sequenceShape s.sel (released s.seq.items) s.seq.items
      && (!released s.seq.items || lastIsReady s.params s.trace.getLast?)

/-- Every preamble or code the sequencer still has to send is a word of the table (R115, R120). -/
def wordsSound (s : State) : Bool :=
  s.seq.items.all fun item =>
    match item with
    | .op w => s.params.codes.issued.contains w
    | .begin | .initCall | .config | .pinDir | .select _ | .writeRst _ | .delay | .poll | .data _
    | .xfer _ | .recv _ | .vcomCheck _ | .finishInit | .finishDiscover | .finishConfigure
    | .finishRegRead | .finish => true

/-- The machine's invariant. -/
def State.inv (s : State) : Bool :=
  s.params.wf && memSound s && statusSound s && runningSound s && geometrySound s
    && frameBufferSound s && lineSound s && wordsSound s

/-- An event that keeps the discipline of R230 (a)-(c) with the select line at `sel` after the event
`last`: Xfer while SEL = 0; ReadPin and Delay while SEL = 1; Select alternates, and Select(0) comes
immediately after a ReadPin answered READY_LEVEL; Init, Config and PinDir before SEL is driven. -/
def eventAllowed (p : Params) (sel : Line) (last : Option Event) : Event → Bool
  | .xfer _ _ => decide (sel = .driven false)
  | .readPin _ | .delay _ | .writePin _ => decide (sel = .driven true)
  | .select true => decide (sel ≠ .driven true)
  | .select false => decide (sel = .driven true) && lastIsReady p last
  | .init _ | .config _ _ _ | .pinDir => decide (sel = .undriven)

/-- Every event of the list keeps the discipline, in order. -/
def eventsAllowed (p : Params) : Line → Option Event → List Event → Bool
  | _, _, [] => true
  | sel, last, e :: rest =>
    eventAllowed p sel last e && eventsAllowed p (selAfter e sel) (some e) rest

/-- The order in which CSTATE moves (R53): no command moves it backward. -/
def CState.rank : CState → Nat
  | .uninit => 0
  | .reset => 1
  | .discovered => 2
  | .ready => 3
  | .failed => 4

/-- The next input is the external reset. -/
def resetNext (s : State) : Bool :=
  match s.inputs with
  | .reset :: _ => true
  | _ => false

/-- A safe run of `n` steps: no fault and no refusal, and a state that meets the invariant. -/
def safeRun (n : Nat) (s : State) : Bool :=
  match n with
  | 0 => s.inv
  | k + 1 =>
    match step s with
    | .next t => s.inv && safeRun k t
    | .fault _ => false
    | .refused _ => false

end Sys2Proof.Machine
end

