-- ==== Sys2Proof/Certificates/Slice0/Obligations.lean ====
section
/-! DEFINITION. The statements for the provers, and the words they are written in. -/

open Sys2Proof Sys2Proof.Machine

namespace Sys2Proof.Spec

/-! ### STATUS after a completion (60_exceptions.md rules R301, R302) -/

/-- Completion without error. -/
def okStatus (st : Status) : Status := { st with done := true, err := false, errcode := .none }

/-- Completion with a recoverable error. -/
def errStatus (e : ErrCode) (st : Status) : Status := { st with done := true, err := true, errcode := e }

/-- Completion with a fatal error. -/
def fatalStatus (e : ErrCode) (st : Status) : Status :=
  { st with done := true, err := true, errcode := e, cstate := .failed }

/-- The block is idle again: no command runs and the sequencer holds nothing. -/
def finished (st : Status) (s : State) : State :=
  { s with running := none, seq := { items := [], polls := 0, rx := [], bound := 0 }, status := st }

/-! ### COMPARE (40_differencer.md) -/

/-- T (R151). -/
def quarterTurn (s : State) : Prop := s.regs.angle.toInt = 90 ∨ s.regs.angle.toInt = 270

/-- NEW (R113). -/
def newFrame (slot : Slot) : Window := if slot = .frame0 then .frame0 else .frame1

/-- OLD (R113). -/
def oldFrame (slot : Slot) : Window := if slot = .frame0 then .frame1 else .frame0

/-- The scanned range: x < min(FW, LX) and y < min(FH, LY) (R151, R154). -/
def scanned (s : State) (x y : Nat) : Prop :=
  x < lo16 s.regs.frameGeom ∧ y < hi16 s.regs.frameGeom ∧
    (quarterTurn s → x < hi16 s.regs.panelGeom ∧ y < lo16 s.regs.panelGeom) ∧
    (¬quarterTurn s → x < lo16 s.regs.panelGeom ∧ y < hi16 s.regs.panelGeom)

/-- Every pixel the scan reads has been written: the new frame's, and the old frame's when P = 1. -/
def scanReadable (slot : Slot) (prev : Bool) (s : State) : Prop :=
  ∀ x y, scanned s x y →
    (∃ p, readPixel s.mem (newFrame slot) (y * lo16 s.regs.frameGeom + x) = .ok p) ∧
    (prev = true → ∃ q, readPixel s.mem (oldFrame slot) (y * lo16 s.regs.frameGeom + x) = .ok q)

/-- The pixel at (x, y) is scanned and differs from the old pixel, which is white when P = 0 (R153). -/
def changed (slot : Slot) (prev : Bool) (s : State) (x y : Nat) : Prop :=
  scanned s x y ∧ ∃ p q : Pixel,
    readPixel s.mem (newFrame slot) (y * lo16 s.regs.frameGeom + x) = .ok p ∧
    (prev = true → readPixel s.mem (oldFrame slot) (y * lo16 s.regs.frameGeom + x) = .ok q) ∧
    (prev = false → q = { b := 255, g := 255, r := 255 }) ∧ p ≠ q

/-- Columns [x0, x1] by rows [y0, y1] is the tight bounding box of the changed pixels (R155). -/
def tightBox (slot : Slot) (prev : Bool) (s : State) (x0 x1 y0 y1 : Nat) : Prop :=
  (∀ x y, changed slot prev s x y → x0 ≤ x ∧ x ≤ x1 ∧ y0 ≤ y ∧ y ≤ y1) ∧
    (∃ y, changed slot prev s x0 y) ∧ (∃ y, changed slot prev s x1 y) ∧
    (∃ x, changed slot prev s x y0) ∧ (∃ x, changed slot prev s x y1)

/-- One aligned axis: the start rounded down and the size rounded up to a multiple of 4, and the start
moved back by 4 when the end passes the bound (R156, R157, R158). -/
def fitted (lo hi bound start size : Nat) : Prop :=
  size = 4 * ((hi - lo + 1 + 3) / 4) ∧
    ((4 * (lo / 4) + size ≤ bound ∧ start = 4 * (lo / 4)) ∨
      (bound < 4 * (lo / 4) + size ∧ start + 4 = 4 * (lo / 4)))

/-- One axis cannot be fitted: the shift is needed and the start is below 4 (R157, R158). -/
def unfittable (lo hi bound : Nat) : Prop :=
  bound < 4 * (lo / 4) + 4 * ((hi - lo + 1 + 3) / 4) ∧ 4 * (lo / 4) < 4

/-- The final rectangle (ax, ay, aw, ah) of a bounding box (R156-R158). -/
def placed (s : State) (x0 x1 y0 y1 ax ay aw ah : Nat) : Prop :=
  fitted x0 x1 (lo16 s.regs.panelGeom) ax aw ∧
    (quarterTurn s → fitted y0 y1 (lo16 s.regs.panelGeom) ay ah) ∧
    (¬quarterTurn s → ay = y0 ∧ ah = y1 - y0 + 1)

/-- Offsets outside the first n bytes of a window read the same in both memories. -/
def sameOutside (w : Window) (n : Nat) (m m' : Memory) : Prop :=
  ∀ a, (a < w.base ∨ w.base + n ≤ a) → Memory.read m' a = Memory.read m a

/-! ### The bus (42_bus_phases.md) -/

/-- The two bytes of a word in wire order (R221). -/
def wireBytes (order : ByteOrder) (w : Word16) : List Byte :=
  if order = .highFirst then [w.extractLsb' 8 8, w.extractLsb' 0 8]
  else [w.extractLsb' 0 8, w.extractLsb' 8 8]

/-- The Xfer events of sending these words, with these answers. -/
def wordEvents (order : ByteOrder) (ws : List Word16) (answers : List Byte) : List Event :=
  List.zipWith Event.xfer (ws.flatMap (wireBytes order)) answers

/-- One phase without a not-ready read: a ready poll, SEL low, the words, SEL high (R223-R225). A word
received is sent as 0x0000. -/
def phaseEvents (p : Params) (ws : List Word16) (answers : List Byte) : List Event :=
  [.readPin p.readyLevel, .select false] ++ wordEvents p.wireWordOrder ws answers ++ [.select true]

/-- Phases one after the other, each using up its answers. -/
def phasesEvents (p : Params) : List (List Word16) → List Byte → List Event
  | [], _ => []
  | ws :: more, answers =>
    phaseEvents p ws answers ++ phasesEvents p more (answers.drop (2 * ws.length))

/-- The Xfer answers the phases use. -/
def bytesUsed (phases : List (List Word16)) : Nat := (phases.map fun ws => 2 * ws.length).sum

/-- A command phase's words (R223). -/
def cmdWords (c : Word16) : List Word16 := [0x6000, c]

/-- A write-data phase's words (R224). -/
def writeWords (ws : List Word16) : List Word16 := 0x0000 :: ws

/-- A read-data phase's words, for k payload words (R225). -/
def readWords (p : Params) (k : Nat) : List Word16 :=
  0x1000 :: List.replicate (p.readDummyWords + k) 0x0000

/-- The oracle answers every poll of these phases ready at once, and every Xfer of them. -/
def answersReady (phases : List (List Word16)) (s : State) : Prop :=
  s.oracle.levels.take phases.length = List.replicate phases.length s.params.readyLevel ∧
    bytesUsed phases ≤ s.oracle.bytes.length

/-- The bus after these phases: their events appended, their answers used, SEL high. -/
def afterPhases (phases : List (List Word16)) (s : State) : State :=
  { s with
    trace := s.trace ++ phasesEvents s.params phases s.oracle.bytes
    sel := .driven true
    oracle := { s.oracle with
      levels := s.oracle.levels.drop phases.length
      bytes := s.oracle.bytes.drop (bytesUsed phases) } }

/-- The word received in the two answers from position k on (R221). -/
def answerWord (s : State) (k : Nat) : Word16 :=
  if s.params.wireWordOrder = .highFirst then
    s.oracle.bytes.getD k 0 ++ s.oracle.bytes.getD (k + 1) 0
  else s.oracle.bytes.getD (k + 1) 0 ++ s.oracle.bytes.getD k 0

/-- The DeviceInfo words start after GET_DEV_INFO's 4 answers, the preamble's 2 and the dummies'. -/
def devWord (s : State) (i : Nat) : Word16 := answerWord s (6 + 2 * s.params.readDummyWords + 2 * i)

/-- DISCOVER's phases (R256). -/
def discoverPhases (p : Params) : List (List Word16) :=
  [cmdWords p.codes.getDevInfo, readWords p p.devinfoWords]

/-- CONFIGURE's phases up to the voltage read (R262). -/
def configurePhases (p : Params) : List (List Word16) :=
  [cmdWords p.codes.regWr, writeWords [p.codes.i80cpcr], writeWords [0x0001],
   cmdWords p.codes.vcom, writeWords [0x0000], readWords p 1]

/-- The phases of `vcom_set(v)` (R228). -/
def vcomSetPhases (p : Params) (v : Word16) : List (List Word16) :=
  [cmdWords p.codes.vcom, writeWords [0x0001], writeWords [v]]

/-- The voltage CONFIGURE receives: 12 answers of the register write, 8 of the get command, the
preamble's 2 and the dummies' come before it. -/
def vcomRead (s : State) : Word16 := answerWord s (22 + 2 * s.params.readDummyWords)

/-- w' or h': the size clipped to the panel (R276). -/
def clipped (start size bound : Nat) : Nat := if start ≥ bound then 0 else min size (bound - start)

/-- w' (R275). -/
def displayW (s : State) : Nat :=
  clipped (lo16 s.regs.dispXY) (lo16 s.regs.dispWH) s.dev.panelWidth.toNat

/-- h' (R275). -/
def displayH (s : State) : Nat :=
  clipped (hi16 s.regs.dispXY) (hi16 s.regs.dispWH) s.dev.panelHeight.toNat

/-- n = floor(w'*h'/4) (R275). -/
def displayN (s : State) : Nat := displayW s * displayH s / 4

/-- The words x, y, w', h' (R275). -/
def displayRectWords (s : State) : List Word16 :=
  [s.regs.dispXY.extractLsb' 0 16, s.regs.dispXY.extractLsb' 16 16,
   BitVec.ofNat 16 (displayW s), BitVec.ofNat 16 (displayH s)]

/-- The stream: W_i = FB[2i] + 256*FB[2i+1] for i in [0, n) (R277). -/
def displayStream (s : State) : List Word16 :=
  (List.range (displayN s)).map fun i =>
    BitVec.ofNat 16 ((s.fb.getD (2 * i) 0).toNat + 256 * (s.fb.getD (2 * i + 1) 0).toNat)

/-- DISPLAY's phases (R275). -/
def displayPhases (s : State) : List (List Word16) :=
  [cmdWords s.params.codes.ldImgArea]
    ++ (s.params.ldimgArg :: displayRectWords s).map (fun a => writeWords [a])
    ++ [writeWords (displayStream s), cmdWords s.params.codes.ldImgEnd,
        cmdWords s.params.codes.dpyArea]
    ++ (displayRectWords s ++ [s.params.displayMode]).map (fun a => writeWords [a])

/-- The commands with a ready poll (R362). -/
def polled (i : Instr) : Prop :=
  i = .discover ∨ i = .configure ∨ i = .display ∨ i = .regRead ∨ i = .regWrite

/-- The state table of R306: the row of a controller command, as its list of allowed states. -/
def allowedStates : Instr → List CState
  | .init => [.uninit]
  | .discover => [.reset]
  | .configure => [.discovered]
  | .draw | .display => [.ready]
  | .regRead | .regWrite => [.reset, .discovered, .ready]
  | _ => [.uninit, .reset, .discovered, .ready]

/-- The table of R307: the error codes a command can report. -/
def reportable : Instr → List ErrCode
  | .compare _ _ | .rotate => [.none, .geometryFault, .capacityFault]
  | .pack => [.none, .invariantViolation, .capacityFault]
  | .init => [.none, .initFailure, .stateError]
  | .discover => [.none, .initFailure, .protocolTimeout, .stateError]
  | .configure => [.none, .protocolTimeout, .stateError]
  | .draw => [.none, .stateError, .capacityFault]
  | .display => [.none, .protocolTimeout, .invariantViolation, .stateError]
  | .regRead | .regWrite => [.none, .protocolTimeout, .stateError]
  | _ => []

/-- The word a wire instruction sends (R115, R120). -/
def wireWordOf (c : Codes) : Instr → Option Word16
  | .preambleCmd => some 0x6000
  | .preambleWrite => some 0x0000
  | .preambleRead => some 0x1000
  | .codeRegRd => some c.regRd
  | .codeRegWr => some c.regWr
  | .codeLdImgArea => some c.ldImgArea
  | .codeLdImgEnd => some c.ldImgEnd
  | .codeDpyArea => some c.dpyArea
  | .codeVcom => some c.vcom
  | .codeGetDevInfo => some c.getDevInfo
  | _ => none

/-- A host access stands next, and what comes after it. -/
def nextAccess (a : Access) (rest : List Input) (s : State) : Prop := s.inputs = .access a :: rest

/-- What a command writes, by its rule's Writes line (R150-R286): ROTATE only when ANGLE = 90. -/
def writesLine (s : State) (i : Instr) : Target → Prop
  | .reg .regionXY | .reg .regionWH | .window .regionPix =>
    (∃ slot prev, i = .compare slot prev) ∨ (i = .rotate ∧ s.regs.angle.toInt = 90)
  | .reg .packedLen | .window .packed => i = .pack
  | .reg .panelGeom | .reg .devGeom | .reg .devImgAddr | .reg (.devFw _) | .reg (.devLut _) =>
    i = .discover
  | .reg .fbLen => i = .discover ∨ i = .draw
  | .reg .vcomRead => i = .configure
  | .reg .regData => i = .regRead
  | _ => False

/-- The running command, in a state that allows it, writes the target. -/
def runningWrites (s : State) (t : Target) : Prop :=
  ∃ i, s.running = some i ∧ s.status.cstate ∈ allowedStates i ∧ writesLine s i t

/-- The command is the one this step can run: it is the running one, or none runs and a CMD write of its
word stands next (R303). -/
def commandOf (s : State) (i : Instr) : Prop :=
  s.running = some i ∨
    (s.running = none ∧ ∃ w rest, nextAccess (.write 0x004 .w32 w) rest s ∧ decodeCmd w = .ok i)

/-- What a register shows (R31-R51). STATUS is StatusWordHoldsItsFields'. -/
def shownValue (s : State) : HostReg → Word32
  | .id => 0x41440007
  | .cmd => 0
  | .status => statusWord s
  | .angle => s.regs.angle
  | .panelGeom => s.regs.panelGeom
  | .frameGeom => s.regs.frameGeom
  | .regionXY => s.regs.regionXY
  | .regionWH => s.regs.regionWH
  | .packedLen => s.regs.packedLen
  | .dispXY => s.regs.dispXY
  | .dispWH => s.regs.dispWH
  | .regAddr => (0x0000 : Word16) ++ s.regs.regAddr
  | .regData => (0x0000 : Word16) ++ s.regs.regData
  | .vcomTarget => (0x0000 : Word16) ++ s.regs.vcomTarget
  | .vcomRead => (0x0000 : Word16) ++ s.regs.vcomRead
  | .timeout => s.regs.timeout
  | .fbLen => BitVec.ofNat 32 s.fb.length
  | .devGeom => s.dev.panelHeight ++ s.dev.panelWidth
  | .devImgAddr => s.dev.imageBufferAddress
  | .devFw k => s.dev.firmwareVersion[2 * k.val + 1] ++ s.dev.firmwareVersion[2 * k.val]
  | .devLut k => s.dev.lutVersion[2 * k.val + 1] ++ s.dev.lutVersion[2 * k.val]

/-- The registers the host can write freely, with the bits each stores (R34, R36-R44, R46). -/
def storedBits : HostReg → Option Nat
  | .angle | .frameGeom | .regionXY | .regionWH | .packedLen | .dispXY | .dispWH | .timeout =>
    some 32
  | .regAddr | .regData | .vcomTarget => some 16
  | _ => none

/-- The registers with access code R (R31, R33, R45, R47-R51). -/
def readOnly : HostReg → Bool
  | .id | .status | .vcomRead | .fbLen | .devGeom | .devImgAddr | .devFw _ | .devLut _ => true
  | _ => false

/-- The level of the select line after these events: the last Select's (R60). -/
def selFollows : Line → List Event → Line
  | sel, [] => sel
  | _, .select l :: es => selFollows (.driven l) es
  | sel, _ :: es => selFollows sel es

/-- The level of the reset line after these events: the last WritePin(RST, l)'s (R60). -/
def rstFollows : Line → List Event → Line
  | rst, [] => rst
  | _, .writePin l :: es => rstFollows (.driven l) es
  | rst, _ :: es => rstFollows rst es

/-- `n` steps of the machine. -/
def steps : Nat → State → Result
  | 0, s => .next s
  | n + 1, s =>
    match step s with
    | .next t => steps n t
    | .fault r => .fault r
    | .refused r => .refused r

end Sys2Proof.Spec

open Sys2Proof.Spec

/-! ## Encoding -/

/-- Decoding the bytes of a well-formed instruction gives it back, for every instruction, every operand
and every code table. -/
def Obligations.DecodeEncodeRoundTrip : Prop :=
  ∀ (c : Codes) (i : Instr), Instr.wf c i = true → decode c (encode c i) = .ok i

/-- A word that decodes is the word its instruction encodes to, so each word has one meaning. -/
def Obligations.DecodedWordIsItsEncoding : Prop :=
  ∀ (c : Codes) (e : Encoded) (i : Instr), decodeWord c e = .ok i → encodeWord c i = e

/-- R112: the patterns of the command words, and ILLEGAL_COMMAND for every other word accepted. -/
def Obligations.CommandWordsDecodeOrAreIllegal : Prop :=
  (∀ (w : Word32) (i : Instr), decodeCmd w = .ok i ↔
    (w &&& 0xFFFFFCFF = 0x00000001 ∧
      i = .compare (if w.getLsbD 8 = true then .frame1 else .frame0) (w.getLsbD 9)) ∨
    (w = 0x02 ∧ i = .rotate) ∨ (w = 0x03 ∧ i = .pack) ∨ (w = 0x10 ∧ i = .init) ∨
    (w = 0x11 ∧ i = .discover) ∨ (w = 0x12 ∧ i = .configure) ∨ (w = 0x13 ∧ i = .draw) ∨
    (w = 0x14 ∧ i = .display) ∨ (w = 0x15 ∧ i = .regRead) ∨ (w = 0x16 ∧ i = .regWrite)) ∧
  (∀ (s : State) (w : Word32) (rest : List Input), nextAccess (.write 0x004 .w32 w) rest s →
    s.running = none → s.status.cstate ≠ .failed → (∀ i, decodeCmd w ≠ .ok i) →
    step s = .next (finished
      { s.status with done := true, err := true, rej := false, errcode := .illegalCommand }
      { s with inputs := rest }))

/-- Words written out from the tables decode to their instructions. -/
def Obligations.SampleWordsDecode : Prop :=
  decodeTableWord 32 0x00000301 = some (.compare .frame1 true) ∧
    decodeTableWord 32 0x00000102 = none ∧ decodeTableWord 32 0x00000003 = some .pack ∧
    decodeTableWord 32 0x00000014 = some .display ∧ decodeTableWord 16 0x6000 = some .preambleCmd ∧
    decodeTableWord 16 0x0302 = some .codeGetDevInfo

/-! ## Steps -/

/-- A decodable CMD write to an idle block that is not FAILED is accepted with the STATUS of R303, and
the command's meaning runs on the accepted state. When it runs is the model's choice (log entries 6 and
14): in the same step under the pace whole; under single in a later step, its begin item, which the
block takes with no input left, when the outside lets it move (`block`), or while the host waits. `wait`
reads STATUS, and lets the block move, until BUSY = 0 (R142). -/
def Obligations.StepRunsTheAcceptedCommand : Prop :=
  (∀ (s : State) (w : Word32) (i : Instr) (rest : List Input),
    nextAccess (.write 0x004 .w32 w) rest s → s.running = none → s.status.cstate ≠ .failed →
    decodeCmd w = .ok i →
    let accepted : State := { s with
      inputs := rest
      running := some i
      seq := { items := [.begin], polls := 0, rx := [], bound := 0 }
      status := { s.status with done := false, err := false, errcode := .none, rej := false } }
    (s.pace = .whole → step s = exec i accepted) ∧ (s.pace = .single → step s = .next accepted)) ∧
  (∀ (s : State) (i : Instr) (more : List Item) (rest : List Input), s.running = some i →
    s.seq.items = .begin :: more →
    let begun : State := { s with seq := { s.seq with items := more, polls := 0 } }
    (s.inputs = [] → step s = exec i begun) ∧
    (s.inputs = .block :: rest → step s = exec i { begun with inputs := rest }) ∧
    (s.inputs = .wait :: rest → step s = exec i { begun with readback := statusWord s })) ∧
  (∀ (s : State) (rest : List Input), s.inputs = .wait :: rest →
    (s.running = none → step s = .next { s with inputs := rest, readback := statusWord s }) ∧
    (s.running ≠ none →
      step s = step { s with inputs := .block :: .wait :: rest, readback := statusWord s }))

/-- The sequencer's next word runs as the wire instruction it decodes to. That a preamble or a code
stands in the sequence as a word, is decoded and runs as an instruction is the model's reading of the
opcode table's wire rows (DEDUCED, log entries 9 and 10): the spec's block fetches no instructions. -/
def Obligations.StepRunsTheFetchedWireWord : Prop :=
  ∀ (s : State) (w : Word16) (i : Instr) (more : List Item) (rest : List Input),
    s.seq.items = .op w :: more → decodeWire s.params.codes w = .ok i →
    (s.inputs = [] → step s = exec i { s with seq := { s.seq with items := more, polls := 0 } }) ∧
    (s.inputs = .block :: rest →
      step s = exec i { s with inputs := rest, seq := { s.seq with items := more, polls := 0 } })

/-! ## The host's side -/

/-- R92, R93, R304: a host read that answers changes nothing but the value the host was told (and the
model's count of unspecified values), and reading the same thing twice returns the same value. While a
command runs, a read of a register or window it writes returns a free value and advances the count; a
read of any other does neither. That a free value, and no fault, answers where the window's byte is also
unwritten is the model's choice (log entry 22), and that a whole window is free is too (log entry 8). -/
def Obligations.HostReadHasNoSideEffect : Prop :=
  (∀ (s t : State) (offset : Nat) (width : Width) (rest : List Input),
    nextAccess (.read offset width) rest s → step s = .next t →
    t = { s with inputs := rest, readback := t.readback, freeCount := t.freeCount } ∧
    (s.running = none → ∀ u, step { t with inputs := .access (.read offset width) :: rest } = .next u →
      u.readback = t.readback)) ∧
  (∀ (s : State) (r : HostReg) (rest : List Input), nextAccess (.read r.offset .w32) rest s →
    (runningWrites s (.reg r) → step s = .next { s with
      inputs := rest
      readback := Config.freeRead s.freeCount
      freeCount := s.freeCount + 1 }) ∧
    (¬runningWrites s (.reg r) → ∃ x, step s = .next { s with inputs := rest, readback := x })) ∧
  (∀ (s : State) (w : Window) (offset : Nat) (width : Width) (rest : List Input),
    w.base ≤ offset → offset + Width.bytes width ≤ w.base + min (w.capacity s.params) Window.span →
    offset % Width.bytes width = 0 → nextAccess (.read offset width) rest s →
    (runningWrites s (.window w) → step s = .next { s with
      inputs := rest
      readback := BitVec.ofNat 32
        ((Config.freeRead s.freeCount).toNat % 2 ^ (8 * Width.bytes width))
      freeCount := s.freeCount + 1 }) ∧
    (¬runningWrites s (.window w) → ∀ t, step s = .next t → t.freeCount = s.freeCount))

/-- R34, R36-R44, R46: a 32-bit write to a writable register of an idle block stores the register's
bits and nothing else: it reads back, and every other register and byte is as before. -/
def Obligations.RegisterWriteReadsBack : Prop :=
  ∀ (s : State) (r : HostReg) (n : Nat) (v : Word32) (rest : List Input),
    storedBits r = some n → nextAccess (.write r.offset .w32 v) rest s → s.running = none →
    ∃ regs, step s = .next { s with inputs := rest, regs := regs } ∧
      readReg r { s with regs := regs } = (v.setWidth n).setWidth 32 ∧
      ∀ r', r' ≠ r → readReg r' { s with regs := regs } = readReg r' s

/-- R35: the host writes PANEL_GEOM in UNINIT and RESET; in every other state the write is ignored and
does not set REJ. -/
def Obligations.PanelGeometryIsWritableBeforeDiscovery : Prop :=
  ∀ (s : State) (v : Word32) (rest : List Input), nextAccess (.write 0x010 .w32 v) rest s →
    s.running = none →
    (s.status.cstate = .uninit ∨ s.status.cstate = .reset →
      step s = .next { s with inputs := rest, regs := { s.regs with panelGeom := v } }) ∧
    (s.status.cstate = .discovered ∨ s.status.cstate = .ready ∨ s.status.cstate = .failed →
      step s = .next { s with inputs := rest })

/-- Read-only registers ignore writes: nothing changes (R31, R33, R45, R47-R51). -/
def Obligations.ReadOnlyRegistersIgnoreWrites : Prop :=
  ∀ (s : State) (r : HostReg) (v : Word32) (rest : List Input), readOnly r = true →
    nextAccess (.write r.offset .w32 v) rest s → s.running = none →
    step s = .next { s with inputs := rest }

/-- R31: ID reads 0x4144_0007 in every state, and a write of it changes nothing. -/
def Obligations.IdIsHardwired : Prop :=
  ∀ (s : State) (v : Word32) (rest : List Input),
    (nextAccess (.read 0x000 .w32) rest s →
      step s = .next { s with inputs := rest, readback := 0x41440007 }) ∧
    (nextAccess (.write 0x000 .w32 v) rest s → s.running = none →
      step s = .next { s with inputs := rest })

/-- R82: window accesses are little-endian, byte by byte; a misaligned one is ignored and reads 0. A
write takes effect on an idle block; a read returns the bytes unless a running command writes them. -/
def Obligations.WindowAccessIsLittleEndian : Prop :=
  ∀ (s : State) (w : Window) (offset : Nat) (width : Width) (v : Word32) (rest : List Input),
    w.base ≤ offset → offset + Width.bytes width ≤ w.base + min (w.capacity s.params) Window.span →
    (offset % Width.bytes width = 0 →
      (s.running = none → nextAccess (.write offset width v) rest s →
        ∃ m, step s = .next { s with inputs := rest, mem := m } ∧
          (∀ k, k < Width.bytes width →
            Memory.read m (offset + k) = some (v.extractLsb' (8 * k) 8)) ∧
          ∀ a, (a < offset ∨ offset + Width.bytes width ≤ a) →
            Memory.read m a = Memory.read s.mem a) ∧
      (∀ bytes : Nat → Byte, ¬runningWrites s (.window w) → nextAccess (.read offset width) rest s →
        (∀ k, k < Width.bytes width → Memory.read s.mem (offset + k) = some (bytes k)) →
        ∃ x, step s = .next { s with inputs := rest, readback := x } ∧
          (∀ k, k < Width.bytes width → x.extractLsb' (8 * k) 8 = bytes k) ∧
          x.toNat < 2 ^ (8 * Width.bytes width))) ∧
    (offset % Width.bytes width ≠ 0 →
      (nextAccess (.write offset width v) rest s → step s = .next { s with inputs := rest }) ∧
      (nextAccess (.read offset width) rest s →
        step s = .next { s with inputs := rest, readback := 0 }))

/-- R81, R52: a register-page access that is not 32 bits wide and aligned, or is at a reserved offset,
is ignored on write, without REJ, and reads 0, in every state. -/
def Obligations.BadRegisterAccessIsIgnored : Prop :=
  ∀ (s : State) (offset : Nat) (width : Width) (v : Word32) (rest : List Input),
    offset < 0x1000 → (width ≠ .w32 ∨ offset % 4 ≠ 0 ∨ 0x06C ≤ offset) →
    (nextAccess (.write offset width v) rest s → step s = .next { s with inputs := rest }) ∧
    (nextAccess (.read offset width) rest s →
      step s = .next { s with inputs := rest, readback := 0 })

/-- R80, R83: an access outside the register page with a byte at or past the capacity of every window
it could be in, or in no window, is ignored on write and reads 0, in every state. -/
def Obligations.UnmappedAccessIsIgnored : Prop :=
  ∀ (s : State) (offset : Nat) (width : Width) (v : Word32) (rest : List Input),
    0x1000 ≤ offset →
    (∀ w : Window, offset < w.base ∨
      w.base + min (w.capacity s.params) Window.span < offset + Width.bytes width) →
    (nextAccess (.write offset width v) rest s → step s = .next { s with inputs := rest }) ∧
    (nextAccess (.read offset width) rest s →
      step s = .next { s with inputs := rest, readback := 0 })

/-- R304: while a command runs, a host write of a register, or an aligned one within a window, is
ignored and sets REJ; STATUS still reads, with BUSY = 1. That this holds of a read-only register and of a
locked PANEL_GEOM too, whose writes an idle block ignores without REJ (R35), is the model's reading of
R304's "any register" (DEDUCED, log entry 13). -/
def Obligations.BusyBlockRejectsWrites : Prop :=
  ∀ (s : State) (i : Instr) (rest : List Input), s.running = some i →
    (∀ (r : HostReg) (v : Word32), nextAccess (.write r.offset .w32 v) rest s →
      step s = .next { s with inputs := rest, status := { s.status with rej := true } }) ∧
    (∀ (w : Window) (offset : Nat) (width : Width) (v : Word32),
      w.base ≤ offset → offset + Width.bytes width ≤ w.base + min (w.capacity s.params) Window.span →
      offset % Width.bytes width = 0 → nextAccess (.write offset width v) rest s →
      step s = .next { s with inputs := rest, status := { s.status with rej := true } }) ∧
    (nextAccess (.read 0x008 .w32) rest s →
      ∃ x, step s = .next { s with inputs := rest, readback := x } ∧ x.getLsbD 0 = true)

/-- R303 (2): in FAILED a CMD write is ignored and sets REJ; DONE, ERR and ERRCODE keep their values. -/
def Obligations.FailedBlockRejectsCommands : Prop :=
  ∀ (s : State) (w : Word32) (rest : List Input), nextAccess (.write 0x004 .w32 w) rest s →
    s.running = none → s.status.cstate = .failed →
    step s = .next { s with inputs := rest, status := { s.status with rej := true } }

/-- R33, R53, R300: the fields of STATUS as the host reads them. -/
def Obligations.StatusWordHoldsItsFields : Prop :=
  ∀ s : State,
    (statusWord s).getLsbD 0 = s.running.isSome ∧ (statusWord s).getLsbD 1 = s.status.done ∧
    (statusWord s).getLsbD 2 = s.status.rvalid ∧ (statusWord s).getLsbD 3 = s.status.err ∧
    (statusWord s).getLsbD 4 = s.status.rej ∧ (statusWord s).extractLsb' 5 3 = 0 ∧
    (statusWord s).extractLsb' 15 17 = 0 ∧
    (statusWord s).extractLsb' 8 4 = (match s.status.errcode with
      | .none => 0x0
      | .initFailure => 0x1
      | .protocolTimeout => 0x2
      | .invariantViolation => 0x3
      | .stateError => 0x4
      | .geometryFault => 0x5
      | .illegalCommand => 0x6
      | .capacityFault => 0x7) ∧
    (statusWord s).extractLsb' 12 3 = (match s.status.cstate with
      | .uninit => 0
      | .reset => 1
      | .discovered => 2
      | .ready => 3
      | .failed => 7)

/-! ## COMPARE -/

/-- R150-R162: when some scanned pixel changed and the aligned rectangle is in range, COMPARE completes
with that rectangle of the bounding box, its pixels and RVALID = 1, and changes nothing else. With a
quarter-turn pending the column limit, the right-edge bound and the vertical bound are those of the
spec's decisions D12, D13 and D14. -/
def Obligations.CompareFindsTheChangedRegion : Prop :=
  ∀ (slot : Slot) (prev : Bool) (s : State) (x0 x1 y0 y1 ax ay aw ah : Nat),
    s.status.cstate ≠ .failed →
    lo16 s.regs.frameGeom * hi16 s.regs.frameGeom ≤ s.params.frameCap →
    scanReadable slot prev s → tightBox slot prev s x0 x1 y0 y1 →
    placed s x0 x1 y0 y1 ax ay aw ah →
    ax + aw ≤ lo16 s.regs.frameGeom → ay + ah ≤ hi16 s.regs.frameGeom →
    aw * ah ≤ s.params.regionCap →
    (∀ r c, r < ah → c < aw → ∃ p, readPixel s.mem (newFrame slot)
      ((ay + r) * lo16 s.regs.frameGeom + (ax + c)) = .ok p) →
    ∃ m, exec (.compare slot prev) s = .next (finished { okStatus s.status with rvalid := true }
        { s with
          mem := m
          regs := { s.regs with
            regionXY := BitVec.ofNat 16 ay ++ BitVec.ofNat 16 ax
            regionWH := BitVec.ofNat 16 ah ++ BitVec.ofNat 16 aw } }) ∧
      (∀ r c, r < ah → c < aw → readPixel m .regionPix (r * aw + c)
        = readPixel s.mem (newFrame slot) ((ay + r) * lo16 s.regs.frameGeom + (ax + c))) ∧
      sameOutside .regionPix (3 * (aw * ah)) s.mem m

/-- R155, R162, R164 (a)-(d): when no scanned pixel changed, COMPARE completes without error and with
RVALID = 0, and the region is unchanged. With a quarter-turn pending the scan's limits are those of the
spec's decision D12. -/
def Obligations.CompareReportsNoChange : Prop :=
  ∀ (slot : Slot) (prev : Bool) (s : State), s.status.cstate ≠ .failed →
    lo16 s.regs.frameGeom * hi16 s.regs.frameGeom ≤ s.params.frameCap →
    scanReadable slot prev s → (∀ x y, ¬changed slot prev s x y) →
    exec (.compare slot prev) s
      = .next (finished { okStatus s.status with rvalid := false } s)

/-- R152: a frame larger than FRAME_CAP raises CAPACITY_FAULT before any pixel is read. -/
def Obligations.CompareRejectsAnOversizedFrame : Prop :=
  ∀ (slot : Slot) (prev : Bool) (s : State), s.status.cstate ≠ .failed →
    s.params.frameCap < lo16 s.regs.frameGeom * hi16 s.regs.frameGeom →
    exec (.compare slot prev) s
      = .next (finished { errStatus .capacityFault s.status with rvalid := false } s)

/-- R157, R158, R160: a shift below 0 or a rectangle past the frame raises GEOMETRY_FAULT, and a region
larger than REGION_CAP raises CAPACITY_FAULT; nothing but STATUS is written. With a quarter-turn pending
the limits and bounds are those of the spec's decisions D12, D13 and D14. -/
def Obligations.CompareRaisesRangeErrors : Prop :=
  ∀ (slot : Slot) (prev : Bool) (s : State) (x0 x1 y0 y1 : Nat), s.status.cstate ≠ .failed →
    lo16 s.regs.frameGeom * hi16 s.regs.frameGeom ≤ s.params.frameCap →
    scanReadable slot prev s → tightBox slot prev s x0 x1 y0 y1 →
    ((unfittable x0 x1 (lo16 s.regs.panelGeom) ∨
        (quarterTurn s ∧ unfittable y0 y1 (lo16 s.regs.panelGeom)) ∨
        ∃ ax ay aw ah, placed s x0 x1 y0 y1 ax ay aw ah ∧
          (lo16 s.regs.frameGeom < ax + aw ∨ hi16 s.regs.frameGeom < ay + ah)) →
      exec (.compare slot prev) s
        = .next (finished { fatalStatus .geometryFault s.status with rvalid := false } s)) ∧
    (∀ ax ay aw ah, placed s x0 x1 y0 y1 ax ay aw ah → ax + aw ≤ lo16 s.regs.frameGeom →
      ay + ah ≤ hi16 s.regs.frameGeom → s.params.regionCap < aw * ah →
      exec (.compare slot prev) s
        = .next (finished { errStatus .capacityFault s.status with rvalid := false } s))

/-- R166 (b): the region a successful COMPARE writes is 4-aligned, vertically too when T. -/
def Obligations.ComparedRegionIsAligned : Prop :=
  ∀ (slot : Slot) (prev : Bool) (s t : State), s.status.cstate ≠ .failed →
    exec (.compare slot prev) s = .next t → t.status.rvalid = true →
    lo16 t.regs.regionXY % 4 = 0 ∧ lo16 t.regs.regionWH % 4 = 0 ∧
      (quarterTurn s → hi16 t.regs.regionXY % 4 = 0 ∧ hi16 t.regs.regionWH % 4 = 0) ∧
      0 < lo16 t.regs.regionWH ∧ 0 < hi16 t.regs.regionWH

/-- R150, R161, R162: COMPARE changes STATUS, and on success REGION_XY, REGION_WH and the first W*H
pixels of REGION_PIX; when it finds nothing or reports an error, nothing but STATUS. -/
def Obligations.CompareFrame : Prop :=
  ∀ (slot : Slot) (prev : Bool) (s t : State), exec (.compare slot prev) s = .next t →
    t = { s with
      running := none
      seq := { items := [], polls := 0, rx := [], bound := 0 }
      status := t.status
      mem := t.mem
      regs := { s.regs with regionXY := t.regs.regionXY, regionWH := t.regs.regionWH } } ∧
    t.status.done = true ∧ t.status.rej = s.status.rej ∧
    (t.status.errcode ≠ .none ∨ t.status.rvalid = false → t.mem = s.mem ∧ t.regs = s.regs) ∧
    sameOutside .regionPix (3 * (lo16 t.regs.regionWH * hi16 t.regs.regionWH)) s.mem t.mem

/-! ## ROTATE and PACK -/

/-- R191: for every ANGLE other than 90, ROTATE completes without error and writes nothing except
STATUS. -/
def Obligations.RotateIsTheIdentityUnlessNinety : Prop :=
  ∀ s : State, s.status.cstate ≠ .failed → s.regs.angle.toInt ≠ 90 →
    exec .rotate s = .next (finished (okStatus s.status) s)

/-- R193, R194: with ANGLE = 90 ROTATE turns the region clockwise: the geometry becomes
(PW - y - h, x, h, w), and output pixel (c, r) is input pixel (r, h - 1 - c). -/
def Obligations.RotateTurnsTheRegion : Prop :=
  ∀ s : State, s.status.cstate ≠ .failed → s.regs.angle.toInt = 90 →
    let x := lo16 s.regs.regionXY
    let y := hi16 s.regs.regionXY
    let w := lo16 s.regs.regionWH
    let h := hi16 s.regs.regionWH
    w * h ≤ s.params.regionCap → y + h ≤ lo16 s.regs.panelGeom →
    (∀ i, i < w * h → ∃ p, readPixel s.mem .regionPix i = .ok p) →
    ∃ m xy wh,
      exec .rotate s = .next (finished (okStatus s.status)
        { s with mem := m, regs := { s.regs with regionXY := xy, regionWH := wh } }) ∧
      lo16 xy = lo16 s.regs.panelGeom - y - h ∧ hi16 xy = x ∧ lo16 wh = h ∧ hi16 wh = w ∧
      (∀ r c, r < w → c < h →
        readPixel m .regionPix (r * h + c) = readPixel s.mem .regionPix ((h - 1 - c) * w + r)) ∧
      sameOutside .regionPix (3 * (w * h)) s.mem m

/-- R200, R198, R201: PACK stores PACKED[k] = q[2k] + 16*q[2k+1] with q = luma div 16, and
PACKED_LEN = n/2. -/
def Obligations.PackPacksTwoSamplesAByte : Prop :=
  ∀ s : State, s.status.cstate ≠ .failed →
    let n := lo16 s.regs.regionWH * hi16 s.regs.regionWH
    n ≤ s.params.regionCap → n % 4 = 0 → n / 2 ≤ s.params.packedCap →
    (∀ i, i < n → ∃ p, readPixel s.mem .regionPix i = .ok p) →
    ∃ m len,
      exec .pack s = .next (finished (okStatus s.status)
        { s with mem := m, regs := { s.regs with packedLen := len } }) ∧
      len.toNat = n / 2 ∧
      (∀ k p q, k < n / 2 → readPixel s.mem .regionPix (2 * k) = .ok p →
        readPixel s.mem .regionPix (2 * k + 1) = .ok q →
        ∃ b, Memory.read m (0x04000000 + k) = some b ∧
          b.toNat = luma s.params.lumaTie p / 16 + 16 * (luma s.params.lumaTie q / 16)) ∧
      sameOutside .packed (n / 2) s.mem m

/-- R192, R200: the checks of ROTATE and PACK, in their order, each before anything is written. -/
def Obligations.RegionChecksComeBeforeWrites : Prop :=
  ∀ s : State, s.status.cstate ≠ .failed →
    let n := lo16 s.regs.regionWH * hi16 s.regs.regionWH
    let y := hi16 s.regs.regionXY
    let h := hi16 s.regs.regionWH
    (s.regs.angle.toInt = 90 → s.params.regionCap < n →
      exec .rotate s = .next (finished (errStatus .capacityFault s.status) s)) ∧
    (s.regs.angle.toInt = 90 → n ≤ s.params.regionCap → lo16 s.regs.panelGeom < y + h →
      exec .rotate s = .next (finished (fatalStatus .geometryFault s.status) s)) ∧
    (s.params.regionCap < n →
      exec .pack s = .next (finished (errStatus .capacityFault s.status) s)) ∧
    (n ≤ s.params.regionCap → n % 4 ≠ 0 →
      exec .pack s = .next (finished (fatalStatus .invariantViolation s.status) s)) ∧
    (n ≤ s.params.regionCap → n % 4 = 0 → s.params.packedCap < n / 2 →
      exec .pack s = .next (finished (errStatus .capacityFault s.status) s))

/-- ROTATE, PACK and DRAW change STATUS and their results, and nothing else: ROTATE the region's
geometry and its first w*h pixels, PACK PACKED_LEN and the first n/2 packed bytes, DRAW the frame
buffer; RVALID and REJ stay, and an error leaves all but STATUS. -/
def Obligations.RegionCommandsChangeOnlyTheirResults : Prop :=
  ∀ (i : Instr) (s t : State), i = .rotate ∨ i = .pack ∨ i = .draw → exec i s = .next t →
    t = { s with
      running := none
      seq := { items := [], polls := 0, rx := [], bound := 0 }
      status := t.status
      mem := t.mem
      fb := t.fb
      regs := { s.regs with
        regionXY := t.regs.regionXY
        regionWH := t.regs.regionWH
        packedLen := t.regs.packedLen } } ∧
    t.status.done = true ∧ t.status.rej = s.status.rej ∧ t.status.rvalid = s.status.rvalid ∧
    (t.status.errcode ≠ .none → t.mem = s.mem ∧ t.regs = s.regs ∧ t.fb = s.fb) ∧
    (i = .rotate → t.fb = s.fb ∧ t.regs.packedLen = s.regs.packedLen ∧
      (s.regs.angle.toInt ≠ 90 → t.mem = s.mem ∧ t.regs = s.regs) ∧
      sameOutside .regionPix (3 * (lo16 s.regs.regionWH * hi16 s.regs.regionWH)) s.mem t.mem) ∧
    (i = .pack → t.fb = s.fb ∧ t.regs.regionXY = s.regs.regionXY ∧
      t.regs.regionWH = s.regs.regionWH ∧
      sameOutside .packed (lo16 s.regs.regionWH * hi16 s.regs.regionWH / 2) s.mem t.mem) ∧
    (i = .draw → t.mem = s.mem ∧ t.regs = s.regs)

/-- R196: the luminance is the exact rounded value off ties; at a tie it is (s + 5000) div 10000 under
HALF_UP, the reference's value under the references, and one of the two neighbours always. What the
references give is the model's integer reconstruction of R197's float arithmetic (DEDUCED, log entry 11),
so the clauses for REF_F32 and REF_F64, and the neighbour clause under them, rest on it. -/
def Obligations.LuminanceLaw : Prop :=
  ∀ (tie : LumaTie) (px : Pixel),
    let s := 2125 * px.r.toNat + 7154 * px.g.toNat + 721 * px.b.toNat
    s ≤ 2550000 ∧
    (s % 10000 ≠ 5000 → luma tie px = (s + 5000) / 10000) ∧
    (s % 10000 = 5000 →
      luma .halfUp px = (s + 5000) / 10000 ∧ luma .refF32 px = refLumaF32 px ∧
      luma .refF64 px = refLumaF64 px ∧
      (luma tie px = (s - 5000) / 10000 ∨ luma tie px = (s + 5000) / 10000)) ∧
    luma tie px ≤ 255 ∧ luma tie { b := 255, g := 255, r := 255 } = 255 ∧
    luma tie { b := 0, g := 0, r := 0 } = 0

/-! ## The controller commands -/

/-- R250: INIT in UNINIT. Answered ok, it emits its seven events in order, and CSTATE becomes RESET;
answered fail, it emits that one event and raises INIT_FAILURE.
That the command runs to its end in this step, on answers that are there, is the model's choice (pace
whole, log entry 6; the oracle's lists, log entry 4). -/
def Obligations.InitBringsTheTransportUp : Prop :=
  ∀ (s : State) (more : List Bool), s.pace = .whole → s.status.cstate = .uninit →
    (s.oracle.inits = true :: more →
      exec .init s = .next (finished { okStatus s.status with cstate := .reset }
        { s with
          trace := s.trace ++ [.init true,
            .config s.params.spiBitOrder s.params.spiMode s.params.spiClockDivisor, .pinDir,
            .select true, .writePin s.params.resetAssertLevel, .delay s.params.resetSettleMs,
            .writePin (!s.params.resetAssertLevel)]
          sel := .driven true
          rst := .driven (!s.params.resetAssertLevel)
          oracle := { s.oracle with inits := more } })) ∧
    (s.oracle.inits = false :: more →
      exec .init s = .next (finished (fatalStatus .initFailure s.status)
        { s with trace := s.trace ++ [.init false], oracle := { s.oracle with inits := more } }))

/-- R256, R257, R259: DISCOVER in RESET, every poll answered ready. The first 20 of the DEVINFO_WORDS
words received give DeviceInfo, the zero-filled frame buffer, PANEL_GEOM and DISCOVERED; a zero width or
height or a frame buffer past FB_CAP gives INIT_FAILURE and writes none of these.
That the command runs to its end in this step, on answers that are there, is the model's choice (pace
whole, log entry 6; the oracle's lists, log entry 4). -/
def Obligations.DiscoverReadsDeviceInfo : Prop :=
  ∀ s : State, s.pace = .whole → s.status.cstate = .reset → 20 ≤ s.params.devinfoWords →
    answersReady (discoverPhases s.params) s →
    let pw := devWord s 0
    let ph := devWord s 1
    let size := pw.toNat * ph.toNat / 2
    (pw ≠ 0 → ph ≠ 0 → size ≤ s.params.fbCap →
      exec .discover s = .next (finished { okStatus s.status with cstate := .discovered }
        { afterPhases (discoverPhases s.params) s with
          dev := {
            panelWidth := pw
            panelHeight := ph
            imageBufferAddress := devWord s 3 ++ devWord s 2
            firmwareVersion := Vector.ofFn fun k : Fin 8 => devWord s (4 + k.val)
            lutVersion := Vector.ofFn fun k : Fin 8 => devWord s (12 + k.val) }
          fb := List.replicate size 0
          regs := { s.regs with panelGeom := ph ++ pw } })) ∧
    (pw = 0 ∨ ph = 0 ∨ s.params.fbCap < size →
      exec .discover s = .next (finished (fatalStatus .initFailure s.status)
        (afterPhases (discoverPhases s.params) s)))

/-- R262, R263: CONFIGURE in DISCOVERED, every poll answered ready, enables packed transfers, reads the
voltage, writes it only where it differs from the target, and CSTATE becomes READY.
That the command runs to its end in this step, on answers that are there, is the model's choice (pace
whole, log entry 6; the oracle's lists, log entry 4). -/
def Obligations.ConfigureEnforcesTheVoltage : Prop :=
  ∀ s : State, s.pace = .whole → s.status.cstate = .discovered →
    let phases := if vcomRead s = s.regs.vcomTarget then configurePhases s.params
      else configurePhases s.params ++ vcomSetPhases s.params s.regs.vcomTarget
    answersReady phases s →
    exec .configure s = .next (finished { okStatus s.status with cstate := .ready }
      { afterPhases phases s with regs := { s.regs with vcomRead := vcomRead s } })

/-- R270: DRAW in READY replaces the frame buffer by PACKED[0 .. PACKED_LEN), or raises CAPACITY_FAULT
and leaves it. -/
def Obligations.DrawReplacesTheFrameBuffer : Prop :=
  ∀ s : State, s.status.cstate = .ready →
    let size := s.regs.packedLen.toNat
    (size ≤ s.params.packedCap → size ≤ s.params.fbCap →
      (∀ k, k < size → ∃ b, Memory.read s.mem (0x04000000 + k) = some b) →
      ∃ fb, exec .draw s = .next (finished (okStatus s.status) { s with fb := fb }) ∧
        fb.length = size ∧ ∀ k, k < size → fb[k]? = Memory.read s.mem (0x04000000 + k)) ∧
    (s.params.packedCap < size ∨ s.params.fbCap < size →
      exec .draw s = .next (finished (errStatus .capacityFault s.status) s))

/-- R275-R278: DISPLAY in READY. With a frame buffer long enough and every poll answered ready it emits
its fourteen phases, with the clipped rectangle in both area commands and the frame-buffer words in
one; with a shorter one it raises INVARIANT_VIOLATION before any event.
That the command runs to its end in this step, on answers that are there, is the model's choice (pace
whole, log entry 6; the oracle's lists, log entry 4). -/
def Obligations.DisplayStreamsTheFrameBuffer : Prop :=
  ∀ s : State, s.status.cstate = .ready →
    (s.pace = .whole → 2 * displayN s ≤ s.fb.length → answersReady (displayPhases s) s →
      exec .display s = .next (finished (okStatus s.status) (afterPhases (displayPhases s) s))) ∧
    (s.fb.length < 2 * displayN s →
      exec .display s = .next (finished (fatalStatus .invariantViolation s.status) s))

/-- R282: REG_READ in its states, every poll answered ready, sends the address and stores the word
received in REG_DATA.
That the command runs to its end in this step, on answers that are there, is the model's choice (pace
whole, log entry 6; the oracle's lists, log entry 4). -/
def Obligations.RegReadStoresTheReceivedWord : Prop :=
  ∀ s : State, s.pace = .whole →
    s.status.cstate = .reset ∨ s.status.cstate = .discovered ∨ s.status.cstate = .ready →
    let phases := [cmdWords s.params.codes.regRd, writeWords [s.regs.regAddr], readWords s.params 1]
    answersReady phases s →
    exec .regRead s = .next (finished (okStatus s.status)
      { afterPhases phases s with
        regs := { s.regs with regData := answerWord s (10 + 2 * s.params.readDummyWords) } })

/-- R286: REG_WRITE in its states, every poll answered ready, sends the address and the value, and
writes nothing but STATUS.
That the command runs to its end in this step, on answers that are there, is the model's choice (pace
whole, log entry 6; the oracle's lists, log entry 4). -/
def Obligations.RegWriteSendsAddressAndValue : Prop :=
  ∀ s : State, s.pace = .whole →
    s.status.cstate = .reset ∨ s.status.cstate = .discovered ∨ s.status.cstate = .ready →
    let phases := [cmdWords s.params.codes.regWr, writeWords [s.regs.regAddr],
      writeWords [s.regs.regData]]
    answersReady phases s →
    exec .regWrite s = .next (finished (okStatus s.status) (afterPhases phases s))

/-- R306: outside its allowed states a command completes with STATE_ERROR, changes nothing but STATUS
and emits no event; inside them it does not report STATE_ERROR. -/
def Obligations.CommandsAreGatedByTheirStates : Prop :=
  ∀ (i : Instr) (s : State), i.isCommand = true → s.status.cstate ≠ .failed →
    (s.status.cstate ∉ allowedStates i →
      exec i s = .next (finished (errStatus .stateError s.status) s)) ∧
    (s.status.cstate ∈ allowedStates i → s.status.errcode = .none →
      ∀ t, exec i s = .next t → t.status.errcode ≠ .stateError)

/-- R222: with TIMEOUT = N > 0, N not-ready reads in a row at a poll end the command with
PROTOCOL_TIMEOUT: exactly N ReadPin events, and nothing but STATUS changes. First for the first poll of
a command run from its beginning; then for any poll the sequencer has come to, with the reads it has made
so far counted, one read a step. The pace and the answers that are there are the model's choice (log
entries 6 and 4). -/
def Obligations.FirstPollTimesOut : Prop :=
  (∀ (i : Instr) (s : State), polled i → s.pace = .whole → s.status.cstate ∈ allowedStates i →
    (i = .display → 2 * displayN s ≤ s.fb.length) →
    let bound := s.regs.timeout.toNat
    0 < bound → s.oracle.levels.take bound = List.replicate bound (!s.params.readyLevel) →
    exec i s = .next (finished (errStatus .protocolTimeout s.status)
      { s with
        trace := s.trace ++ List.replicate bound (.readPin (!s.params.readyLevel))
        oracle := { s.oracle with levels := s.oracle.levels.drop bound } })) ∧
  (∀ (s : State) (rest : List Item), s.inputs = [] → s.seq.items = .poll :: rest →
    s.seq.polls < s.seq.bound →
    let left := s.seq.bound - s.seq.polls
    s.oracle.levels.take left = List.replicate left (!s.params.readyLevel) →
    steps left s = .next (finished (errStatus .protocolTimeout s.status)
      { s with
        trace := s.trace ++ List.replicate left (.readPin (!s.params.readyLevel))
        oracle := { s.oracle with levels := s.oracle.levels.drop left } }))

/-- R302: a command that ends in an error changes no register, window, DeviceInfo or frame buffer: only
STATUS, CSTATE to FAILED when the error is fatal, COMPARE's RVALID, and the bus events already out. -/
def Obligations.ErrorsChangeNothingButStatus : Prop :=
  ∀ (i : Instr) (s t : State), i.isCommand = true → s.status.cstate ≠ .failed →
    exec i s = .next t → t.running = none → t.status.err = true →
    t = { s with
      running := none
      seq := { items := [], polls := 0, rx := [], bound := 0 }
      status := t.status
      trace := t.trace
      sel := t.sel
      rst := t.rst
      oracle := t.oracle } ∧
    t.status.done = true ∧ t.status.errcode ≠ .none ∧ t.status.rej = s.status.rej ∧
    t.status.cstate = (match t.status.errcode with
      | .initFailure | .invariantViolation | .geometryFault => .failed
      | .none | .protocolTimeout | .stateError | .illegalCommand | .capacityFault =>
        s.status.cstate) ∧
    t.status.rvalid = (match i with
      | .compare _ _ => false
      | _ => s.status.rvalid)

/-- R307: a command that has ended reports one of the errors of its row. -/
def Obligations.EachCommandReportsItsErrors : Prop :=
  ∀ (i : Instr) (s t : State), i.isCommand = true → s.status.cstate ≠ .failed →
    exec i s = .next t → t.running = none → t.status.errcode ∈ reportable i

/-- R362: with TIMEOUT > 0 a command with a ready poll completes, whatever HRDY answers, when the
transport answers at all: at most TIMEOUT levels for each of fourteen polls, and every byte. That the
answers stand in lists, and that the command runs to its end in one step, is the model's choice (log
entries 4 and 6). -/
def Obligations.BoundedPollsComplete : Prop :=
  ∀ (i : Instr) (s : State), polled i → s.pace = .whole → 0 < s.regs.timeout.toNat →
    14 * s.regs.timeout.toNat ≤ s.oracle.levels.length →
    54 + 2 * displayN s + 2 * s.params.readDummyWords ≤ s.oracle.bytes.length →
    6 + 2 * (s.params.readDummyWords + s.params.devinfoWords) ≤ s.oracle.bytes.length →
    ∃ t, exec i s = .next t ∧ t.running = none ∧ t.status.done = true

/-- R362: a command with no ready poll completes: COMPARE, ROTATE, PACK and DRAW always, unless they read
a window byte that nothing has written, which stops the machine (R340), and so always when every byte of
the windows is written; INIT when Init is answered. The pace and the answer are the model's choice (log
entries 6 and 4). -/
def Obligations.CommandsWithoutPollComplete : Prop :=
  ∀ (i : Instr) (s : State),
    (∃ slot prev, i = .compare slot prev) ∨ i = .rotate ∨ i = .pack ∨ i = .draw ∨
      (i = .init ∧ s.pace = .whole ∧ s.oracle.inits ≠ []) →
    ((∃ t, exec i s = .next t ∧ t.running = none ∧ t.status.done = true ∧ t.seq.items = [] ∧
        (t.status.err = true ↔ t.status.errcode ≠ .none)) ∨
      ∃ a, i ≠ .init ∧ exec i s = .fault (.unwrittenByte a) ∧ Memory.read s.mem a = none) ∧
    ((∀ (w : Window) (a : Nat), w.base ≤ a → a < w.base + w.capacity s.params →
        Memory.read s.mem a ≠ none) →
      ∃ t, exec i s = .next t ∧ t.running = none ∧ t.status.done = true)

/-! ## The bus -/

/-- R223: the command phase, with k not-ready reads before the ready one and fewer than the bound. -/
def Obligations.CommandPhaseOnTheBus : Prop :=
  ∀ (s : State) (c : Word16) (rest : List Item) (k : Nat) (more : List Level),
    s.seq.items = phaseCmd c ++ rest →
    s.oracle.levels = List.replicate k (!s.params.readyLevel) ++ s.params.readyLevel :: more →
    (s.seq.bound ≠ 0 → s.seq.polls + k < s.seq.bound) → 4 ≤ s.oracle.bytes.length →
    ∃ n, advance n s = { s with
      seq := { s.seq with items := rest, polls := 0 }
      trace := s.trace ++ List.replicate k (.readPin (!s.params.readyLevel))
        ++ phaseEvents s.params [0x6000, c] s.oracle.bytes
      sel := .driven true
      oracle := { s.oracle with levels := more, bytes := s.oracle.bytes.drop 4 } }

/-- R224: the write-data phase, any number of words in it. -/
def Obligations.WritePhaseOnTheBus : Prop :=
  ∀ (s : State) (ws : List Word16) (rest : List Item) (k : Nat) (more : List Level),
    s.seq.items = phaseWrite ws ++ rest →
    s.oracle.levels = List.replicate k (!s.params.readyLevel) ++ s.params.readyLevel :: more →
    (s.seq.bound ≠ 0 → s.seq.polls + k < s.seq.bound) →
    2 + 2 * ws.length ≤ s.oracle.bytes.length →
    ∃ n, advance n s = { s with
      seq := { s.seq with items := rest, polls := 0 }
      trace := s.trace ++ List.replicate k (.readPin (!s.params.readyLevel))
        ++ phaseEvents s.params (0x0000 :: ws) s.oracle.bytes
      sel := .driven true
      oracle := { s.oracle with
        levels := more
        bytes := s.oracle.bytes.drop (2 + 2 * ws.length) } }

/-- R225: the read-data phase: the dummy words' answers are discarded, the payload's are kept. -/
def Obligations.ReadPhaseOnTheBus : Prop :=
  ∀ (s : State) (words : Nat) (rest : List Item) (k : Nat) (more : List Level),
    s.seq.items = phaseRead s.params words ++ rest →
    s.oracle.levels = List.replicate k (!s.params.readyLevel) ++ s.params.readyLevel :: more →
    (s.seq.bound ≠ 0 → s.seq.polls + k < s.seq.bound) →
    let dummies := s.params.readDummyWords
    2 + 2 * (dummies + words) ≤ s.oracle.bytes.length →
    ∃ n, advance n s = { s with
      seq := { s.seq with
        items := rest
        polls := 0
        rx := s.seq.rx ++ (s.oracle.bytes.drop (2 + 2 * dummies)).take (2 * words) }
      trace := s.trace ++ List.replicate k (.readPin (!s.params.readyLevel))
        ++ phaseEvents s.params (0x1000 :: List.replicate (dummies + words) 0x0000) s.oracle.bytes
      sel := .driven true
      oracle := { s.oracle with
        levels := more
        bytes := s.oracle.bytes.drop (2 + 2 * (dummies + words)) } }

/-- A wire word is two Xfers in wire order whose answers are ignored (R116, R221), for every preamble
(R115) and every issued code (R120), and changes nothing else. That a row of the opcode table means this
sending alone, with the poll and the Selects left to its phase, is the model's reading (DEDUCED, log
entry 10); the pace and the answers are its choice (log entries 6 and 4). -/
def Obligations.WireWordsAreSentAsTwoBytes : Prop :=
  ∀ (i : Instr) (s : State) (w : Word16) (a b : Byte) (more : List Byte),
    wireWordOf s.params.codes i = some w → s.pace = .whole → s.oracle.bytes = a :: b :: more →
    exec i s = .next { s with
      seq := { s.seq with polls := 0 }
      trace := s.trace ++ wordEvents s.params.wireWordOrder [w] [a, b]
      oracle := { s.oracle with bytes := more } }

/-- A wire word changes the bus trace, the answers and the sequencer's position, and nothing else,
however many of its answers have come. This rests on the model's reading of the opcode table's wire rows:
the poll and the Selects are the phase's and not the word's (DEDUCED, log entry 10). -/
def Obligations.WireWordFrame : Prop :=
  ∀ (i : Instr) (s t : State), i.isCommand = false → exec i s = .next t →
    t = { s with seq := t.seq, trace := t.trace, oracle := t.oracle } ∧
    t.oracle.inits = s.oracle.inits ∧ t.oracle.levels = s.oracle.levels ∧
    t.seq.rx = s.seq.rx ∧ t.seq.bound = s.seq.bound

/-- INIT, DISCOVER, CONFIGURE, DISPLAY, REG_READ and REG_WRITE, complete or waiting, change STATUS, the
bus and the sequencer; DISCOVER also PANEL_GEOM, DeviceInfo and the frame buffer, CONFIGURE VCOM_READ,
REG_READ REG_DATA; and nothing else. -/
def Obligations.ControllerCommandFrame : Prop :=
  ∀ (i : Instr) (s t : State), i = .init ∨ polled i → exec i s = .next t →
    t = { s with
      running := t.running
      seq := t.seq
      status := t.status
      trace := t.trace
      sel := t.sel
      rst := t.rst
      oracle := t.oracle
      dev := if i = .discover then t.dev else s.dev
      fb := if i = .discover then t.fb else s.fb
      regs := { s.regs with
        panelGeom := if i = .discover then t.regs.panelGeom else s.regs.panelGeom
        vcomRead := if i = .configure then t.regs.vcomRead else s.regs.vcomRead
        regData := if i = .regRead then t.regs.regData else s.regs.regData } } ∧
    t.status.rvalid = s.status.rvalid ∧ t.status.rej = s.status.rej ∧
    (i ≠ .init → t.rst = s.rst) ∧
    (t.running.isSome = true → t.status = s.status ∧ t.dev = s.dev ∧ t.fb = s.fb ∧ t.regs = s.regs)

/-! ## Reset and the whole machine -/

/-- R340: the values after reset. -/
def Obligations.ResetValues : Prop :=
  (∀ r : HostReg, readReg r State.reset = if r = .id then 0x41440007 else 0) ∧
  State.reset.status = {
    done := false
    rvalid := false
    err := false
    rej := false
    errcode := .none
    cstate := .uninit } ∧
  State.reset.dev = {
    panelWidth := 0
    panelHeight := 0
    imageBufferAddress := 0
    firmwareVersion := Vector.replicate 8 0
    lutVersion := Vector.replicate 8 0 } ∧
  State.reset.fb = [] ∧ State.reset.sel = .undriven ∧ State.reset.rst = .undriven ∧
  State.reset.running = none ∧ State.reset.seq.items = [] ∧ State.reset.seq.polls = 0 ∧
  (∀ a, Memory.read State.reset.mem a = none) ∧
  ∀ (w : Window) (offset : Nat) (rest : List Input), w.base ≤ offset →
    offset < w.base + min (w.capacity State.reset.params) Window.span →
    step { State.reset with inputs := .access (.read offset .w8) :: rest }
      = .fault (.unwrittenByte offset)

/-- R341: the external reset sets every piece of the block's state in one step, abandons a running
command and emits no event. That the windows count as unwritten again and that the outside's fields
stay is the model's choice (notes/assumptions 12). -/
def Obligations.ExternalResetStep : Prop :=
  ∀ (s : State) (rest : List Input), s.inputs = .reset :: rest →
    step s = .next { State.reset with
      params := s.params
      trace := s.trace
      oracle := s.oracle
      inputs := rest
      pace := s.pace
      readback := s.readback
      freeCount := s.freeCount }

/-- The state after reset meets the invariant. -/
def Obligations.InvariantHoldsAtReset : Prop := State.reset.inv = true

/-- Every step keeps the invariant: canonical memory within the windows' capacities, a consistent
STATUS, a sequencer that works for the running command alone, PANEL_GEOM equal to DEV_GEOM once
discovered, FB_LEN within FB_CAP, and lines that agree with the sequencer's position. -/
def Obligations.EveryStepKeepsTheInvariant : Prop :=
  ∀ s t : State, s.inv = true → step s = .next t → t.inv = true

/-- R53, R343: a step leaves CSTATE or moves it along one transition of the state machine, or to FAILED;
only the external reset leaves FAILED, and it does. -/
def Obligations.CStateMovesOnlyForward : Prop :=
  ∀ s t : State, s.inv = true → step s = .next t →
    (resetNext s = false →
      t.status.cstate = s.status.cstate ∨
      (s.status.cstate = .uninit ∧ t.status.cstate = .reset) ∨
      (s.status.cstate = .reset ∧ t.status.cstate = .discovered) ∨
      (s.status.cstate = .discovered ∧ t.status.cstate = .ready) ∨
      (s.status.cstate ≠ .failed ∧ t.status.cstate = .failed)) ∧
    (resetNext s = true → t.status.cstate = .uninit)

/-- R60, R96, R341: a step only appends events to the trace, the lines follow the events, and the
external reset emits none. -/
def Obligations.TraceGrowsAndLinesFollow : Prop :=
  ∀ s t : State, step s = .next t →
    t.params = s.params ∧
    (resetNext s = false → ∃ es, t.trace = s.trace ++ es ∧ t.sel = selFollows s.sel es ∧
      t.rst = rstFollows s.rst es) ∧
    (resetNext s = true → t.trace = s.trace ∧ t.sel = .undriven ∧ t.rst = .undriven)

/-- R230 (a)-(c): the events a step emits keep the bus discipline: Xfer only while SEL is low, ReadPin
and Delay only while it is high, Select alternating, and Select(0) only right after a ready answer. -/
def Obligations.BusDiscipline : Prop :=
  ∀ s t : State, s.inv = true → resetNext s = false → step s = .next t →
    ∃ es, t.trace = s.trace ++ es ∧
      eventsAllowed s.params s.sel s.trace.getLast? es = true

/-- R83, R340: a sound state refuses nothing, and stops only where a byte within a window's capacity
that nothing has written is read. -/
def Obligations.OnlyUnwrittenBytesStopTheMachine : Prop :=
  ∀ s : State, s.inv = true →
    (∃ t, step s = .next t) ∨
      ∃ a, step s = .fault (.unwrittenByte a) ∧ Memory.read s.mem a = none ∧
        ∃ w : Window, w.base ≤ a ∧ a < w.base + min (w.capacity s.params) Window.span

/-- R55, R270, R290: a step other than the external reset changes DeviceInfo only as the step of a
DISCOVER, which moves RESET to DISCOVERED; and the frame buffer only as that step, which leaves
floor(PW*PH/2) zero bytes, or as the step of a DRAW that completes without error in READY and leaves the
PACKED_LEN bytes of PACKED. The command of a step is the running one, or the one whose CMD write stands
next to an idle block; a step with no command, or with another one, changes neither. -/
def Obligations.FrameBufferAndDeviceInfoAreOwned : Prop :=
  ∀ s t : State, s.inv = true → step s = .next t → resetNext s = false →
    (t.dev = s.dev ∨ (commandOf s .discover ∧ s.status.cstate = .reset ∧
      t.status.cstate = .discovered)) ∧
    (t.fb = s.fb ∨
      (commandOf s .discover ∧ s.status.cstate = .reset ∧ t.status.cstate = .discovered ∧
        t.fb = List.replicate (t.dev.panelWidth.toNat * t.dev.panelHeight.toNat / 2) 0) ∨
      (commandOf s .draw ∧ s.status.cstate = .ready ∧ t.status.cstate = .ready ∧ t.running = none ∧
        t.status.errcode = .none ∧ t.fb.length = s.regs.packedLen.toNat ∧
        ∀ k, k < t.fb.length → t.fb[k]? = Memory.read s.mem (0x04000000 + k)))

/-- A command run as far as the answers go in one step does exactly what it does item by item. Both
paces, and what an item is, are the model's choice (DESIGN CHOICE, log entries 6 and 14); that the events
come one at a time and in order is R93's and R96's. -/
def Obligations.WholeRunIsTheItemSteps : Prop :=
  ∀ (i : Instr) (s t : State), s.inv = true → s.running = some i → s.seq.items = [.begin] →
    s.inputs = [] → exec i { s with pace := .whole } = .next t →
    ∃ n, steps n { s with pace := .single } = .next { t with pace := .single }

/-- R360, R222: with TIMEOUT = 0 a poll that is never answered ready stays where it is: the command
runs on, and nothing but ReadPin events happens. -/
def Obligations.UnboundedPollStaysBusy : Prop :=
  ∀ (s : State) (rest : List Item) (n : Nat), s.seq.items = .poll :: rest → s.seq.bound = 0 →
    (∀ l ∈ s.oracle.levels, l ≠ s.params.readyLevel) →
    (advance n s).running = s.running ∧ (advance n s).seq.items = s.seq.items ∧
      (advance n s).status = s.status ∧
      (advance n s).trace = s.trace ++ List.replicate (min n s.oracle.levels.length)
        (.readPin (!s.params.readyLevel))

/-- R30-R51: what a host read of each register returns through a step, in every state: the register's
value, unless a running command writes it. -/
def Obligations.RegisterReadsShowTheState : Prop :=
  ∀ (s : State) (r : HostReg) (rest : List Input), nextAccess (.read r.offset .w32) rest s →
    ¬runningWrites s (.reg r) →
    step s = .next { s with inputs := rest, readback := shownValue s r }
end

