-- ==== Sys2Proof/Laws/State.lean ====
section
/-! SUPPORT. One lemma per field per update of the state, each true by rfl, so that no proof unfolds a
record update. -/

namespace Sys2Proof.Machine

/-! ### `emit` -/

@[simp] theorem emit_params (e : Event) (s : State) : (emit e s).params = s.params := rfl
@[simp] theorem emit_regs (e : Event) (s : State) : (emit e s).regs = s.regs := rfl
@[simp] theorem emit_status (e : Event) (s : State) : (emit e s).status = s.status := rfl
@[simp] theorem emit_running (e : Event) (s : State) : (emit e s).running = s.running := rfl
@[simp] theorem emit_seq (e : Event) (s : State) : (emit e s).seq = s.seq := rfl
@[simp] theorem emit_dev (e : Event) (s : State) : (emit e s).dev = s.dev := rfl
@[simp] theorem emit_fb (e : Event) (s : State) : (emit e s).fb = s.fb := rfl
@[simp] theorem emit_mem (e : Event) (s : State) : (emit e s).mem = s.mem := rfl
@[simp] theorem emit_sel (e : Event) (s : State) : (emit e s).sel = selAfter e s.sel := rfl
@[simp] theorem emit_rst (e : Event) (s : State) : (emit e s).rst = rstAfter e s.rst := rfl
@[simp] theorem emit_trace (e : Event) (s : State) : (emit e s).trace = s.trace ++ [e] := rfl
@[simp] theorem emit_oracle (e : Event) (s : State) : (emit e s).oracle = s.oracle := rfl
@[simp] theorem emit_inputs (e : Event) (s : State) : (emit e s).inputs = s.inputs := rfl
@[simp] theorem emit_pace (e : Event) (s : State) : (emit e s).pace = s.pace := rfl
@[simp] theorem emit_readback (e : Event) (s : State) : (emit e s).readback = s.readback := rfl
@[simp] theorem emit_freeCount (e : Event) (s : State) : (emit e s).freeCount = s.freeCount := rfl

/-! ### `setItems` -/

@[simp] theorem setItems_params (items : List Item) (s : State) :
    (setItems items s).params = s.params := rfl
@[simp] theorem setItems_regs (items : List Item) (s : State) :
    (setItems items s).regs = s.regs := rfl
@[simp] theorem setItems_status (items : List Item) (s : State) :
    (setItems items s).status = s.status := rfl
@[simp] theorem setItems_running (items : List Item) (s : State) :
    (setItems items s).running = s.running := rfl
@[simp] theorem setItems_seq (items : List Item) (s : State) :
    (setItems items s).seq = { s.seq with items := items, polls := 0 } := rfl
@[simp] theorem setItems_dev (items : List Item) (s : State) : (setItems items s).dev = s.dev := rfl
@[simp] theorem setItems_fb (items : List Item) (s : State) : (setItems items s).fb = s.fb := rfl
@[simp] theorem setItems_mem (items : List Item) (s : State) : (setItems items s).mem = s.mem := rfl
@[simp] theorem setItems_sel (items : List Item) (s : State) : (setItems items s).sel = s.sel := rfl
@[simp] theorem setItems_rst (items : List Item) (s : State) : (setItems items s).rst = s.rst := rfl
@[simp] theorem setItems_trace (items : List Item) (s : State) :
    (setItems items s).trace = s.trace := rfl
@[simp] theorem setItems_oracle (items : List Item) (s : State) :
    (setItems items s).oracle = s.oracle := rfl
@[simp] theorem setItems_inputs (items : List Item) (s : State) :
    (setItems items s).inputs = s.inputs := rfl
@[simp] theorem setItems_pace (items : List Item) (s : State) :
    (setItems items s).pace = s.pace := rfl
@[simp] theorem setItems_readback (items : List Item) (s : State) :
    (setItems items s).readback = s.readback := rfl
@[simp] theorem setItems_freeCount (items : List Item) (s : State) :
    (setItems items s).freeCount = s.freeCount := rfl

/-! ### `complete` -/

@[simp] theorem complete_params (e : ErrCode) (s : State) : (complete e s).params = s.params := rfl
@[simp] theorem complete_regs (e : ErrCode) (s : State) : (complete e s).regs = s.regs := rfl
@[simp] theorem complete_status (e : ErrCode) (s : State) :
    (complete e s).status = { s.status with done := true, err := decide (e ≠ .none), errcode := e, cstate := cstateAfter e s.status.cstate } := rfl
@[simp] theorem complete_running (e : ErrCode) (s : State) : (complete e s).running = none := rfl
@[simp] theorem complete_seq (e : ErrCode) (s : State) : (complete e s).seq = Sequencer.idle := rfl
@[simp] theorem complete_dev (e : ErrCode) (s : State) : (complete e s).dev = s.dev := rfl
@[simp] theorem complete_fb (e : ErrCode) (s : State) : (complete e s).fb = s.fb := rfl
@[simp] theorem complete_mem (e : ErrCode) (s : State) : (complete e s).mem = s.mem := rfl
@[simp] theorem complete_sel (e : ErrCode) (s : State) : (complete e s).sel = s.sel := rfl
@[simp] theorem complete_rst (e : ErrCode) (s : State) : (complete e s).rst = s.rst := rfl
@[simp] theorem complete_trace (e : ErrCode) (s : State) : (complete e s).trace = s.trace := rfl
@[simp] theorem complete_oracle (e : ErrCode) (s : State) : (complete e s).oracle = s.oracle := rfl
@[simp] theorem complete_inputs (e : ErrCode) (s : State) : (complete e s).inputs = s.inputs := rfl
@[simp] theorem complete_pace (e : ErrCode) (s : State) : (complete e s).pace = s.pace := rfl
@[simp] theorem complete_readback (e : ErrCode) (s : State) :
    (complete e s).readback = s.readback := rfl
@[simp] theorem complete_freeCount (e : ErrCode) (s : State) :
    (complete e s).freeCount = s.freeCount := rfl

/-! ### `setRej` -/

@[simp] theorem setRej_params (s : State) : (setRej s).params = s.params := rfl
@[simp] theorem setRej_regs (s : State) : (setRej s).regs = s.regs := rfl
@[simp] theorem setRej_status (s : State) : (setRej s).status = { s.status with rej := true } := rfl
@[simp] theorem setRej_running (s : State) : (setRej s).running = s.running := rfl
@[simp] theorem setRej_seq (s : State) : (setRej s).seq = s.seq := rfl
@[simp] theorem setRej_dev (s : State) : (setRej s).dev = s.dev := rfl
@[simp] theorem setRej_fb (s : State) : (setRej s).fb = s.fb := rfl
@[simp] theorem setRej_mem (s : State) : (setRej s).mem = s.mem := rfl
@[simp] theorem setRej_sel (s : State) : (setRej s).sel = s.sel := rfl
@[simp] theorem setRej_rst (s : State) : (setRej s).rst = s.rst := rfl
@[simp] theorem setRej_trace (s : State) : (setRej s).trace = s.trace := rfl
@[simp] theorem setRej_oracle (s : State) : (setRej s).oracle = s.oracle := rfl
@[simp] theorem setRej_inputs (s : State) : (setRej s).inputs = s.inputs := rfl
@[simp] theorem setRej_pace (s : State) : (setRej s).pace = s.pace := rfl
@[simp] theorem setRej_readback (s : State) : (setRej s).readback = s.readback := rfl
@[simp] theorem setRej_freeCount (s : State) : (setRej s).freeCount = s.freeCount := rfl

/-! ### `setRvalid` -/

@[simp] theorem setRvalid_params (v : Bool) (s : State) : (setRvalid v s).params = s.params := rfl
@[simp] theorem setRvalid_regs (v : Bool) (s : State) : (setRvalid v s).regs = s.regs := rfl
@[simp] theorem setRvalid_status (v : Bool) (s : State) :
    (setRvalid v s).status = { s.status with rvalid := v } := rfl
@[simp] theorem setRvalid_running (v : Bool) (s : State) :
    (setRvalid v s).running = s.running := rfl
@[simp] theorem setRvalid_seq (v : Bool) (s : State) : (setRvalid v s).seq = s.seq := rfl
@[simp] theorem setRvalid_dev (v : Bool) (s : State) : (setRvalid v s).dev = s.dev := rfl
@[simp] theorem setRvalid_fb (v : Bool) (s : State) : (setRvalid v s).fb = s.fb := rfl
@[simp] theorem setRvalid_mem (v : Bool) (s : State) : (setRvalid v s).mem = s.mem := rfl
@[simp] theorem setRvalid_sel (v : Bool) (s : State) : (setRvalid v s).sel = s.sel := rfl
@[simp] theorem setRvalid_rst (v : Bool) (s : State) : (setRvalid v s).rst = s.rst := rfl
@[simp] theorem setRvalid_trace (v : Bool) (s : State) : (setRvalid v s).trace = s.trace := rfl
@[simp] theorem setRvalid_oracle (v : Bool) (s : State) : (setRvalid v s).oracle = s.oracle := rfl
@[simp] theorem setRvalid_inputs (v : Bool) (s : State) : (setRvalid v s).inputs = s.inputs := rfl
@[simp] theorem setRvalid_pace (v : Bool) (s : State) : (setRvalid v s).pace = s.pace := rfl
@[simp] theorem setRvalid_readback (v : Bool) (s : State) :
    (setRvalid v s).readback = s.readback := rfl
@[simp] theorem setRvalid_freeCount (v : Bool) (s : State) :
    (setRvalid v s).freeCount = s.freeCount := rfl

/-! ### `accept` -/

@[simp] theorem accept_params (i : Instr) (s : State) : (accept i s).params = s.params := rfl
@[simp] theorem accept_regs (i : Instr) (s : State) : (accept i s).regs = s.regs := rfl
@[simp] theorem accept_status (i : Instr) (s : State) :
    (accept i s).status = acceptStatus s.status := rfl
@[simp] theorem accept_running (i : Instr) (s : State) : (accept i s).running = some i := rfl
@[simp] theorem accept_seq (i : Instr) (s : State) :
    (accept i s).seq = { items := [.begin], polls := 0, rx := [], bound := 0 } := rfl
@[simp] theorem accept_dev (i : Instr) (s : State) : (accept i s).dev = s.dev := rfl
@[simp] theorem accept_fb (i : Instr) (s : State) : (accept i s).fb = s.fb := rfl
@[simp] theorem accept_mem (i : Instr) (s : State) : (accept i s).mem = s.mem := rfl
@[simp] theorem accept_sel (i : Instr) (s : State) : (accept i s).sel = s.sel := rfl
@[simp] theorem accept_rst (i : Instr) (s : State) : (accept i s).rst = s.rst := rfl
@[simp] theorem accept_trace (i : Instr) (s : State) : (accept i s).trace = s.trace := rfl
@[simp] theorem accept_oracle (i : Instr) (s : State) : (accept i s).oracle = s.oracle := rfl
@[simp] theorem accept_inputs (i : Instr) (s : State) : (accept i s).inputs = s.inputs := rfl
@[simp] theorem accept_pace (i : Instr) (s : State) : (accept i s).pace = s.pace := rfl
@[simp] theorem accept_readback (i : Instr) (s : State) : (accept i s).readback = s.readback := rfl
@[simp] theorem accept_freeCount (i : Instr) (s : State) :
    (accept i s).freeCount = s.freeCount := rfl

/-! ### `externalReset` -/

@[simp] theorem externalReset_params (s : State) : (externalReset s).params = s.params := rfl
@[simp] theorem externalReset_regs (s : State) : (externalReset s).regs = Regs.reset := rfl
@[simp] theorem externalReset_status (s : State) : (externalReset s).status = Status.reset := rfl
@[simp] theorem externalReset_running (s : State) : (externalReset s).running = none := rfl
@[simp] theorem externalReset_seq (s : State) : (externalReset s).seq = Sequencer.idle := rfl
@[simp] theorem externalReset_dev (s : State) : (externalReset s).dev = DeviceInfo.reset := rfl
@[simp] theorem externalReset_fb (s : State) : (externalReset s).fb = [] := rfl
@[simp] theorem externalReset_mem (s : State) : (externalReset s).mem = [] := rfl
@[simp] theorem externalReset_sel (s : State) : (externalReset s).sel = .undriven := rfl
@[simp] theorem externalReset_rst (s : State) : (externalReset s).rst = .undriven := rfl
@[simp] theorem externalReset_trace (s : State) : (externalReset s).trace = s.trace := rfl
@[simp] theorem externalReset_oracle (s : State) : (externalReset s).oracle = s.oracle := rfl
@[simp] theorem externalReset_inputs (s : State) : (externalReset s).inputs = s.inputs := rfl
@[simp] theorem externalReset_pace (s : State) : (externalReset s).pace = s.pace := rfl
@[simp] theorem externalReset_readback (s : State) : (externalReset s).readback = s.readback := rfl
@[simp] theorem externalReset_freeCount (s : State) :
    (externalReset s).freeCount = s.freeCount := rfl

end Sys2Proof.Machine
end

