-- ==== Sys2Proof/Laws/Bus.lean ====
section
/-! SUPPORT. What one item of the sequencer does, what it leaves alone, and why running a sequence comes
to an end: at its completion, or at an event whose answer has not come. -/

namespace Sys2Proof.Machine

/-! ### One item, by what stands next -/

theorem perform_nil {s : State} (h : s.seq.items = []) : perform s = s := by
  simp [perform, h]

theorem perform_select {s : State} {l : Level} {rest : List Item}
    (h : s.seq.items = .select l :: rest) :
    perform s = setItems rest (emit (.select l) s) := by simp [perform, h]

theorem perform_poll {s : State} {rest : List Item} (h : s.seq.items = .poll :: rest) :
    perform s = doPoll rest s := by simp [perform, h]

theorem perform_op {s : State} {w : Word16} {rest : List Item} (h : s.seq.items = .op w :: rest) :
    perform s = pushWord w rest s := by simp [perform, h]

theorem perform_data {s : State} {w : Word16} {rest : List Item}
    (h : s.seq.items = .data w :: rest) : perform s = pushWord w rest s := by simp [perform, h]

theorem perform_xfer {s : State} {b : Byte} {rest : List Item}
    (h : s.seq.items = .xfer b :: rest) : perform s = doXfer b rest s := by simp [perform, h]

theorem perform_recv {s : State} {keep : Bool} {rest : List Item}
    (h : s.seq.items = .recv keep :: rest) : perform s = doRecv keep rest s := by
  simp [perform, h]

/-- A ready answer ends the poll: one ReadPin is emitted (R222). -/
theorem doPoll_ready {s : State} {rest : List Item} {more : List Level}
    (h : s.oracle.levels = s.params.readyLevel :: more) :
    doPoll rest s = setItems rest
      (emit (.readPin s.params.readyLevel)
        { s with oracle := { s.oracle with levels := more } }) := by
  simp [doPoll, h]

/-- An Xfer with its answer there (R221). -/
theorem doXfer_answered {s : State} {b a : Byte} {rest : List Item} {more : List Byte}
    (h : s.oracle.bytes = a :: more) :
    doXfer b rest s = setItems rest
      (emit (.xfer b a) { s with oracle := { s.oracle with bytes := more } }) := by
  simp [doXfer, h]

/-- One item does one of these things, and nothing else: it leaves the machine as it is; it emits at
most one event and moves the position on; or it completes the running command. The only fields an
item can change are the lines, the trace, the answers, the sequencer, and, with the command's end,
STATUS, BUSY and the command's results. -/
theorem perform_cases (s : State) :
    perform s = s ∨
    (∃ q sel rst trace oracle, perform s
      = { s with seq := q, sel := sel, rst := rst, trace := trace, oracle := oracle }) ∨
    (∃ e sel rst trace oracle, perform s = complete e
      { s with sel := sel, rst := rst, trace := trace, oracle := oracle }) ∨
    perform s = commitInit s ∨ perform s = commitDiscover s ∨ perform s = commitConfigure s ∨
    perform s = commitRegRead s := by
  unfold perform
  split
  · exact .inl rfl
  · exact .inl rfl
  · unfold doInit
    split
    · exact .inl rfl
    · split
      · exact .inr (.inl ⟨_, _, _, _, _, rfl⟩)
      · exact .inr (.inr (.inl ⟨_, _, _, _, _, rfl⟩))
  · exact .inr (.inl ⟨_, _, _, _, s.oracle, rfl⟩)
  · exact .inr (.inl ⟨_, _, _, _, s.oracle, rfl⟩)
  · exact .inr (.inl ⟨_, _, _, _, s.oracle, rfl⟩)
  · exact .inr (.inl ⟨_, _, _, _, s.oracle, rfl⟩)
  · exact .inr (.inl ⟨_, _, _, _, s.oracle, rfl⟩)
  · unfold doPoll
    split
    · exact .inl rfl
    · split
      · exact .inr (.inl ⟨_, _, _, _, _, rfl⟩)
      · split
        · exact .inr (.inr (.inl ⟨_, _, _, _, _, rfl⟩))
        · exact .inr (.inl ⟨_, _, _, _, _, rfl⟩)
  · exact .inr (.inl ⟨_, s.sel, s.rst, s.trace, s.oracle, rfl⟩)
  · exact .inr (.inl ⟨_, s.sel, s.rst, s.trace, s.oracle, rfl⟩)
  · unfold doXfer
    split
    · exact .inl rfl
    · exact .inr (.inl ⟨_, _, _, _, _, rfl⟩)
  · unfold doRecv
    split
    · exact .inl rfl
    · split
      · exact .inr (.inl ⟨_, _, _, _, _, rfl⟩)
      · exact .inr (.inl ⟨_, _, _, _, _, rfl⟩)
  · exact .inr (.inl ⟨_, s.sel, s.rst, s.trace, s.oracle, rfl⟩)
  · exact .inr (.inr (.inr (.inl rfl)))
  · exact .inr (.inr (.inr (.inr (.inl rfl))))
  · exact .inr (.inr (.inr (.inr (.inr (.inl rfl)))))
  · exact .inr (.inr (.inr (.inr (.inr (.inr rfl)))))
  · exact .inr (.inr (.inl ⟨.none, s.sel, s.rst, s.trace, s.oracle, rfl⟩))

/-! ### What an item leaves alone -/

/-- The fields no item of any sequence touches: the parameters, the windows, the inputs, the pace and
the host's side. -/
theorem perform_frame (s : State) :
    (perform s).params = s.params ∧ (perform s).mem = s.mem ∧ (perform s).inputs = s.inputs ∧
      (perform s).pace = s.pace ∧ (perform s).readback = s.readback ∧
      (perform s).freeCount = s.freeCount := by
  rcases perform_cases s with h | ⟨_, _, _, _, _, h⟩ | ⟨_, _, _, _, _, h⟩ | h | h | h | h
  · rw [h]; exact ⟨rfl, rfl, rfl, rfl, rfl, rfl⟩
  · rw [h]; exact ⟨rfl, rfl, rfl, rfl, rfl, rfl⟩
  · rw [h]; exact ⟨rfl, rfl, rfl, rfl, rfl, rfl⟩
  · rw [h]; exact ⟨rfl, rfl, rfl, rfl, rfl, rfl⟩
  · rw [h, commitDiscover]
    simp only
    split <;> exact ⟨rfl, rfl, rfl, rfl, rfl, rfl⟩
  · rw [h]; exact ⟨rfl, rfl, rfl, rfl, rfl, rfl⟩
  · rw [h]; exact ⟨rfl, rfl, rfl, rfl, rfl, rfl⟩

/-- A property that every item keeps is kept by any number of items. -/
theorem advance_keeps {P : State → Prop} (h : ∀ s, P s → P (perform s)) (n : Nat) {s : State}
    (hs : P s) : P (advance n s) := by
  induction n generalizing s with
  | zero => exact hs
  | succ n ih => exact ih (h s hs)

/-- Running a sequence leaves alone what its items leave alone. -/
theorem advance_frame (n : Nat) (s : State) :
    (advance n s).params = s.params ∧ (advance n s).mem = s.mem ∧
      (advance n s).inputs = s.inputs ∧ (advance n s).pace = s.pace ∧
      (advance n s).readback = s.readback ∧ (advance n s).freeCount = s.freeCount := by
  refine advance_keeps (P := fun t => t.params = s.params ∧ t.mem = s.mem ∧ t.inputs = s.inputs ∧
    t.pace = s.pace ∧ t.readback = s.readback ∧ t.freeCount = s.freeCount) ?_ n
    ⟨rfl, rfl, rfl, rfl, rfl, rfl⟩
  rintro t ⟨h1, h2, h3, h4, h5, h6⟩
  obtain ⟨g1, g2, g3, g4, g5, g6⟩ := perform_frame t
  exact ⟨g1.trans h1, g2.trans h2, g3.trans h3, g4.trans h4, g5.trans h5, g6.trans h6⟩

/-- Running `m + n` items is running `m` and then `n`. -/
theorem advance_add (m n : Nat) (s : State) : advance (m + n) s = advance n (advance m s) := by
  induction m generalizing s with
  | zero => simp [advance]
  | succ m ih =>
    rw [show m + 1 + n = (m + n) + 1 by omega]
    exact ih (perform s)

/-- A machine whose next item does nothing stays as it is. -/
theorem advance_fixed {s : State} (h : perform s = s) (n : Nat) : advance n s = s := by
  induction n with
  | zero => rfl
  | succ n ih => rw [advance, h, ih]

/-! ### The end of a sequence -/

theorem enough_setItems (items : List Item) (s : State) :
    enough (setItems items s) = (items.map itemCost).sum + s.oracle.levels.length := rfl

theorem enough_complete (e : ErrCode) (s : State) :
    enough (complete e s) = s.oracle.levels.length := by
  simp [enough, Sequencer.idle]

theorem cost_wordItems (order : ByteOrder) (w : Word16) :
    (((wordBytes order w).map Item.xfer).map itemCost).sum = 2 := by
  cases order <;> simp [wordBytes, itemCost]

theorem cost_vcomSet (p : Params) (v : Word16) : ((vcomSetSeq p v).map itemCost).sum = 27 := by
  simp [vcomSetSeq, writeCmdArgs, phaseCmd, phaseWrite, itemCost]

/-- Every item either leaves the machine as it is (it waits, or nothing is left) or brings the end of
the sequence closer. -/
theorem perform_measure (s : State) : perform s = s ∨ enough (perform s) < enough s := by
  have hmeasure : enough s = (s.seq.items.map itemCost).sum + s.oracle.levels.length := rfl
  unfold perform
  split
  · exact .inl rfl
  · exact .inl rfl
  · rename_i rest h
    unfold doInit
    split
    · exact .inl rfl
    · right
      rw [hmeasure, h]
      split
      · rw [enough_setItems]; simp [itemCost]
      · rw [enough_complete]; simp [itemCost]
  all_goals try
    (rename_i rest h; right; rw [hmeasure, h, enough_setItems]; simp [itemCost])
  · rename_i rest h
    unfold doPoll
    split
    · exact .inl rfl
    · rename_i l more hl
      right
      split
      · rw [enough_setItems, hmeasure, h, hl]; simp [itemCost]; omega
      · split
        · rw [enough_complete, hmeasure, h, hl]; simp [itemCost]; omega
        · simp [enough, hl]
  · rename_i w rest h
    right
    rw [hmeasure, h, pushWord, enough_setItems, List.map_append, List.sum_append, cost_wordItems]
    simp [itemCost]
  · rename_i w rest h
    right
    rw [hmeasure, h, pushWord, enough_setItems, List.map_append, List.sum_append, cost_wordItems]
    simp [itemCost]
  · rename_i b rest h
    unfold doXfer
    split
    · exact .inl rfl
    · right; rw [enough_setItems, hmeasure, h]; simp [itemCost]
  · rename_i keep rest h
    unfold doRecv
    split
    · exact .inl rfl
    · right
      rw [hmeasure, h]
      split <;> simp [enough, itemCost]
  · rename_i t rest h
    right
    rw [hmeasure, h, vcomBranch, enough_setItems, List.map_append, List.sum_append]
    split
    · simp [itemCost]
    · rw [cost_vcomSet]; simp [itemCost]
  · rename_i rest h
    right
    rw [hmeasure, h, commitInit, enough_complete]; simp [itemCost]
  · rename_i rest h
    right
    rw [hmeasure, h, commitDiscover]
    simp only
    split <;> rw [enough_complete] <;> simp [itemCost]
  · rename_i rest h
    right
    rw [hmeasure, h, commitConfigure, enough_complete]; simp [itemCost]
  · rename_i rest h
    right
    rw [hmeasure, h, commitRegRead, enough_complete]; simp [itemCost]
  · rename_i rest h
    right
    rw [hmeasure, h, enough_complete]; simp [itemCost]

/-- `enough` performs take a sequence to where its next item does nothing: it is at its end, or it
waits for an answer that has not come (R362). -/
theorem advance_enough_settles (s : State) :
    perform (advance (enough s) s) = advance (enough s) s := by
  suffices h : ∀ n s, enough s ≤ n → perform (advance n s) = advance n s from
    h _ s (Nat.le_refl _)
  intro n
  induction n with
  | zero =>
    intro s hs
    rcases perform_measure s with h | h
    · exact h
    · omega
  | succ n ih =>
    intro s hs
    rcases perform_measure s with h | h
    · rw [advance_fixed h]; exact h
    · exact ih (perform s) (by omega)

end Sys2Proof.Machine
end

