-- ==== Sys2Proof/Laws/Memory.lean ====
section
/-! SUPPORT. The laws of the window memory: a read after a write, canonical form, and what reading and
writing runs of bytes and pixels do. -/

namespace Sys2Proof.Machine

/-! ### One byte -/

@[simp] theorem read_write_same (m : Memory) (a : Nat) (b : Byte) :
    Memory.read (Memory.write m a b) a = some b := by
  induction m with
  | nil => simp [Memory.write, Memory.read]
  | cons c m ih =>
    obtain ⟨k, v⟩ := c
    simp only [Memory.write]
    split
    · simp [Memory.read]
    · split
      · simp [Memory.read]
      · rename_i _ h
        simp [Memory.read, Ne.symm h, ih]

theorem read_write_other (m : Memory) {a a' : Nat} (b : Byte) (h : a' ≠ a) :
    Memory.read (Memory.write m a b) a' = Memory.read m a' := by
  induction m with
  | nil => simp [Memory.write, Memory.read, Ne.symm h]
  | cons c m ih =>
    obtain ⟨k, v⟩ := c
    simp only [Memory.write]
    split
    · simp [Memory.read, Ne.symm h]
    · split
      · rename_i _ hk
        subst hk
        simp [Memory.read, Ne.symm h]
      · simp [Memory.read, ih]

/-- Reading one byte after writing one byte, in one equation. -/
theorem read_write (m : Memory) (a a' : Nat) (b : Byte) :
    Memory.read (Memory.write m a b) a' = if a' = a then some b else Memory.read m a' := by
  split
  · rename_i h
    subst h
    exact read_write_same m a' b
  · rename_i h
    exact read_write_other m b h

/-! ### Canonical form -/

/-- Canonical form, as strictly rising addresses. -/
theorem wf_iff_pairwise (m : Memory) :
    Memory.wf m = true ↔ m.Pairwise fun c d => c.1 < d.1 := by
  induction m with
  | nil => simp [Memory.wf]
  | cons c m ih =>
    obtain ⟨a, v⟩ := c
    cases m with
    | nil => simp [Memory.wf]
    | cons d rest =>
      obtain ⟨b, w⟩ := d
      rw [List.pairwise_cons, ← ih]
      simp only [Memory.wf, Bool.and_eq_true, decide_eq_true_eq, List.mem_cons, forall_eq_or_imp]
      constructor
      · rintro ⟨hab, hwf⟩
        have hp := List.pairwise_cons.mp (ih.mp hwf)
        exact ⟨⟨hab, fun x hx => lt_trans hab (hp.1 x hx)⟩, hwf⟩
      · rintro ⟨⟨hab, _⟩, hwf⟩
        exact ⟨hab, hwf⟩

/-- A cell of the memory after a write is the new cell or an old one. -/
theorem mem_write {m : Memory} {a : Nat} {b : Byte} {c : Host.Cell}
    (h : c ∈ Memory.write m a b) : c = (a, b) ∨ c ∈ m := by
  induction m with
  | nil => simpa [Memory.write] using h
  | cons d m ih =>
    obtain ⟨k, v⟩ := d
    simp only [Memory.write] at h
    split at h
    · simpa using h
    · split at h
      · rcases List.mem_cons.mp h with h | h
        · exact .inl h
        · exact .inr (List.mem_cons_of_mem _ h)
      · rcases List.mem_cons.mp h with h | h
        · exact .inr (h ▸ List.mem_cons_self)
        · exact (ih h).imp id (List.mem_cons_of_mem _)

/-- Writing a byte keeps the canonical form. -/
theorem write_keeps_wf {m : Memory} (a : Nat) (b : Byte) (h : Memory.wf m = true) :
    Memory.wf (Memory.write m a b) = true := by
  rw [wf_iff_pairwise] at h ⊢
  induction m with
  | nil => simp [Memory.write]
  | cons d m ih =>
    obtain ⟨k, v⟩ := d
    obtain ⟨hk, hm⟩ := List.pairwise_cons.mp h
    simp only [Memory.write]
    split
    · rename_i hlt
      refine List.pairwise_cons.mpr ⟨?_, h⟩
      intro c hc
      rcases List.mem_cons.mp hc with hc | hc
      · subst hc; exact hlt
      · exact lt_trans hlt (hk c hc)
    · split
      · rename_i _ heq
        subst heq
        exact List.pairwise_cons.mpr ⟨hk, hm⟩
      · refine List.pairwise_cons.mpr ⟨?_, ih hm⟩
        intro c hc
        rcases mem_write hc with hc | hc
        · subst hc; dsimp only; omega
        · exact hk c hc

/-- Writing a run of bytes keeps the canonical form. -/
theorem writeBytes_keeps_wf {m : Memory} (a : Nat) (bs : List Byte) (h : Memory.wf m = true) :
    Memory.wf (Memory.writeBytes m a bs) = true := by
  induction bs generalizing m a with
  | nil => exact h
  | cons b bs ih => exact ih (a + 1) (write_keeps_wf a b h)

/-- Writing pixels keeps the canonical form. -/
theorem writePixels_keeps_wf {m : Memory} (w : Window) (ps : List Pixel)
    (h : Memory.wf m = true) : Memory.wf (writePixels m w ps) = true :=
  writeBytes_keeps_wf _ _ h

/-- A cell of the memory after a run of writes is an old one or lies in the run. -/
theorem mem_writeBytes {m : Memory} {a : Nat} {bs : List Byte} {c : Host.Cell}
    (h : c ∈ Memory.writeBytes m a bs) : c ∈ m ∨ (a ≤ c.1 ∧ c.1 < a + bs.length) := by
  induction bs generalizing m a with
  | nil => exact .inl h
  | cons b bs ih =>
    rcases ih h with h | ⟨h1, h2⟩
    · rcases mem_write h with h | h
      · subst h; right; simp
      · exact .inl h
    · right; simp only [List.length_cons]; omega

/-! ### Runs of bytes -/

/-- A byte outside the run written reads as before. -/
theorem read_writeBytes_outside (m : Memory) (a : Nat) (bs : List Byte) {k : Nat}
    (h : k < a ∨ a + bs.length ≤ k) :
    Memory.read (Memory.writeBytes m a bs) k = Memory.read m k := by
  induction bs generalizing m a with
  | nil => rfl
  | cons b bs ih =>
    simp only [List.length_cons] at h
    simp only [Memory.writeBytes]
    rw [ih (Memory.write m a b) (a + 1) (by omega), read_write_other m b (by omega)]

/-- A byte of the run written reads as written. -/
theorem read_writeBytes_inside (m : Memory) (a : Nat) (bs : List Byte) {k : Nat}
    (h : k < bs.length) : Memory.read (Memory.writeBytes m a bs) (a + k) = some bs[k] := by
  induction bs generalizing m a k with
  | nil => simp at h
  | cons b bs ih =>
    simp only [Memory.writeBytes]
    cases k with
    | zero =>
      rw [read_writeBytes_outside _ _ _ (by omega)]
      simp
    | succ k =>
      have := ih (Memory.write m a b) (a + 1) (k := k) (by simpa using h)
      rw [show a + (k + 1) = a + 1 + k by omega, this]
      simp

/-- A run that reads is as long as asked for. -/
theorem readBytes_length {m : Memory} {a n : Nat} {bs : List Byte}
    (h : Memory.readBytes m a n = .ok bs) : bs.length = n := by
  induction n generalizing a bs with
  | zero => simp only [Memory.readBytes, Except.ok.injEq] at h; simp [← h]
  | succ n ih =>
    simp only [Memory.readBytes] at h
    split at h
    · cases h
    · split at h
      · cases h
      · rename_i hr
        simp only [Except.ok.injEq] at h
        simp [← h, ih hr]

/-- A run reads exactly when every byte of it has been written, and holds those bytes. -/
theorem readBytes_ok_iff {m : Memory} {a n : Nat} {bs : List Byte} :
    Memory.readBytes m a n = .ok bs ↔
      bs.length = n ∧ ∀ k (h : k < bs.length), Memory.read m (a + k) = some bs[k] := by
  induction n generalizing a bs with
  | zero =>
    simp only [Memory.readBytes, Except.ok.injEq]
    constructor
    · intro h; subst h; simp
    · rintro ⟨h, _⟩; exact (List.length_eq_zero_iff.mp h).symm
  | succ n ih =>
    simp only [Memory.readBytes]
    constructor
    · intro h
      split at h
      · cases h
      · rename_i b hb
        split at h
        · cases h
        · rename_i cs hr
          simp only [Except.ok.injEq] at h
          subst h
          obtain ⟨hl, hk⟩ := ih.mp hr
          refine ⟨by simp [hl], ?_⟩
          intro k hklt
          cases k with
          | zero => simpa using hb
          | succ k =>
            have := hk k (by simpa using hklt)
            rw [show a + (k + 1) = a + 1 + k by omega, this]
            simp
    · rintro ⟨hl, hk⟩
      cases bs with
      | nil => simp at hl
      | cons b cs =>
        have hb : Memory.read m a = some b := hk 0 (by simp)
        have hr : Memory.readBytes m (a + 1) n = .ok cs := by
          refine ih.mpr ⟨by simpa using hl, ?_⟩
          intro k hklt
          have := hk (k + 1) (by simpa using hklt)
          rw [show a + 1 + k = a + (k + 1) by omega, this]
          simp
        simp [hb, hr]

/-! ### Pixels -/

/-- A pixel reads exactly when its three bytes have been written, blue, green, red (R84). -/
theorem readPixel_ok_iff {m : Memory} {w : Window} {i : Nat} {p : Pixel} :
    readPixel m w i = .ok p ↔
      Memory.read m (w.base + 3 * i) = some p.b ∧ Memory.read m (w.base + 3 * i + 1) = some p.g ∧
        Memory.read m (w.base + 3 * i + 2) = some p.r := by
  obtain ⟨b, g, r⟩ := p
  simp only [readPixel]
  rcases Memory.read m (w.base + 3 * i) with _ | x <;>
    rcases Memory.read m (w.base + 3 * i + 1) with _ | y <;>
    rcases Memory.read m (w.base + 3 * i + 2) with _ | z <;> simp

/-- The pixels at some indices read exactly when each of them does. -/
theorem readPixels_ok_iff {m : Memory} {w : Window} {is : List Nat} {ps : List Pixel} :
    readPixels m w is = .ok ps ↔ List.Forall₂ (fun i p => readPixel m w i = .ok p) is ps := by
  induction is generalizing ps with
  | nil =>
    simp only [readPixels, Except.ok.injEq, List.forall₂_nil_left_iff]
    exact eq_comm
  | cons i is ih =>
    simp only [readPixels, List.forall₂_cons_left_iff]
    constructor
    · intro h
      split at h
      · cases h
      · rename_i p hp
        split at h
        · cases h
        · rename_i qs hq
          simp only [Except.ok.injEq] at h
          exact ⟨p, qs, hp, ih.mp hq, h.symm⟩
    · rintro ⟨p, qs, hp, hq, rfl⟩
      simp [hp, ih.mpr hq]

/-- As many pixels are read as asked for. -/
theorem readPixels_length {m : Memory} {w : Window} {is : List Nat} {ps : List Pixel}
    (h : readPixels m w is = .ok ps) : ps.length = is.length :=
  (List.Forall₂.length_eq (readPixels_ok_iff.mp h)).symm

/-- The pixels at some indices read as a whole when each of them reads. -/
theorem readPixels_total {m : Memory} {w : Window} {is : List Nat}
    (h : ∀ i ∈ is, ∃ p, readPixel m w i = .ok p) : ∃ ps, readPixels m w is = .ok ps := by
  induction is with
  | nil => exact ⟨[], rfl⟩
  | cons i is ih =>
    obtain ⟨p, hp⟩ := h i List.mem_cons_self
    obtain ⟨ps, hps⟩ := ih fun j hj => h j (List.mem_cons_of_mem _ hj)
    exact ⟨p :: ps, by simp [readPixels, hp, hps]⟩

/-- Three bytes a pixel. -/
theorem pixel_bytes_length (ps : List Pixel) : (ps.flatMap Pixel.bytes).length = 3 * ps.length := by
  induction ps with
  | nil => rfl
  | cons p ps ih => simp [Pixel.bytes, ih, Nat.mul_succ]

/-- A pixel written is the pixel read back. -/
theorem readPixel_writePixels (m : Memory) (w : Window) (ps : List Pixel) {i : Nat}
    (h : i < ps.length) : readPixel (writePixels m w ps) w i = .ok ps[i] := by
  rw [readPixel_ok_iff]
  have hbytes : ∀ j, j < 3 → ∀ hlt : 3 * i + j < (ps.flatMap Pixel.bytes).length,
      (ps.flatMap Pixel.bytes)[3 * i + j] = (Pixel.bytes ps[i]).getD j 0 := by
    clear m w
    induction ps generalizing i with
    | nil => simp at h
    | cons p ps ih =>
      intro j hj hlt
      cases i with
      | zero =>
        simp only [List.flatMap_cons, Nat.mul_zero, Nat.zero_add, List.getElem_cons_zero]
        have hl : j < (Pixel.bytes p).length := by simpa [Pixel.bytes] using hj
        rw [List.getElem_append_left hl]
        simp [hl]
      | succ i =>
        have hi : i < ps.length := by simpa using h
        have hlt' : 3 * i + j < (ps.flatMap Pixel.bytes).length := by
          rw [pixel_bytes_length]; omega
        have := ih hi j hj hlt'
        simp only [List.flatMap_cons, List.getElem_cons_succ]
        rw [← this, List.getElem_append_right (by simp [Pixel.bytes]; omega)]
        congr 1
        simp [Pixel.bytes]; omega
  have hlen := pixel_bytes_length ps
  have hread : ∀ j, j < 3 → Memory.read (writePixels m w ps) (w.base + (3 * i + j))
      = some ((Pixel.bytes ps[i]).getD j 0) := by
    intro j hj
    have hlt : 3 * i + j < (ps.flatMap Pixel.bytes).length := by omega
    unfold writePixels
    rw [read_writeBytes_inside m w.base _ hlt, hbytes j hj hlt]
  refine ⟨?_, ?_, ?_⟩
  · simpa [Pixel.bytes] using hread 0 (by omega)
  · simpa [Pixel.bytes, Nat.add_assoc] using hread 1 (by omega)
  · simpa [Pixel.bytes, Nat.add_assoc] using hread 2 (by omega)

end Sys2Proof.Machine
end

