-- ==== Sys2Proof/Laws/Meanings.lean ====
section
/-! SUPPORT. One lemma per meaning: every next state it can answer, with the checks that lead there. -/

namespace Sys2Proof.Machine

/-! ### The shared shells -/

/-- A gated meaning completes with STATE_ERROR, or is its body (R303, R306). -/
theorem gated_cases (i : Instr) (body : State → Result) (s : State) :
    (allowedIn i s.status.cstate = false ∧ gated i body s = .next (complete .stateError s)) ∨
      (allowedIn i s.status.cstate = true ∧ gated i body s = body s) := by
  unfold gated
  split
  · rename_i h; exact .inr ⟨h, rfl⟩
  · rename_i h; exact .inl ⟨by simpa using h, rfl⟩

/-- A meaning that reads windows goes on exactly when everything it reads has been written. -/
theorem orFault_next {α : Type} {r : Except Nat α} {k : α → Result} {t : State}
    (h : orFault r k = .next t) : ∃ v, r = .ok v ∧ k v = .next t := by
  cases r with
  | error a => simp [orFault] at h
  | ok v => exact ⟨v, rfl, h⟩

/-- The sequencer commands answer a next state always: they complete or wait (R362). -/
theorem runSequence_frame (i : Instr) (items : List Item) (s : State) :
    (runSequence i items s).params = s.params ∧ (runSequence i items s).mem = s.mem ∧
      (runSequence i items s).inputs = s.inputs ∧ (runSequence i items s).pace = s.pace ∧
      (runSequence i items s).readback = s.readback ∧
      (runSequence i items s).freeCount = s.freeCount := by
  unfold runSequence
  simp only
  split
  · exact ⟨rfl, rfl, rfl, rfl, rfl, rfl⟩
  · exact advance_frame _ _

/-- A wire word's meaning under `Pace.whole`, with both answers there: two Xfers, in the wire's byte
order, and nothing else but the poll counter's restart (R116, R221). -/
theorem sendWord_answered {s : State} {a b : Byte} {more : List Byte} (w : Word16)
    (hp : s.pace = .whole) (hb : s.oracle.bytes = a :: b :: more) :
    ∃ x y, wordBytes s.params.wireWordOrder w = [x, y] ∧
      sendWord w s = setItems s.seq.items (emit (.xfer y b) (emit (.xfer x a)
        { s with oracle := { s.oracle with bytes := more } })) := by
  cases ho : s.params.wireWordOrder <;>
    exact ⟨_, _, rfl, by
      simp [sendWord, pushWord, setItems, emit, hp, ho, wordBytes, advance, perform, doXfer, hb,
        selAfter, rstAfter]⟩

/-! ### COMPARE -/

/-- What COMPARE's extraction can answer (R159, R160, R161). -/
theorem extractRegion_cases {new : Window} {r : Rect} {s t : State}
    (h : extractRegion new r s = .next t) :
    ((r.w = 0 ∨ r.h = 0) ∧ t = compareNoChange s) ∨
    t = compareFails .geometryFault s ∨
    (s.params.regionCap < r.w * r.h ∧ t = compareFails .capacityFault s) ∨
    (r.w ≠ 0 ∧ r.h ≠ 0 ∧ r.x + r.w ≤ frameWidth s ∧ r.y + r.h ≤ frameHeight s ∧ r.w ≤ 0xFFFF ∧
      r.h ≤ 0xFFFF ∧ r.w * r.h ≤ s.params.regionCap ∧
      ∃ ps, readPixels s.mem new (rectIndices (frameWidth s) r) = .ok ps ∧ t = storeRegion r ps s) := by
  unfold extractRegion at h
  simp only at h
  split at h
  · rename_i h0
    cases h
    exact .inl ⟨h0, rfl⟩
  · rename_i h0
    split at h
    · cases h
      exact .inr (.inl rfl)
    · rename_i h1
      split at h
      · rename_i h2
        cases h
        exact .inr (.inr (.inl ⟨h2, rfl⟩))
      · rename_i h2
        obtain ⟨ps, hps, ht⟩ := orFault_next h
        cases ht
        simp only [not_or, not_lt] at h0 h1 h2
        exact .inr (.inr (.inr ⟨h0.1, h0.2, h1.1, h1.2.1, h1.2.2.1, h1.2.2.2, h2, ps, hps, rfl⟩))

/-- What COMPARE's body can answer (R150, R163). -/
theorem compareBody_cases {slot : Slot} {prev : Bool} {s t : State}
    (h : compareBody slot prev s = .next t) :
    (s.params.frameCap < frameWidth s * frameHeight s ∧ t = compareFails .capacityFault s) ∨
    (frameWidth s * frameHeight s ≤ s.params.frameCap ∧
      ∃ changed, changedAt s.mem (newWindow slot) (oldSource slot prev) (frameWidth s)
          (scanCoords
            (min (frameHeight s) (rowLimit (transposed (angle s)) (panelWidth s) (panelHeight s)))
            (min (frameWidth s)
              (columnLimit (transposed (angle s)) (panelWidth s) (panelHeight s)))) = .ok changed ∧
        ((boundingBox changed = none ∧ t = compareNoChange s) ∨
          ∃ b, boundingBox changed = some b ∧
            ((alignBox (transposed (angle s)) (panelWidth s)
                (rowLimit (transposed (angle s)) (panelWidth s) (panelHeight s)) b = none ∧
              t = compareFails .geometryFault s) ∨
            ∃ r, alignBox (transposed (angle s)) (panelWidth s)
                (rowLimit (transposed (angle s)) (panelWidth s) (panelHeight s)) b = some r ∧
              extractRegion (newWindow slot) r s = .next t))) := by
  unfold compareBody at h
  simp only at h
  split at h
  · rename_i h0
    cases h
    exact .inl ⟨h0, rfl⟩
  · rename_i h0
    obtain ⟨changed, hc, hk⟩ := orFault_next h
    refine .inr ⟨by omega, changed, hc, ?_⟩
    split at hk
    · rename_i hb
      cases hk
      exact .inl ⟨hb, rfl⟩
    · rename_i b hb
      refine .inr ⟨b, hb, ?_⟩
      split at hk
      · rename_i ha
        cases hk
        exact .inl ⟨ha, rfl⟩
      · rename_i r ha
        exact .inr ⟨r, ha, hk⟩

/-! ### Row-major grids -/

theorem length_grid {α : Type} (f : Nat → Nat → α) (a b : Nat) :
    ((List.range a).flatMap fun r => (List.range b).map (f r)).length = a * b := by
  simp

/-- Entry r*b + c of a row-major grid is its entry (r, c). -/
theorem getElem?_grid {α : Type} (f : Nat → Nat → α) {a b r c : Nat} (hr : r < a) (hc : c < b) :
    ((List.range a).flatMap fun r => (List.range b).map (f r))[r * b + c]? = some (f r c) := by
  induction a with
  | zero => omega
  | succ a ih =>
    rw [List.range_succ, List.flatMap_append]
    by_cases h : r < a
    · have hlt : r * b + c < a * b := by
        have := Nat.mul_le_mul_right b (Nat.succ_le_of_lt h)
        rw [Nat.succ_mul] at this
        omega
      rw [List.getElem?_append_left (by rw [length_grid]; exact hlt)]
      exact ih h
    · obtain rfl : r = a := by omega
      rw [List.getElem?_append_right (by rw [length_grid]; omega), length_grid]
      simp [hc]

theorem turnPixels_length (w h : Nat) (ps : List Pixel) : (turnPixels w h ps).length = w * h := by
  simp [turnPixels, turnedIndices]

theorem turned_index_lt {w h r c : Nat} (hr : r < w) (hc : c < h) : (h - 1 - c) * w + r < w * h := by
  have := Nat.mul_le_mul_right w (show h - 1 - c + 1 ≤ h by omega)
  rw [Nat.succ_mul, Nat.mul_comm h w] at this
  omega

/-- Output pixel (c, r) of a turn is the snapshot's pixel (r, h - 1 - c) (R194). -/
theorem turnPixels_getElem? {w h r c : Nat} {ps : List Pixel} (hlen : ps.length = w * h)
    (hr : r < w) (hc : c < h) :
    (turnPixels w h ps)[r * h + c]? = ps[(h - 1 - c) * w + r]? := by
  have hlt := turned_index_lt hr hc
  rw [turnPixels, turnedIndices, List.getElem?_map,
    getElem?_grid (fun r c => (h - 1 - c) * w + r) hr hc]
  simp [List.getD, List.getElem?_eq_getElem (show (h - 1 - c) * w + r < ps.length by omega)]

/-! ### ROTATE, PACK, DRAW, DISPLAY -/

/-- What ROTATE's body can answer (R190-R192). -/
theorem rotateBody_cases {s t : State} (h : rotateBody s = .next t) :
    (angle s ≠ 90 ∧ t = complete .none s) ∨
    (angle s = 90 ∧ s.params.regionCap < regionW s * regionH s ∧ t = complete .capacityFault s) ∨
    (angle s = 90 ∧ regionW s * regionH s ≤ s.params.regionCap ∧
      panelWidth s < regionY s + regionH s ∧ t = complete .geometryFault s) ∨
    (angle s = 90 ∧ regionW s * regionH s ≤ s.params.regionCap ∧
      regionY s + regionH s ≤ panelWidth s ∧
      ∃ ps, readPixels s.mem .regionPix (List.range (regionW s * regionH s)) = .ok ps ∧
        t = storeTurned (turnPixels (regionW s) (regionH s) ps) s) := by
  unfold rotateBody at h
  split at h
  · rename_i h0
    cases h
    exact .inl ⟨h0, rfl⟩
  · rename_i h0
    simp only [ne_eq, not_not] at h0
    split at h
    · rename_i h1
      cases h
      exact .inr (.inl ⟨h0, h1, rfl⟩)
    · rename_i h1
      split at h
      · rename_i h2
        cases h
        exact .inr (.inr (.inl ⟨h0, by omega, h2, rfl⟩))
      · rename_i h2
        obtain ⟨ps, hps, ht⟩ := orFault_next h
        cases ht
        exact .inr (.inr (.inr ⟨h0, by omega, by omega, ps, hps, rfl⟩))

/-- What PACK's body can answer (R200). -/
theorem packBody_cases {s t : State} (h : packBody s = .next t) :
    (s.params.regionCap < regionW s * regionH s ∧ t = complete .capacityFault s) ∨
    (regionW s * regionH s ≤ s.params.regionCap ∧ (regionW s * regionH s) % 4 ≠ 0 ∧
      t = complete .invariantViolation s) ∨
    (regionW s * regionH s ≤ s.params.regionCap ∧ (regionW s * regionH s) % 4 = 0 ∧
      s.params.packedCap < regionW s * regionH s / 2 ∧ t = complete .capacityFault s) ∨
    (regionW s * regionH s ≤ s.params.regionCap ∧ (regionW s * regionH s) % 4 = 0 ∧
      regionW s * regionH s / 2 ≤ s.params.packedCap ∧
      ∃ ps, readPixels s.mem .regionPix (List.range (regionW s * regionH s)) = .ok ps ∧
        t = storePacked (regionW s * regionH s) ps s) := by
  unfold packBody at h
  simp only at h
  split at h
  · rename_i h0
    cases h
    exact .inl ⟨h0, rfl⟩
  · rename_i h0
    split at h
    · rename_i h1
      cases h
      exact .inr (.inl ⟨by omega, h1, rfl⟩)
    · rename_i h1
      split at h
      · rename_i h2
        cases h
        exact .inr (.inr (.inl ⟨by omega, by omega, h2, rfl⟩))
      · rename_i h2
        obtain ⟨ps, hps, ht⟩ := orFault_next h
        cases ht
        exact .inr (.inr (.inr ⟨by omega, by omega, by omega, ps, hps, rfl⟩))

/-- What DRAW's body can answer (R270). -/
theorem drawBody_cases {s t : State} (h : drawBody s = .next t) :
    ((s.params.packedCap < s.regs.packedLen.toNat ∨ s.params.fbCap < s.regs.packedLen.toNat) ∧
      t = complete .capacityFault s) ∨
    (s.regs.packedLen.toNat ≤ s.params.packedCap ∧ s.regs.packedLen.toNat ≤ s.params.fbCap ∧
      ∃ bs, Memory.readBytes s.mem Window.packed.base s.regs.packedLen.toNat = .ok bs ∧
        t = complete .none { s with fb := bs }) := by
  unfold drawBody at h
  simp only at h
  split at h
  · rename_i h0
    cases h
    exact .inl ⟨h0, rfl⟩
  · rename_i h0
    obtain ⟨bs, hbs, ht⟩ := orFault_next h
    cases ht
    simp only [not_or, not_lt] at h0
    exact .inr ⟨h0.1, h0.2, bs, hbs, rfl⟩

/-- What DISPLAY's body can answer (R275). -/
theorem displayBody_cases (s : State) :
    (s.fb.length < 2 * displayWordCount s ∧
      displayBody s = .next (complete .invariantViolation s)) ∨
    (2 * displayWordCount s ≤ s.fb.length ∧
      displayBody s = .next (runSequence .display
        (displaySeq s.params (displayRect s)
          (frameBufferWords (s.fb.take (2 * displayWordCount s)))) s)) := by
  unfold displayBody
  simp only
  split
  · rename_i h; exact .inl ⟨h, rfl⟩
  · rename_i h; exact .inr ⟨by omega, rfl⟩

end Sys2Proof.Machine
end

