-- ==== Sys2Proof/Laws/HostPort.lean ====
section
/-! SUPPORT. What a host access, a command write and a step can do. -/

namespace Sys2Proof.Machine

/-! ### The register map -/

/-- Every register is at its offset (R31-R51). -/
theorem regAt_offset (r : HostReg) : regAt r.offset = some r := by
  cases r with
  | devFw k => fin_cases k <;> rfl
  | devLut k => fin_cases k <;> rfl
  | _ => rfl

/-- A register access that is 32 bits wide and aligned names its register (R81). -/
theorem accessTarget_reg (p : Params) (r : HostReg) :
    accessTarget p r.offset .w32 = some (.reg r) := by
  have hlt : r.offset < 0x1000 ∧ r.offset % 4 = 0 := by
    cases r with
    | devFw k => fin_cases k <;> exact ⟨by decide, by decide⟩
    | devLut k => fin_cases k <;> exact ⟨by decide, by decide⟩
    | _ => exact ⟨by decide, by decide⟩
  simp [accessTarget, hlt.1, hlt.2, regAt_offset]

/-- The window an access lies in holds every byte of it (R80, R83). -/
theorem windowAt_some {p : Params} {offset n : Nat} {w : Window}
    (h : windowAt p offset n = some w) : inWindow p offset n w = true := by
  unfold windowAt at h
  exact List.find?_some h

/-! ### Accesses -/

/-- A host write is ignored, rejected, or takes effect (R81-R83, R303, R304). -/
theorem hostWrite_cases (offset : Nat) (width : Width) (v : Word32) (s : State) :
    (accessTarget s.params offset width = none ∧ hostWrite offset width v s = .next s) ∨
    (∃ t, accessTarget s.params offset width = some t ∧ busy s = true ∧
      hostWrite offset width v s = .next (setRej s)) ∨
    (accessTarget s.params offset width = some (.reg .cmd) ∧ busy s = false ∧
      hostWrite offset width v s = commandWrite v s) ∨
    (∃ r, accessTarget s.params offset width = some (.reg r) ∧ r ≠ .cmd ∧ busy s = false ∧
      hostWrite offset width v s = .next (writeReg r v s)) ∨
    (∃ w, accessTarget s.params offset width = some (.window w) ∧ busy s = false ∧
      hostWrite offset width v s
        = .next { s with mem := Memory.writeBytes s.mem offset (valueBytes width v) }) := by
  unfold hostWrite
  cases ht : accessTarget s.params offset width with
  | none => exact .inl ⟨rfl, rfl⟩
  | some t =>
    cases hb : busy s with
    | true => exact .inr (.inl ⟨t, rfl, rfl, rfl⟩)
    | false =>
      cases t with
      | reg r =>
        by_cases hr : r = .cmd
        · subst hr
          exact .inr (.inr (.inl ⟨rfl, rfl, rfl⟩))
        · exact .inr (.inr (.inr (.inl ⟨r, rfl, hr, rfl, by simp [hr]⟩)))
      | window w => exact .inr (.inr (.inr (.inr ⟨w, rfl, rfl, rfl⟩)))

/-- A command write to an idle block is rejected in FAILED, completes at once when it does not
decode, and else begins its command or leaves it accepted (R303). -/
theorem commandWrite_cases (w : Word32) (s : State) :
    (s.status.cstate = .failed ∧ commandWrite w s = .next (setRej s)) ∨
    (s.status.cstate ≠ .failed ∧ (∃ e, decodeCmd w = .error e) ∧
      commandWrite w s = .next (acceptIllegal s)) ∨
    (∃ i, s.status.cstate ≠ .failed ∧ decodeCmd w = .ok i ∧ s.pace = .single ∧
      commandWrite w s = .next (accept i s)) ∨
    (∃ i, s.status.cstate ≠ .failed ∧ decodeCmd w = .ok i ∧ s.pace = .whole ∧
      commandWrite w s = exec i (accept i s)) := by
  unfold commandWrite
  by_cases hf : s.status.cstate = .failed
  · exact .inl ⟨hf, by simp [hf]⟩
  · right
    cases hd : decodeCmd w with
    | error e => exact .inl ⟨hf, ⟨e, rfl⟩, by simp [hf]⟩
    | ok i =>
      right
      cases hp : s.pace with
      | single => exact .inl ⟨i, hf, rfl, rfl, by simp [hf]⟩
      | whole => exact .inr ⟨i, hf, rfl, rfl, by simp [hf]⟩

/-- A host read returns a free value exactly where the running command, in a state that allows it,
writes the target; else the value of the target, and a fault at an unwritten byte. -/
theorem hostRead_cases (offset : Nat) (width : Width) (s : State) :
    (∃ i t, s.running = some i ∧ accessTarget s.params offset width = some t ∧
      allowedIn i s.status.cstate = true ∧ writesTarget (angle s) i t = true ∧
      hostRead offset width s = .next { s with
        readback := truncateTo width (Config.freeRead s.freeCount)
        freeCount := s.freeCount + 1 }) ∨
    (targetIsFree s (accessTarget s.params offset width) = false ∧
      hostRead offset width s
        = orFault (readTarget offset width (accessTarget s.params offset width) s)
            fun v => .next { s with readback := v }) := by
  unfold hostRead
  simp only
  split
  · rename_i h
    left
    revert h
    generalize accessTarget s.params offset width = tgt
    cases tgt with
    | none => simp [targetIsFree]
    | some t =>
      cases hr : s.running with
      | none => simp [targetIsFree, readIsFree, hr]
      | some i =>
        simp only [targetIsFree, readIsFree, hr, Bool.and_eq_true]
        exact fun h => ⟨i, t, rfl, rfl, h.1, h.2, trivial⟩
  · rename_i h
    exact .inr ⟨by simpa using h, rfl⟩

/-- A host read that answers changes only what the host was told (R92). -/
theorem hostRead_next {offset : Nat} {width : Width} {s t : State}
    (h : hostRead offset width s = .next t) :
    t = { s with readback := t.readback, freeCount := t.freeCount } := by
  unfold hostRead at h
  simp only at h
  split at h
  · cases h; rfl
  · obtain ⟨v, _, ht⟩ := orFault_next h
    cases ht; rfl

/-- Writing a register other than CMD changes the stored registers only (R92). -/
theorem writeReg_regs (r : HostReg) (v : Word32) (s : State) :
    writeReg r v s = { s with regs := (writeReg r v s).regs } := by
  cases r <;> simp only [writeReg]
  split <;> rfl

/-! ### Steps -/

/-- A step is the next input's, and the block's own turn where there is none. -/
theorem step_cases (s : State) :
    (s.inputs = [] ∧ step s = blockTurn s) ∨
    (∃ rest, s.inputs = .block :: rest ∧ step s = blockTurn { s with inputs := rest }) ∨
    (∃ a rest, s.inputs = .access a :: rest ∧ step s = hostAccess a { s with inputs := rest }) ∨
    (∃ rest, s.inputs = .wait :: rest ∧ step s = hostWait rest s) ∨
    (∃ rest, s.inputs = .reset :: rest ∧
      step s = .next (externalReset { s with inputs := rest })) := by
  unfold step takeInput
  cases hi : s.inputs with
  | nil => exact .inl ⟨rfl, rfl⟩
  | cons x rest =>
    right
    cases x with
    | block => exact .inl ⟨rest, rfl, rfl⟩
    | access a => exact .inr (.inl ⟨a, rest, rfl, rfl⟩)
    | wait => exact .inr (.inr (.inl ⟨rest, rfl, rfl⟩))
    | reset => exact .inr (.inr (.inr ⟨rest, rfl, rfl⟩))

/-- The block's turn: nothing when it is idle, the meaning of the command that begins or of the
fetched wire word, and one item otherwise. -/
theorem blockTurn_cases (s : State) :
    (s.seq.items = [] ∧ blockTurn s = .next s) ∨
    (∃ rest, s.seq.items = .begin :: rest ∧ blockTurn s = beginRunning rest s) ∨
    (∃ w rest, s.seq.items = .op w :: rest ∧ blockTurn s = runWireWord w rest s) ∨
    ((∀ rest, s.seq.items ≠ .begin :: rest) ∧ (∀ w rest, s.seq.items ≠ .op w :: rest) ∧
      blockTurn s = .next (perform s)) := by
  unfold blockTurn
  split <;> rename_i h
  · exact .inl ⟨h, rfl⟩
  · exact .inr (.inl ⟨_, h, rfl⟩)
  · exact .inr (.inr (.inl ⟨_, _, h, rfl⟩))
  all_goals
    refine .inr (.inr (.inr ⟨?_, ?_, rfl⟩))
    · intro rest hr; rw [hr] at h; cases h
    · intro w rest hr; rw [hr] at h; cases h

end Sys2Proof.Machine
end

