-- ==== Sys2Proof/Laws/PerInstr.lean ====
section
/-! SUPPORT. What is said of every instruction as syntax, one lemma per constructor. -/

/-- The instruction is encoded as a command word exactly when it is a host command (R110, R115). -/
def Sys2Proof.Laws.WordKind.Statement (i : Sys2Proof.Instr) : Prop :=
  ∀ c : Sys2Proof.Codes,
    (∃ w, Sys2Proof.encodeWord c i = .cmd w) ↔ i.isCommand = true

namespace Sys2Proof.Laws.WordKind

theorem compare (newSlot : Slot) (oldPresent : Bool) : Statement (.compare newSlot oldPresent) :=
  fun _ => ⟨fun _ => rfl, fun _ => ⟨_, rfl⟩⟩

theorem rotate : Statement .rotate :=
  fun _ => ⟨fun _ => rfl, fun _ => ⟨_, rfl⟩⟩

theorem pack : Statement .pack :=
  fun _ => ⟨fun _ => rfl, fun _ => ⟨_, rfl⟩⟩

theorem init : Statement .init :=
  fun _ => ⟨fun _ => rfl, fun _ => ⟨_, rfl⟩⟩

theorem discover : Statement .discover :=
  fun _ => ⟨fun _ => rfl, fun _ => ⟨_, rfl⟩⟩

theorem configure : Statement .configure :=
  fun _ => ⟨fun _ => rfl, fun _ => ⟨_, rfl⟩⟩

theorem draw : Statement .draw :=
  fun _ => ⟨fun _ => rfl, fun _ => ⟨_, rfl⟩⟩

theorem display : Statement .display :=
  fun _ => ⟨fun _ => rfl, fun _ => ⟨_, rfl⟩⟩

theorem regRead : Statement .regRead :=
  fun _ => ⟨fun _ => rfl, fun _ => ⟨_, rfl⟩⟩

theorem regWrite : Statement .regWrite :=
  fun _ => ⟨fun _ => rfl, fun _ => ⟨_, rfl⟩⟩

theorem preambleCmd : Statement .preambleCmd :=
  fun _ => ⟨fun h => (by obtain ⟨_, h⟩ := h; cases h), fun h => (by cases h)⟩

theorem preambleWrite : Statement .preambleWrite :=
  fun _ => ⟨fun h => (by obtain ⟨_, h⟩ := h; cases h), fun h => (by cases h)⟩

theorem preambleRead : Statement .preambleRead :=
  fun _ => ⟨fun h => (by obtain ⟨_, h⟩ := h; cases h), fun h => (by cases h)⟩

theorem codeRegRd : Statement .codeRegRd :=
  fun _ => ⟨fun h => (by obtain ⟨_, h⟩ := h; cases h), fun h => (by cases h)⟩

theorem codeRegWr : Statement .codeRegWr :=
  fun _ => ⟨fun h => (by obtain ⟨_, h⟩ := h; cases h), fun h => (by cases h)⟩

theorem codeLdImgArea : Statement .codeLdImgArea :=
  fun _ => ⟨fun h => (by obtain ⟨_, h⟩ := h; cases h), fun h => (by cases h)⟩

theorem codeLdImgEnd : Statement .codeLdImgEnd :=
  fun _ => ⟨fun h => (by obtain ⟨_, h⟩ := h; cases h), fun h => (by cases h)⟩

theorem codeDpyArea : Statement .codeDpyArea :=
  fun _ => ⟨fun h => (by obtain ⟨_, h⟩ := h; cases h), fun h => (by cases h)⟩

theorem codeVcom : Statement .codeVcom :=
  fun _ => ⟨fun h => (by obtain ⟨_, h⟩ := h; cases h), fun h => (by cases h)⟩

theorem codeGetDevInfo : Statement .codeGetDevInfo :=
  fun _ => ⟨fun h => (by obtain ⟨_, h⟩ := h; cases h), fun h => (by cases h)⟩

end Sys2Proof.Laws.WordKind
end

