-- ==== Sys2Proof/Tests/Slice0.lean ====
section
/-! SUPPORT. The model's own tests: well-formedness, decoding, one step of every instruction, and for
every statement with hypotheses a state that meets them. Expected results come from the spec's tables
and vectors (95_test_vectors.md), or from its rules by hand. -/

namespace Sys2Proof.Tests

open Sys2Proof Sys2Proof.Machine Sys2Proof.Spec

/-! ### Helpers -/

/-- Small capacities, and the values 95_test_vectors.md gives the OPEN parameters. -/
def small : Params :=
  { Config.params with
    blockBase := 0
    frameCap := 64
    regionCap := 64
    packedCap := 32
    fbCap := 32
    resetSettleMs := 100
    spiClockDivisor := 7
    displayMode := 2 }

/-- The lines between commands in each CSTATE. -/
def restLine : CState → Line
  | .uninit => .undriven
  | _ => .driven true

/-- An idle block in a given CSTATE. -/
def idle (c : CState) : State :=
  { State.reset with
    params := small
    status := { Status.reset with cstate := c }
    sel := restLine c
    rst := restLine c }

/-- HRDY answers ready `n` times, and the transport answers these bytes. -/
def answering (n : Nat) (bytes : List Byte) (s : State) : State :=
  { s with oracle := { inits := [], levels := List.replicate n true, bytes := bytes } }

/-- The pixels stand at the start of a window. -/
def withPixels (w : Window) (ps : List Pixel) (s : State) : State :=
  { s with mem := writePixels s.mem w ps }

/-- The registers COMPARE and ROTATE read. -/
def withGeometry (pw ph fw fh : Nat) (a : Word32) (s : State) : State :=
  { s with regs := { s.regs with
      panelGeom := pairWord ph pw
      frameGeom := pairWord fh fw
      angle := a } }

/-- The region's geometry. -/
def withRegion (x y w h : Nat) (s : State) : State :=
  { s with regs := { s.regs with regionXY := pairWord y x, regionWH := pairWord h w } }

/-- One value read from the next state. -/
def seen {α : Type} (f : State → α) (r : Result) : Option α :=
  match r with
  | .next t => some (f t)
  | .fault _ => none
  | .refused _ => none

theorem next_of_seen {p : State → Bool} {r : Result} (h : seen p r = some true) :
    ∃ t, r = .next t ∧ p t = true := by
  cases r with
  | next t => exact ⟨t, rfl, Option.some.inj h⟩
  | fault _ => cases h
  | refused _ => cases h

/-- The bytes a trace sends. -/
def sent (s : State) : List Byte :=
  s.trace.filterMap fun e =>
    match e with
    | .xfer b _ => some b
    | _ => none

/-- The geometry registers and STATUS. -/
def region (s : State) : Word32 × Word32 × Word32 := (s.regs.regionXY, s.regs.regionWH, statusWord s)

/-- The host makes one access next. -/
def accessing (a : Access) (s : State) : State := { s with inputs := [.access a] }

abbrev W : Pixel := Pixel.white
abbrev K : Pixel := Pixel.black

/-! ### Well-formedness: each check refuses an ill-formed term -/

theorem test_params_wf : small.wf = true := by decide

theorem test_frame_cap_too_large :
    (Params.capacitiesWf { small with frameCap := 5592406 }) = false := by decide

theorem test_region_cap_too_large :
    (Params.capacitiesWf { small with regionCap := 5592406, packedCap := 4194304 }) = false := by
  decide

theorem test_packed_cap_too_small :
    (Params.capacitiesWf { small with packedCap := 31 }) = false := by decide

/-- PACKED_CAP = 2 is below 5/2. -/
theorem test_packed_cap_below_half_the_region :
    (Params.capacitiesWf { small with regionCap := 5, packedCap := 2 }) = false := by decide

theorem test_packed_cap_too_large :
    (Params.capacitiesWf { small with packedCap := 16777217 }) = false := by decide

theorem test_fb_cap_too_large :
    (Params.fbCapWf { small with fbCap := 4294967296 }) = false := by decide

theorem test_too_few_device_words :
    (Params.devinfoWf { small with devinfoWords := 19 }) = false := by decide

theorem test_code_equal_to_a_preamble :
    Codes.wf { Config.codes with regRd := 0x6000 } = false := by decide

theorem test_two_equal_codes :
    Codes.wf { Config.codes with regRd := 0x0011 } = false := by decide

theorem test_wire_word_of_an_ambiguous_table :
    Instr.wf { Config.codes with vcom := 0x0000 } .codeVcom = false := by decide

/-! ### Decoding: words written out from R110, R111, R115 and R120 -/

theorem test_decode_compare : -- RSV 0, P 1, S 0, OPC 0x01
    decodeTableWord 32 0b00000000000000000000001000000001 = some (.compare .frame0 true) := by
  decide
theorem test_decode_compare_slot : -- RSV 0, P 0, S 1, OPC 0x01
    decodeTableWord 32 0b00000000000000000000000100000001 = some (.compare .frame1 false) := by
  decide
theorem test_decode_rotate : decodeTableWord 32 0x02 = some .rotate := by decide
theorem test_decode_pack : decodeTableWord 32 0x03 = some .pack := by decide
theorem test_decode_init : decodeTableWord 32 0x10 = some .init := by decide
theorem test_decode_discover : decodeTableWord 32 0x11 = some .discover := by decide
theorem test_decode_configure : decodeTableWord 32 0x12 = some .configure := by decide
theorem test_decode_draw : decodeTableWord 32 0x13 = some .draw := by decide
theorem test_decode_display : decodeTableWord 32 0x14 = some .display := by decide
theorem test_decode_reg_read : decodeTableWord 32 0x15 = some .regRead := by decide
theorem test_decode_reg_write : decodeTableWord 32 0x16 = some .regWrite := by decide
theorem test_decode_preamble_cmd :
    decodeTableWord 16 0b0110000000000000 = some .preambleCmd := by decide
theorem test_decode_preamble_write :
    decodeTableWord 16 0b0000000000000000 = some .preambleWrite := by decide
theorem test_decode_preamble_read :
    decodeTableWord 16 0b0001000000000000 = some .preambleRead := by decide
theorem test_decode_code_reg_rd : decodeTableWord 16 0x0010 = some .codeRegRd := by decide
theorem test_decode_code_reg_wr : decodeTableWord 16 0x0011 = some .codeRegWr := by decide
theorem test_decode_code_ld_img_area :
    decodeTableWord 16 0x0021 = some .codeLdImgArea := by decide
theorem test_decode_code_ld_img_end :
    decodeTableWord 16 0x0022 = some .codeLdImgEnd := by decide
theorem test_decode_code_dpy_area :
    decodeTableWord 16 0x0034 = some .codeDpyArea := by decide
theorem test_decode_code_vcom : decodeTableWord 16 0x0039 = some .codeVcom := by decide
theorem test_decode_code_get_dev_info :
    decodeTableWord 16 0x0302 = some .codeGetDevInfo := by decide

/-- R114: reserved OPC values, RSV, and S or P on another command. -/
theorem test_reserved_commands_are_rejected :
    decodeCmd 0x00 = .error .reservedOpcode ∧ decodeCmd 0x04 = .error .reservedOpcode ∧
      decodeCmd 0x0F = .error .reservedOpcode ∧ decodeCmd 0x17 = .error .reservedOpcode ∧
      decodeCmd 0xFF = .error .reservedOpcode ∧ decodeCmd 0x401 = .error .reservedBits ∧
      decodeCmd 0x80000010 = .error .reservedBits ∧ decodeCmd 0x103 = .error .operandBits ∧
      decodeCmd 0x210 = .error .operandBits := by decide

/-- R127: the table's other codes are never sent. -/
theorem test_other_wire_words_are_rejected :
    decodeTableWord 16 0x0003 = none ∧ decodeTableWord 16 0x0020 = none ∧
      decodeTableWord 16 0x0037 = none := by decide

/-! ### COMPARE (95_test_vectors.md section 2) -/

/-- FDU-6: one black pixel at (5, 2), no old frame. -/
def fdu6 : State :=
  withPixels .frame0 ((List.replicate 21 W) ++ [K] ++ (List.replicate 10 W))
    (withGeometry 8 4 8 4 0 (idle .uninit))

theorem test_compare_finds_one_pixel :
    seen region (exec (.compare .frame0 false) fdu6) = some (0x00020004, 0x00010004, 0x0006) ∧
      seen (fun t => (readPixels t.mem .regionPix [0, 1, 2, 3]).toOption)
        (exec (.compare .frame0 false) fdu6) = some (some [W, K, W, W]) := by decide

/-- FDU-7 and FDU-8: the right-edge shift, and its failure. -/
theorem test_compare_shifts_left_once :
    seen region (exec (.compare .frame0 false) (withPixels .frame0
      (List.replicate 8 W ++ [K, K, W, W]) (withGeometry 10 1 12 1 0 (idle .uninit))))
        = some (0x00000004, 0x00010004, 0x0006) ∧
    seen region (exec (.compare .frame0 false) (withPixels .frame0 (List.replicate 10 K)
      (withGeometry 10 1 10 1 0 (idle .uninit)))) = some (0, 0, 0x750A) := by decide

/-! ### ROTATE and PACK (sections 3 and 4) -/

/-- ROT-5: pixels p0 p1 / p2 p3 become p2 p0 / p3 p1. -/
def rot5 : State :=
  withPixels .regionPix [⟨0, 0, 0⟩, ⟨1, 0, 0⟩, ⟨2, 0, 0⟩, ⟨3, 0, 0⟩]
    (withRegion 4 2 2 2 (withGeometry 8 8 0 0 90 (idle .uninit)))

theorem test_rotate_turns :
    seen region (exec .rotate rot5) = some (0x00040004, 0x00020002, 0x0002) ∧
      seen (fun t => (readPixels t.mem .regionPix [0, 1, 2, 3]).toOption) (exec .rotate rot5)
        = some (some [⟨2, 0, 0⟩, ⟨0, 0, 0⟩, ⟨3, 0, 0⟩, ⟨1, 0, 0⟩]) := by decide

/-- ROT-3: y + h = 10 > 8. -/
theorem test_rotate_past_the_panel :
    seen region (exec .rotate (withRegion 0 6 4 4 (withGeometry 8 8 0 0 90 (idle .uninit))))
      = some (0x00060000, 0x00040004, 0x750A) := by decide

/-- The snapshot is taken from pixel 0 on (R190): with pixel 0 unwritten, its byte is the one named. -/
theorem test_rotate_stops_at_the_first_unwritten_byte :
    exec .rotate { rot5 with mem := rot5.mem.filter fun c => 0x03000003 ≤ c.1 ∧ c.1 < 0x03000006 }
      = .fault (.unwrittenByte 0x03000000) := rfl

/-- PACK-5: red, green, blue and a tie colour; bytes B3 51. -/
def pack5 : State :=
  withPixels .regionPix [⟨0, 0, 255⟩, ⟨0, 255, 0⟩, ⟨255, 0, 0⟩, ⟨211, 86, 13⟩]
    (withRegion 0 0 2 2 (idle .uninit))

theorem test_pack_bytes :
    seen (fun t => (t.regs.packedLen, Memory.read t.mem 0x04000000, Memory.read t.mem 0x04000001,
      statusWord t)) (exec .pack pack5) = some (2, some 0xB3, some 0x51, 0x0002) ∧
    seen (fun t => Memory.read t.mem 0x04000001)
      (exec .pack { pack5 with params := { small with lumaTie := .refF32 } })
        = some (some 0x41) := by decide

/-- PACK-3: n = 2 is not a multiple of 4. -/
theorem test_pack_length_violation :
    seen statusWord (exec .pack (withRegion 0 0 2 1 (idle .uninit))) = some 0x730A := by
  decide

/-- The table of luminances: LUMA-1, -2, -3, -9, -10 and -11. -/
theorem test_luma_vectors :
    luma .halfUp ⟨0, 0, 255⟩ = 54 ∧ luma .halfUp ⟨0, 255, 0⟩ = 182 ∧
      luma .halfUp ⟨255, 0, 0⟩ = 18 ∧ luma .refF64 ⟨200, 150, 100⟩ = 143 ∧
      luma .halfUp ⟨211, 86, 13⟩ = 80 ∧ luma .refF32 ⟨211, 86, 13⟩ = 79 ∧
      luma .refF64 ⟨211, 86, 13⟩ = 80 ∧ luma .halfUp ⟨227, 102, 29⟩ = 96 ∧
      luma .refF32 ⟨227, 102, 29⟩ = 95 ∧ luma .refF64 ⟨227, 102, 29⟩ = 95 := by decide

/-- The scaled coefficients of REF_F32 are the binary32 values nearest 0.2125, 0.7154 and 0.0721: a
significand of 24 bits, and at most half a unit in its last place away (R197). -/
theorem test_ref_f32_coefficients :
    15312239162556416 % 2 ^ 30 = 0 ∧ 15312239162556416 / 2 ^ 30 < 2 ^ 24 ∧
      2 * (15312239162556416 * 10000 - 2125 * 2 ^ 56) ≤ 10000 * 2 ^ 30 ∧
      51550001372856320 % 2 ^ 32 = 0 ∧ 51550001372856320 / 2 ^ 32 < 2 ^ 24 ∧
      2 * (7154 * 2 ^ 56 - 51550001372856320 * 10000) ≤ 10000 * 2 ^ 32 ∧
      5195352428773376 % 2 ^ 29 = 0 ∧ 5195352428773376 / 2 ^ 29 < 2 ^ 24 ∧
      2 * (721 * 2 ^ 56 - 5195352428773376 * 10000) ≤ 10000 * 2 ^ 29 := by decide

/-- The same for REF_F64, with 53 bits. -/
theorem test_ref_f64_coefficients :
    15312238733059686 % 2 = 0 ∧ 15312238733059686 / 2 < 2 ^ 53 ∧
      2 * (15312238733059686 * 10000 - 2125 * 2 ^ 56) ≤ 10000 * 2 ∧
      2 * (2125 * 2 ^ 56 - 15312238733059686 * 10000) ≤ 10000 * 2 ∧
      51550002774733648 % 8 = 0 ∧ 51550002774733648 / 8 < 2 ^ 53 ∧
      2 * (51550002774733648 * 10000 - 7154 * 2 ^ 56) ≤ 10000 * 8 ∧
      2 * (7154 * 2 ^ 56 - 51550002774733648 * 10000) ≤ 10000 * 8 ∧
      5195352530134604 < 2 ^ 53 ∧
      2 * (5195352530134604 * 10000 - 721 * 2 ^ 56) ≤ 10000 ∧
      2 * (721 * 2 ^ 56 - 5195352530134604 * 10000) ≤ 10000 := by decide

/-! ### The controller commands (sections 5 and 6) -/

/-- R251: INIT's seven events, and the single event of a failed Init. -/
theorem test_init_events :
    seen (fun t => (t.trace, statusWord t))
      (exec .init { idle .uninit with oracle := { inits := [true], levels := [], bytes := [] } })
      = some ([.init true, .config .msbFirst 0 7, .pinDir, .select true, .writePin false, .delay 100,
          .writePin true], 0x1002) ∧
    seen (fun t => (t.trace, statusWord t))
      (exec .init { idle .uninit with oracle := { inits := [false], levels := [], bytes := [] } })
      = some ([.init false], 0x710A) := by decide

/-- A DeviceInfo response: PW 8, PH 4, address 0x001236E0, then versions 1 to 8 and 11 to 18. -/
def deviceBytes : List Byte :=
  List.replicate 8 0 ++ [0, 8, 0, 4, 0x36, 0xE0, 0, 0x12]
    ++ [0, 1, 0, 2, 0, 3, 0, 4, 0, 5, 0, 6, 0, 7, 0, 8]
    ++ [0, 11, 0, 12, 0, 13, 0, 14, 0, 15, 0, 16, 0, 17, 0, 18]

theorem test_discover_reads_device_info :
    seen (fun t => (readReg .panelGeom t, readReg .devImgAddr t, readReg (.devFw 0) t,
      readReg (.devLut 3) t, readReg .fbLen t, statusWord t))
      (exec .discover (answering 2 deviceBytes (idle .reset)))
      = some (0x00040008, 0x001236E0, 0x00020001, 0x00120011, 16, 0x2002) := by decide

/-- R257: a frame buffer of 16 bytes where FB_CAP is 15. -/
theorem test_discover_not_acknowledged :
    seen (fun t => (readReg .panelGeom t, readReg .fbLen t, statusWord t))
      (exec .discover
        { answering 2 deviceBytes (idle .reset) with params := { small with fbCap := 15 } })
      = some (0, 0, 0x710A) := by decide

/-- CONFIGURE with the voltage 0x0700 read and 0x0834 wanted: nine phases, the last sending 0x0834. -/
def configuring : State :=
  let s := answering 9 (List.replicate 24 0 ++ [0x07, 0x00] ++ List.replicate 12 0) (idle .discovered)
  { s with regs := { s.regs with vcomTarget := 0x0834 } }

theorem test_configure_corrects_the_voltage :
    seen (fun t => (t.regs.vcomRead, (sent t).length, (sent t).drop 34, statusWord t))
      (exec .configure configuring)
      = some (0x0700, 38, [0x00, 0x00, 0x08, 0x34], 0x3002) := by decide +kernel

/-- R270: a full replace, length included. -/
def drawing : State :=
  let s := idle .ready
  { s with
    fb := [1, 2, 3]
    mem := Memory.writeBytes [] 0x04000000 [0x0F, 0xFF]
    regs := { s.regs with packedLen := 2 } }

theorem test_draw_replaces :
    seen (fun t => (t.fb, readReg .fbLen t, statusWord t)) (exec .draw drawing)
      = some ([0x0F, 0xFF], 2, 0x3002) := by decide

/-- A byte of PACKED that nothing has written stops the machine (93 U1). -/
theorem test_draw_of_an_unwritten_byte :
    exec .draw { drawing with regs := { drawing.regs with packedLen := 3 } }
      = .fault (.unwrittenByte 0x04000002) := rfl

/-- DISPLAY at (4, 0) on an 8 by 4 panel, with a frame buffer of two bytes; `wh` is DISP_WH. -/
def displaying (wh : Word32) : State :=
  let s := answering 14 (List.replicate 60 0) (idle .ready)
  { s with
    dev := { s.dev with panelWidth := 8, panelHeight := 4 }
    fb := [0x0F, 0xFF]
    regs := { s.regs with panelGeom := 0x00040008, dispXY := 0x00000004, dispWH := wh } }

/-- BUS-9 and R277: the stream of FB = 0F FF is the word 0xFF0F, sent FF first, after its preamble. -/
theorem test_display_streams :
    seen (fun t => ((sent t).drop 24 |>.take 8, (sent t).length, statusWord t))
      (exec .display (displaying 0x00010009))
      = some ([0x00, 0x00, 0xFF, 0x0F, 0x60, 0x00, 0x00, 0x22], 56, 0x3002) := by decide +kernel

/-- D42: two bytes are too few for 4 by 2 pixels, and no event is emitted. -/
theorem test_display_buffer_too_short :
    seen (fun t => (t.trace, statusWord t)) (exec .display (displaying 0x00020004))
      = some ([], 0x730A) := by decide

/-- BUS-6: reg_read(0x1224) receives 0xABCD. -/
theorem test_reg_read :
    seen (fun t => (sent t, t.regs.regData, statusWord t))
      (exec .regRead
        (let s := answering 3 (List.replicate 12 0 ++ [0xAB, 0xCD]) (idle .reset)
         { s with regs := { s.regs with regAddr := 0x1224 } }))
      = some ([0x60, 0x00, 0x00, 0x10, 0x00, 0x00, 0x12, 0x24, 0x10, 0x00, 0, 0, 0, 0], 0xABCD,
          0x1002) := by decide

/-- BUS-5: reg_write(0x0004, 0x0001). -/
theorem test_reg_write :
    seen (fun t => (sent t, statusWord t))
      (exec .regWrite
        (let s := answering 3 (List.replicate 12 0) (idle .reset)
         { s with regs := { s.regs with regAddr := 0x0004, regData := 0x0001 } }))
      = some ([0x60, 0x00, 0x00, 0x11, 0x00, 0x00, 0x00, 0x04, 0x00, 0x00, 0x00, 0x01], 0x1002) := by
  decide

/-- BUS-2a: TIMEOUT = 3 and three not-ready reads. -/
def timingOut : State :=
  let s := idle .reset
  { s with
    oracle := { inits := [], levels := [false, false, false], bytes := [] }
    regs := { s.regs with timeout := 3 } }

theorem test_timeout :
    seen (fun t => (t.trace, statusWord t)) (exec .regWrite timingOut)
      = some ([.readPin false, .readPin false, .readPin false], 0x120A) := by decide

/-! ### The wire words: two transfers each (R115, R116, R120) -/

/-- The bytes a wire word sends. -/
def wireBytesSent (i : Instr) : Option (List Byte) :=
  seen sent (exec i (answering 0 [0, 0] (idle .reset)))

theorem test_preamble_cmd_bytes : wireBytesSent .preambleCmd = some [0x60, 0x00] := by
  decide
theorem test_preamble_write_bytes : wireBytesSent .preambleWrite = some [0x00, 0x00] := by
  decide
theorem test_preamble_read_bytes : wireBytesSent .preambleRead = some [0x10, 0x00] := by
  decide
theorem test_code_reg_rd_bytes : wireBytesSent .codeRegRd = some [0x00, 0x10] := by decide
theorem test_code_reg_wr_bytes : wireBytesSent .codeRegWr = some [0x00, 0x11] := by decide
theorem test_code_ld_img_area_bytes : wireBytesSent .codeLdImgArea = some [0x00, 0x21] := by
  decide
theorem test_code_ld_img_end_bytes : wireBytesSent .codeLdImgEnd = some [0x00, 0x22] := by
  decide
theorem test_code_dpy_area_bytes : wireBytesSent .codeDpyArea = some [0x00, 0x34] := by
  decide
theorem test_code_vcom_bytes : wireBytesSent .codeVcom = some [0x00, 0x39] := by decide
theorem test_code_get_dev_info_bytes : wireBytesSent .codeGetDevInfo = some [0x03, 0x02] := by
  decide

/-! ### The host port -/

/-- R89: a 32-bit read at offset 0 of FRAME0 shows pixel 1's blue in its top byte. -/
theorem test_window_read_is_little_endian :
    seen (fun t => t.readback) (step (accessing (.read 0x01000000 .w32)
      (withPixels .frame0 [⟨0x11, 0x22, 0x33⟩, ⟨0x44, 0x55, 0x66⟩] (idle .uninit))))
      = some 0x44332211 := by decide

/-- R93, R191: a busy read of REGION_XY shows the register when the running ROTATE has ANGLE = 180. -/
theorem test_busy_read_under_an_identity_rotate :
    seen (fun t => (t.readback, t.freeCount)) (step (accessing (.read 0x018 .w32)
      (accept .rotate (withRegion 4 2 2 2 (withGeometry 8 8 0 0 180 (idle .uninit))))))
      = some (0x00020004, 0) := by decide

/-- R112: an undecodable word completes with ILLEGAL_COMMAND; STATUS 0x060A. -/
theorem test_illegal_command :
    seen statusWord (step (accessing (.write 0x004 .w32 0x04) (idle .uninit))) = some 0x060A := by
  decide

/-- The host's questions: the word placed by withFetchWord runs as the first instruction. -/
theorem test_placed_words_run :
    seen statusWord (step ((idle .uninit).withFetchWord 32 0x00000012)) = some 0x040A ∧
      seen sent (step ((answering 0 [0, 0] (idle .reset)).withFetchWord 16 0x0302))
        = some [0x03, 0x02] := by decide

/-! ### Witnesses: for each statement with hypotheses, states and operands that meet them -/

theorem witness_DecodeEncodeRoundTrip :
    Instr.wf Config.codes (.compare .frame1 true) = true ∧
      Instr.wf Config.codes .codeGetDevInfo = true := by decide

theorem witness_DecodedWordIsItsEncoding :
    decodeWord Config.codes (.cmd 0x00000301) = .ok (.compare .frame1 true) ∧
      decodeWord Config.codes (.wire 0x0302) = .ok .codeGetDevInfo := by decide

theorem witness_CommandWordsDecodeOrAreIllegal :
    let s := accessing (.write 0x004 .w32 0x00000401) (idle .ready)
    nextAccess (.write 0x004 .w32 0x00000401) [] s ∧ s.running = none ∧
      s.status.cstate ≠ .failed ∧ ∀ i, decodeCmd 0x00000401 ≠ .ok i := by
  refine ⟨rfl, rfl, by decide, fun i h => ?_⟩
  rw [show decodeCmd 0x00000401 = .error .reservedBits by decide] at h
  cases h

theorem witness_StepRunsTheAcceptedCommand :
    let s := accessing (.write 0x004 .w32 0x10) (idle .uninit)
    (nextAccess (.write 0x004 .w32 0x10) [] s ∧ s.running = none ∧ s.status.cstate ≠ .failed ∧
      decodeCmd 0x10 = .ok .init ∧ s.pace = .whole) ∧
    (let s1 : State := { s with pace := .single }
     nextAccess (.write 0x004 .w32 0x10) [] s1 ∧ s1.running = none ∧
      s1.status.cstate ≠ .failed ∧ s1.pace = .single) ∧
    (let s2 := accept .init (idle .uninit)
     s2.inputs = [] ∧ s2.running = some .init ∧ s2.seq.items = .begin :: [] ∧
      ({ s2 with inputs := [.block, .wait] } : State).inputs = .block :: [.wait] ∧
      ({ s2 with inputs := [.wait] } : State).inputs = .wait :: []) ∧
    ({ idle .uninit with inputs := [.wait] } : State).inputs = .wait :: [] ∧
      (idle .uninit).running = none :=
  ⟨⟨rfl, rfl, by decide, by decide, rfl⟩, ⟨rfl, rfl, by decide, rfl⟩, ⟨rfl, rfl, rfl, rfl, rfl⟩,
    rfl, rfl⟩

/-- A block in mid-phase: the command preamble is its next word. -/
def inPhase : State :=
  { answering 0 [0, 0, 0, 0] (idle .reset) with
    running := some .regWrite
    sel := .driven false
    seq := {
      items := .op 0x6000 :: .op 0x0011 :: .select true :: [.finish]
      polls := 0
      rx := []
      bound := 0 } }

theorem witness_StepRunsTheFetchedWireWord :
    inPhase.seq.items = .op 0x6000 :: .op 0x0011 :: .select true :: [.finish] ∧
      decodeWire inPhase.params.codes 0x6000 = .ok .preambleCmd ∧ inPhase.inputs = [] ∧
      ({ inPhase with inputs := [.block] } : State).inputs = .block :: [] := by
  refine ⟨rfl, by decide, rfl, rfl⟩

/-- A ROTATE with ANGLE = 90 runs. -/
def turning (a : Access) : State := accessing a (accept .rotate rot5)

/-- It writes REGION_XY and REGION_PIX. -/
theorem turning_writes (a : Access) (t : Target) (h : t = .reg .regionXY ∨ t = .window .regionPix) :
    runningWrites (turning a) t := by
  refine ⟨.rotate, rfl, .head _, ?_⟩
  rcases h with rfl | rfl <;> exact .inr ⟨rfl, show rot5.regs.angle.toInt = 90 by decide⟩

/-- It does not write ANGLE or FRAME1. -/
theorem turning_spares (a : Access) (t : Target) (h : t = .reg .angle ∨ t = .window .frame1) :
    ¬runningWrites (turning a) t := by
  rintro ⟨i, -, -, hw⟩
  rcases h with rfl | rfl <;> exact hw

/-- An idle block writes nothing. -/
theorem idle_spares {s : State} (h : s.running = none) (t : Target) : ¬runningWrites s t := by
  rintro ⟨i, hi, -⟩
  rw [h] at hi
  cases hi

/-- ID is read, and read again; a running ROTATE's own registers and windows, and others, the last
byte of each window's capacity among them. -/
theorem witness_HostReadHasNoSideEffect :
    (let s := accessing (.read 0x000 .w32) (idle .ready)
     nextAccess (.read 0x000 .w32) [] s ∧ s.running = none ∧
      ∃ t u, step s = .next t ∧
        step { t with inputs := .access (.read 0x000 .w32) :: [] } = .next u) ∧
    (let s := turning (.read 0x018 .w32)
     nextAccess (.read HostReg.regionXY.offset .w32) [] s ∧ runningWrites s (.reg .regionXY)) ∧
    (let s := turning (.read 0x00C .w32)
     nextAccess (.read HostReg.angle.offset .w32) [] s ∧ ¬runningWrites s (.reg .angle)) ∧
    (let s := turning (.read 0x030000BF .w8)
     Window.regionPix.base ≤ 0x030000BF ∧ 0x030000BF + Width.bytes .w8
         ≤ Window.regionPix.base + min (Window.regionPix.capacity s.params) Window.span ∧
       0x030000BF % Width.bytes .w8 = 0 ∧ nextAccess (.read 0x030000BF .w8) [] s ∧
       runningWrites s (.window .regionPix)) ∧
    (let s : State := { turning (.read 0x020000BF .w8) with mem := [(0x020000BF, 1)] }
     Window.frame1.base ≤ 0x020000BF ∧ 0x020000BF + Width.bytes .w8
         ≤ Window.frame1.base + min (Window.frame1.capacity s.params) Window.span ∧
       0x020000BF % Width.bytes .w8 = 0 ∧ nextAccess (.read 0x020000BF .w8) [] s ∧
       ¬runningWrites s (.window .frame1) ∧ ∃ t, step s = .next t) :=
  ⟨⟨rfl, rfl, _, _, rfl, rfl⟩, ⟨rfl, turning_writes _ _ (.inl rfl)⟩,
    ⟨rfl, turning_spares _ _ (.inl rfl)⟩,
    ⟨by decide, by decide, by decide, rfl, turning_writes _ _ (.inr rfl)⟩,
    by decide, by decide, by decide, rfl, turning_spares (.read 0x020000BF .w8) _ (.inr rfl), _, rfl⟩

theorem witness_RegisterWriteReadsBack :
    (let s := accessing (.write 0x00C .w32 0xFFFFFFA6) (idle .failed)
     storedBits .angle = some 32 ∧ nextAccess (.write HostReg.angle.offset .w32 0xFFFFFFA6) [] s ∧
       s.running = none) ∧
    (let s := accessing (.write 0x034 .w32 0xFFFF0834) (idle .uninit)
     storedBits .vcomTarget = some 16 ∧
       nextAccess (.write HostReg.vcomTarget.offset .w32 0xFFFF0834) [] s ∧ s.running = none) :=
  ⟨⟨rfl, rfl, rfl⟩, rfl, rfl, rfl⟩

theorem witness_PanelGeometryIsWritableBeforeDiscovery :
    ∀ c : CState, nextAccess (.write 0x010 .w32 0x00040008) []
        (accessing (.write 0x010 .w32 0x00040008) (idle c)) ∧
      (accessing (.write 0x010 .w32 0x00040008) (idle c)).running = none ∧
      (accessing (.write 0x010 .w32 0x00040008) (idle c)).status.cstate = c :=
  fun _ => ⟨rfl, rfl, rfl⟩

theorem witness_ReadOnlyRegistersIgnoreWrites :
    readOnly .id = true ∧ readOnly (.devLut 3) = true ∧
      nextAccess (.write (HostReg.devLut 3).offset .w32 1) []
        (accessing (.write 0x068 .w32 1) (idle .ready)) ∧
      (accessing (.write 0x068 .w32 1) (idle .ready)).running = none :=
  ⟨rfl, rfl, rfl, rfl⟩

theorem witness_IdIsHardwired :
    nextAccess (.read 0x000 .w32) [] (accessing (.read 0x000 .w32) (idle .ready)) ∧
      nextAccess (.write 0x000 .w32 1) [] (accessing (.write 0x000 .w32 1) (idle .ready)) ∧
      (accessing (.write 0x000 .w32 1) (idle .ready)).running = none :=
  ⟨rfl, rfl, rfl⟩

/-- The last word of PACKED, a byte-wide access at its last byte, and a misaligned access. -/
theorem witness_WindowAccessIsLittleEndian :
    (let s := accessing (.write 0x0400001C .w32 0x11223344) (idle .ready)
     Window.packed.base ≤ 0x0400001C ∧
       0x0400001C + Width.bytes .w32
         ≤ Window.packed.base + min (Window.packed.capacity s.params) Window.span ∧
       0x0400001C % Width.bytes .w32 = 0 ∧ s.running = none ∧
       nextAccess (.write 0x0400001C .w32 0x11223344) [] s) ∧
    (let s := accessing (.read 0x0400001F .w8)
       { idle .ready with mem := [(0x0400001F, 0xA5)] }
     0x0400001F + Width.bytes .w8
         ≤ Window.packed.base + min (Window.packed.capacity s.params) Window.span ∧
       0x0400001F % Width.bytes .w8 = 0 ∧ ¬runningWrites s (.window .packed) ∧
       nextAccess (.read 0x0400001F .w8) [] s ∧
       ∀ k, k < Width.bytes .w8 → Memory.read s.mem (0x0400001F + k) = some 0xA5) ∧
    (let s := accessing (.read 0x01000001 .w16) (idle .ready)
     0x01000001 + Width.bytes .w16
         ≤ Window.frame0.base + min (Window.frame0.capacity s.params) Window.span ∧
       0x01000001 % Width.bytes .w16 ≠ 0 ∧ nextAccess (.read 0x01000001 .w16) [] s) ∧
    nextAccess (.write 0x01000001 .w16 7) []
      (accessing (.write 0x01000001 .w16 7) (idle .ready)) := by
  refine ⟨⟨by decide, by decide, by decide, rfl, rfl⟩,
    ⟨by decide, by decide, idle_spares rfl _, rfl, fun k hk => ?_⟩,
    ⟨by decide, by decide, rfl⟩, rfl⟩
  have h0 : k = 0 := by simp only [Width.bytes] at hk; omega
  subst h0; decide

/-- One clause each: the width, the alignment next to the last register, the first reserved offset. -/
theorem witness_BadRegisterAccessIsIgnored :
    (0x000 < 0x1000 ∧ Width.w8 ≠ .w32) ∧ (0x069 < 0x1000 ∧ 0x069 % 4 ≠ 0) ∧
      (0x06C < 0x1000 ∧ 0x06C ≤ 0x06C) ∧
      nextAccess (.write 0x06C .w32 1) [] (accessing (.write 0x06C .w32 1) (idle .ready)) ∧
      nextAccess (.read 0xFFC .w32) [] (accessing (.read 0xFFC .w32) (idle .ready)) :=
  ⟨by decide, by decide, by decide, rfl, rfl⟩

/-- The first offset past the register page, and a word that ends past FRAME0's capacity. -/
theorem witness_UnmappedAccessIsIgnored :
    (∀ w : Window, 0x1000 < w.base ∨
      w.base + min (w.capacity small) Window.span < 0x1000 + Width.bytes .w32) ∧
    (∀ w : Window, 0x010000BE < w.base ∨
      w.base + min (w.capacity small) Window.span < 0x010000BE + Width.bytes .w32) ∧
    nextAccess (.write 0x1000 .w32 1) [] (accessing (.write 0x1000 .w32 1) (idle .ready)) ∧
    nextAccess (.read 0x010000BE .w32) [] (accessing (.read 0x010000BE .w32) (idle .ready)) := by
  refine ⟨fun w => ?_, fun w => ?_, rfl, rfl⟩ <;> cases w <;> decide

theorem witness_BusyBlockRejectsWrites :
    inPhase.running = some .regWrite ∧
      nextAccess (.write HostReg.cmd.offset .w32 2) [] (accessing (.write 0x004 .w32 2) inPhase) ∧
      nextAccess (.write 0x0400001F .w8 2) [] (accessing (.write 0x0400001F .w8 2) inPhase) ∧
      0x0400001F + Width.bytes .w8
        ≤ Window.packed.base + min (Window.packed.capacity inPhase.params) Window.span ∧
      nextAccess (.read 0x008 .w32) [] (accessing (.read 0x008 .w32) inPhase) :=
  ⟨rfl, rfl, rfl, by decide, rfl⟩

theorem witness_FailedBlockRejectsCommands :
    let s := accessing (.write 0x004 .w32 0x10) (idle .failed)
    nextAccess (.write 0x004 .w32 0x10) [] s ∧ s.running = none ∧ s.status.cstate = .failed :=
  ⟨rfl, rfl, rfl⟩

/-! #### COMPARE: a frame of one row, white but for one black pixel at column 1 of FRAME1 -/

/-- FRAME0 is four white pixels and FRAME1 is W K W W. -/
def rowMem : Memory := writePixels (writePixels [] .frame0 [W, W, W, W]) .frame1 [W, K, W, W]

/-- A state that compares these frames. -/
def row (pw ph fw : Nat) (a : Word32) (cap : Nat) : State :=
  withGeometry pw ph fw 1 a
    { idle .uninit with mem := rowMem, params := { small with regionCap := cap } }

/-- What `scanned` says of such a state. -/
theorem row_scanned {s : State} (hw : lo16 s.regs.frameGeom ≤ 4) (hh : hi16 s.regs.frameGeom = 1)
    {x y : Nat} (h : scanned s x y) : x < 4 ∧ y = 0 := by
  obtain ⟨hx, hy, -⟩ := h
  omega

theorem row_readable {s : State} (hm : s.mem = rowMem) (hw : lo16 s.regs.frameGeom ≤ 4)
    (hh : hi16 s.regs.frameGeom = 1) : scanReadable .frame1 true s := by
  intro x y h
  obtain ⟨hx, rfl⟩ := row_scanned hw hh h
  rw [hm, Nat.zero_mul, Nat.zero_add]
  interval_cases x <;> exact ⟨⟨_, rfl⟩, fun _ => ⟨_, rfl⟩⟩

theorem row_changed {s : State} (hm : s.mem = rowMem) (hw : lo16 s.regs.frameGeom ≤ 4)
    (hh : hi16 s.regs.frameGeom = 1) {x y : Nat} (h : changed .frame1 true s x y) :
    x = 1 ∧ y = 0 := by
  obtain ⟨hs, p, q, hp, hq, -, hne⟩ := h
  obtain ⟨hx, rfl⟩ := row_scanned hw hh hs
  have hq := hq rfl
  rw [hm, Nat.zero_mul, Nat.zero_add] at hp hq
  refine ⟨?_, rfl⟩
  have same : ∀ r : Except Nat Pixel, r = .ok p → r = .ok q → False := fun r h1 h2 =>
    hne (Except.ok.inj (h1.symm.trans h2))
  interval_cases x
  · exact absurd hq fun hq => same (.ok W) (hp ▸ rfl) (hq ▸ rfl)
  · rfl
  · exact absurd hq fun hq => same (.ok W) (hp ▸ rfl) (hq ▸ rfl)
  · exact absurd hq fun hq => same (.ok W) (hp ▸ rfl) (hq ▸ rfl)

/-- The tight box of the one changed pixel. -/
theorem row_tight {s : State} (hm : s.mem = rowMem) (hw : lo16 s.regs.frameGeom ≤ 4)
    (hh : hi16 s.regs.frameGeom = 1) (hs : scanned s 1 0) : tightBox .frame1 true s 1 1 0 0 := by
  have h1 : changed .frame1 true s 1 0 := by
    refine ⟨hs, K, W, ?_, fun _ => ?_, fun h => ?_, by decide⟩
    · rw [hm, Nat.zero_mul, Nat.zero_add]; rfl
    · rw [hm, Nat.zero_mul, Nat.zero_add]; rfl
    · cases h
  refine ⟨fun x y h => ?_, ⟨0, h1⟩, ⟨0, h1⟩, ⟨1, h1⟩, ⟨1, h1⟩⟩
  obtain ⟨rfl, rfl⟩ := row_changed hm hw hh h
  omega

theorem row_scanned_one {s : State} (h1 : 1 < lo16 s.regs.frameGeom)
    (h2 : 0 < hi16 s.regs.frameGeom) (h3 : 1 < lo16 s.regs.panelGeom)
    (h4 : 1 < hi16 s.regs.panelGeom) : scanned s 1 0 :=
  ⟨h1, h2, fun _ => ⟨h4, by omega⟩, fun _ => ⟨h3, by omega⟩⟩

/-- The region (0, 0, 4, 1). -/
theorem witness_CompareFindsTheChangedRegion :
    let s := row 4 4 4 0 64
    s.status.cstate ≠ .failed ∧
      lo16 s.regs.frameGeom * hi16 s.regs.frameGeom ≤ s.params.frameCap ∧
      scanReadable .frame1 true s ∧ tightBox .frame1 true s 1 1 0 0 ∧ placed s 1 1 0 0 0 0 4 1 ∧
      0 + 4 ≤ lo16 s.regs.frameGeom ∧ 0 + 1 ≤ hi16 s.regs.frameGeom ∧
      4 * 1 ≤ s.params.regionCap ∧
      ∀ r c, r < 1 → c < 4 → ∃ p, readPixel s.mem (newFrame .frame1)
        ((0 + r) * lo16 s.regs.frameGeom + (0 + c)) = .ok p := by
  refine ⟨by decide, by decide, row_readable rfl (by decide) (by decide),
    row_tight rfl (by decide) (by decide)
      (row_scanned_one (by decide) (by decide) (by decide) (by decide)),
    ⟨by unfold fitted; decide, fun h => absurd h (by unfold quarterTurn; decide),
      fun _ => by decide⟩, by decide, by decide, by decide, fun r c hr hc => ?_⟩
  have h0 : r = 0 := by omega
  subst h0
  interval_cases c <;> exact ⟨_, rfl⟩

/-- FRAME0 is all white, and there is no old frame. -/
theorem witness_CompareReportsNoChange :
    let s := row 4 4 4 0 64
    s.status.cstate ≠ .failed ∧
      lo16 s.regs.frameGeom * hi16 s.regs.frameGeom ≤ s.params.frameCap ∧
      scanReadable .frame0 false s ∧ ∀ x y, ¬changed .frame0 false s x y := by
  refine ⟨by decide, by decide, fun x y h => ?_, fun x y h => ?_⟩
  · obtain ⟨hx, rfl⟩ := row_scanned (by decide) (by decide) h
    rw [Nat.zero_mul, Nat.zero_add]
    refine ⟨?_, fun h => by cases h⟩
    interval_cases x <;> exact ⟨_, rfl⟩
  · obtain ⟨hs, p, q, hp, -, hq, hne⟩ := h
    obtain ⟨hx, rfl⟩ := row_scanned (by decide) (by decide) hs
    rw [Nat.zero_mul, Nat.zero_add] at hp
    apply hne
    rw [hq rfl]
    have hwhite : (Except.ok W : Except Nat Pixel) = .ok p := by
      rw [← hp]; interval_cases x <;> rfl
    exact (Except.ok.inj hwhite).symm

theorem witness_CompareRejectsAnOversizedFrame :
    let s := withGeometry 8 8 65 1 0 (idle .uninit)
    s.status.cstate ≠ .failed ∧
      s.params.frameCap < lo16 s.regs.frameGeom * hi16 s.regs.frameGeom := by decide

/-- One state for each error: no room for the horizontal shift, none for the vertical one, past the
frame, and past REGION_CAP. -/
theorem witness_CompareRaisesRangeErrors :
    (let s := row 2 4 4 0 64
     s.status.cstate ≠ .failed ∧
       lo16 s.regs.frameGeom * hi16 s.regs.frameGeom ≤ s.params.frameCap ∧
       scanReadable .frame1 true s ∧ tightBox .frame1 true s 1 1 0 0 ∧
       unfittable 1 1 (lo16 s.regs.panelGeom)) ∧
    (let s := row 3 4 4 270 64
     scanReadable .frame1 true s ∧ tightBox .frame1 true s 1 1 0 0 ∧ quarterTurn s ∧
       unfittable 0 0 (lo16 s.regs.panelGeom)) ∧
    (let s := row 4 4 3 0 64
     scanReadable .frame1 true s ∧ tightBox .frame1 true s 1 1 0 0 ∧
       placed s 1 1 0 0 0 0 4 1 ∧ lo16 s.regs.frameGeom < 0 + 4) ∧
    (let s := row 4 4 4 0 3
     scanReadable .frame1 true s ∧ tightBox .frame1 true s 1 1 0 0 ∧
       placed s 1 1 0 0 0 0 4 1 ∧ 0 + 4 ≤ lo16 s.regs.frameGeom ∧
       0 + 1 ≤ hi16 s.regs.frameGeom ∧ s.params.regionCap < 4 * 1) := by
  refine ⟨⟨by decide, by decide, row_readable rfl (by decide) (by decide),
      row_tight rfl (by decide) (by decide)
        (row_scanned_one (by decide) (by decide) (by decide) (by decide)),
      by unfold unfittable; decide⟩,
    ⟨row_readable rfl (by decide) (by decide),
      row_tight rfl (by decide) (by decide)
        (row_scanned_one (by decide) (by decide) (by decide) (by decide)),
      by unfold quarterTurn; decide, by unfold unfittable; decide⟩,
    ⟨row_readable rfl (by decide) (by decide),
      row_tight rfl (by decide) (by decide)
        (row_scanned_one (by decide) (by decide) (by decide) (by decide)),
      ⟨by unfold fitted; decide, fun h => absurd h (by unfold quarterTurn; decide),
        fun _ => by decide⟩, by decide⟩,
    ⟨row_readable rfl (by decide) (by decide),
      row_tight rfl (by decide) (by decide)
        (row_scanned_one (by decide) (by decide) (by decide) (by decide)),
      ⟨by unfold fitted; decide, fun h => absurd h (by unfold quarterTurn; decide),
        fun _ => by decide⟩, by decide, by decide, by decide⟩⟩

/-- With and without a quarter-turn pending. -/
theorem witness_ComparedRegionIsAligned :
    (∃ t, exec (.compare .frame1 true) (row 4 4 4 0 64) = .next t ∧ t.status.rvalid = true) ∧
      (let s := withPixels .frame0 (W :: K :: List.replicate 14 W)
         (withGeometry 4 4 4 4 270 (idle .uninit))
       s.status.cstate ≠ .failed ∧ quarterTurn s ∧
         ∃ t, exec (.compare .frame0 false) s = .next t ∧ t.status.rvalid = true) :=
  ⟨⟨_, rfl, by decide⟩, by decide, by unfold quarterTurn; decide, _, rfl, by decide⟩

theorem witness_CompareFrame :
    (∃ t, exec (.compare .frame1 true) (row 4 4 4 0 64) = .next t) ∧
      ∃ t, exec (.compare .frame1 true) (row 2 4 4 0 64) = .next t ∧ t.status.errcode ≠ .none :=
  ⟨⟨_, rfl⟩, _, rfl, by decide⟩

/-! #### ROTATE, PACK and DRAW -/

theorem witness_RotateIsTheIdentityUnlessNinety :
    (withGeometry 8 8 0 0 0xFFFFFFA6 (idle .uninit)).status.cstate ≠ .failed ∧
      (withGeometry 8 8 0 0 0xFFFFFFA6 (idle .uninit)).regs.angle.toInt ≠ 90 := by decide

theorem witness_RotateTurnsTheRegion :
    rot5.status.cstate ≠ .failed ∧ rot5.regs.angle.toInt = 90 ∧
      lo16 rot5.regs.regionWH * hi16 rot5.regs.regionWH ≤ rot5.params.regionCap ∧
      hi16 rot5.regs.regionXY + hi16 rot5.regs.regionWH ≤ lo16 rot5.regs.panelGeom ∧
      ∀ i, i < lo16 rot5.regs.regionWH * hi16 rot5.regs.regionWH →
        ∃ p, readPixel rot5.mem .regionPix i = .ok p := by
  refine ⟨by decide, by decide, by decide, by decide, fun i hi => ?_⟩
  replace hi : i < 4 := hi
  interval_cases i <;> exact ⟨_, rfl⟩

theorem witness_PackPacksTwoSamplesAByte :
    pack5.status.cstate ≠ .failed ∧
      lo16 pack5.regs.regionWH * hi16 pack5.regs.regionWH ≤ pack5.params.regionCap ∧
      lo16 pack5.regs.regionWH * hi16 pack5.regs.regionWH % 4 = 0 ∧
      lo16 pack5.regs.regionWH * hi16 pack5.regs.regionWH / 2 ≤ pack5.params.packedCap ∧
      ∀ i, i < lo16 pack5.regs.regionWH * hi16 pack5.regs.regionWH →
        ∃ p, readPixel pack5.mem .regionPix i = .ok p := by
  refine ⟨by decide, by decide, by decide, by decide, fun i hi => ?_⟩
  replace hi : i < 4 := hi
  interval_cases i <;> exact ⟨_, rfl⟩

/-- The five checks, each at the boundary of the one before it. -/
theorem witness_RegionChecksComeBeforeWrites :
    (let s := withRegion 0 0 65 1 (withGeometry 8 8 0 0 90 (idle .uninit))
     s.status.cstate ≠ .failed ∧ s.regs.angle.toInt = 90 ∧
       s.params.regionCap < lo16 s.regs.regionWH * hi16 s.regs.regionWH) ∧
    (let s := withRegion 0 7 32 2 (withGeometry 8 8 0 0 90 (idle .uninit))
     s.regs.angle.toInt = 90 ∧ lo16 s.regs.regionWH * hi16 s.regs.regionWH ≤ s.params.regionCap ∧
       lo16 s.regs.panelGeom < hi16 s.regs.regionXY + hi16 s.regs.regionWH) ∧
    (let s := withRegion 0 0 31 2 (idle .uninit)
     lo16 s.regs.regionWH * hi16 s.regs.regionWH ≤ s.params.regionCap ∧
       lo16 s.regs.regionWH * hi16 s.regs.regionWH % 4 ≠ 0) ∧
    (let s := withRegion 0 0 32 2
       { idle .uninit with params := { small with packedCap := 31 } }
     lo16 s.regs.regionWH * hi16 s.regs.regionWH ≤ s.params.regionCap ∧
       lo16 s.regs.regionWH * hi16 s.regs.regionWH % 4 = 0 ∧
       s.params.packedCap < lo16 s.regs.regionWH * hi16 s.regs.regionWH / 2) := by decide

theorem witness_RegionCommandsChangeOnlyTheirResults :
    (∃ t, exec .rotate rot5 = .next t) ∧ (∃ t, exec .pack pack5 = .next t) ∧
      (∃ t, exec .draw drawing = .next t) ∧
      ∃ t, exec .pack (withRegion 0 0 2 1 (idle .uninit)) = .next t ∧ t.status.errcode ≠ .none :=
  ⟨⟨_, rfl⟩, ⟨_, rfl⟩, ⟨_, rfl⟩, _, rfl, by decide⟩

theorem witness_LuminanceLaw :
    (2125 * 13 + 7154 * 86 + 721 * 211) % 10000 = 5000 ∧
      (2125 * 100 + 7154 * 150 + 721 * 200) % 10000 ≠ 5000 := by decide

/-! #### The controller commands -/

theorem witness_InitBringsTheTransportUp :
    (let s : State := { idle .uninit with oracle := { inits := [true], levels := [], bytes := [] } }
     s.pace = .whole ∧ s.status.cstate = .uninit ∧ s.oracle.inits = true :: []) ∧
    (let s : State := { idle .uninit with oracle := { inits := [false], levels := [], bytes := [] } }
     s.pace = .whole ∧ s.status.cstate = .uninit ∧ s.oracle.inits = false :: []) :=
  ⟨⟨rfl, rfl, rfl⟩, rfl, rfl, rfl⟩

/-- FB_CAP exactly met, missed by one, and a zero width. -/
theorem witness_DiscoverReadsDeviceInfo :
    (let s : State := { answering 2 deviceBytes (idle .reset) with params := { small with fbCap := 16 } }
     s.pace = .whole ∧ s.status.cstate = .reset ∧ 20 ≤ s.params.devinfoWords ∧
       answersReady (discoverPhases s.params) s ∧
       devWord s 0 ≠ 0 ∧ devWord s 1 ≠ 0 ∧
       (devWord s 0).toNat * (devWord s 1).toNat / 2 ≤ s.params.fbCap) ∧
    (let s : State := { answering 2 deviceBytes (idle .reset) with params := { small with fbCap := 15 } }
     answersReady (discoverPhases s.params) s ∧
       s.params.fbCap < (devWord s 0).toNat * (devWord s 1).toNat / 2) ∧
    (let s := answering 2 (List.replicate 48 0) (idle .reset)
     answersReady (discoverPhases s.params) s ∧ devWord s 0 = 0) := by
  unfold answersReady; decide

theorem witness_ConfigureEnforcesTheVoltage :
    (configuring.pace = .whole ∧ configuring.status.cstate = .discovered ∧
      vcomRead configuring ≠ configuring.regs.vcomTarget ∧
      answersReady (configurePhases configuring.params
        ++ vcomSetPhases configuring.params configuring.regs.vcomTarget) configuring) ∧
    (let s : State := { configuring with regs := { configuring.regs with vcomTarget := 0x0700 } }
     vcomRead s = s.regs.vcomTarget ∧ answersReady (configurePhases s.params) s) := by
  unfold answersReady; decide

theorem witness_DrawReplacesTheFrameBuffer :
    (drawing.status.cstate = .ready ∧ drawing.regs.packedLen.toNat ≤ drawing.params.packedCap ∧
      drawing.regs.packedLen.toNat ≤ drawing.params.fbCap ∧
      ∀ k, k < drawing.regs.packedLen.toNat →
        ∃ b, Memory.read drawing.mem (0x04000000 + k) = some b) ∧
    (let s : State := { drawing with regs := { drawing.regs with packedLen := 33 } }
     s.params.packedCap < s.regs.packedLen.toNat) := by
  refine ⟨⟨by decide, by decide, by decide, fun k hk => ?_⟩, by decide⟩
  replace hk : k < 2 := hk
  interval_cases k <;> exact ⟨_, rfl⟩

theorem witness_DisplayStreamsTheFrameBuffer :
    (let s := displaying 0x00010009
     s.status.cstate = .ready ∧ s.pace = .whole ∧ 2 * displayN s ≤ s.fb.length ∧
       answersReady (displayPhases s) s ∧ displayN s = 1) ∧
    (let s := displaying 0x00020004
     s.status.cstate = .ready ∧ s.fb.length < 2 * displayN s) := by
  refine ⟨⟨rfl, rfl, by decide, ⟨by decide, by decide⟩, by decide⟩, rfl, by decide⟩

theorem witness_RegReadStoresTheReceivedWord :
    let s := answering 3 (List.replicate 14 0) (idle .ready)
    s.pace = .whole ∧ s.status.cstate = .ready ∧
      answersReady [cmdWords s.params.codes.regRd, writeWords [s.regs.regAddr],
        readWords s.params 1] s := by
  refine ⟨rfl, rfl, by decide, by decide⟩

theorem witness_RegWriteSendsAddressAndValue :
    let s := answering 3 (List.replicate 12 0) (idle .discovered)
    s.pace = .whole ∧ s.status.cstate = .discovered ∧
      answersReady [cmdWords s.params.codes.regWr, writeWords [s.regs.regAddr],
        writeWords [s.regs.regData]] s := by
  unfold answersReady; decide

theorem witness_CommandsAreGatedByTheirStates :
    Instr.init.isCommand = true ∧ (idle .reset).status.cstate ∉ allowedStates .init ∧
      (idle .uninit).status.cstate ∈ allowedStates .init ∧
      (idle .uninit).status.errcode = .none ∧ ∃ t, exec .init (idle .uninit) = .next t :=
  ⟨rfl, by decide, by decide, rfl, _, rfl⟩

/-- The first poll, and one in mid-command with one of three reads made. -/
theorem witness_FirstPollTimesOut :
    (polled .discover ∧ timingOut.pace = .whole ∧
      timingOut.status.cstate ∈ allowedStates .discover ∧ 0 < timingOut.regs.timeout.toNat ∧
      timingOut.oracle.levels.take timingOut.regs.timeout.toNat
        = List.replicate timingOut.regs.timeout.toNat (!timingOut.params.readyLevel)) ∧
    (let s : State := { timingOut with
       running := some .regWrite
       seq := { items := .poll :: [.finish], polls := 1, rx := [], bound := 3 } }
     s.inputs = [] ∧ s.seq.items = .poll :: [.finish] ∧ s.seq.polls < s.seq.bound ∧
       s.oracle.levels.take (s.seq.bound - s.seq.polls)
         = List.replicate (s.seq.bound - s.seq.polls) (!s.params.readyLevel)) := by
  refine ⟨⟨.inl rfl, ?_⟩, ?_⟩ <;> decide

theorem witness_ErrorsChangeNothingButStatus :
    (∃ t, exec .regWrite timingOut = .next t ∧
      decide (t.running = none ∧ t.status.err = true ∧ t.status.errcode = .protocolTimeout)) ∧
      ∃ t, exec (.compare .frame1 true) (row 2 4 4 0 64) = .next t ∧ t.running = none ∧
        t.status.err = true :=
  ⟨next_of_seen (by decide), _, rfl, rfl, rfl⟩

theorem witness_EachCommandReportsItsErrors :
    ∃ t, exec .discover (idle .ready) = .next t ∧ t.running = none ∧
      t.status.errcode = .stateError :=
  ⟨_, rfl, rfl, rfl⟩

/-- TIMEOUT = 1, the least levels and bytes the statement asks for, one of the levels not ready. -/
theorem witness_BoundedPollsComplete :
    let s0 := answering 14 (List.replicate 58 0) (displaying 0x00010009)
    let s : State := { s0 with regs := { s0.regs with timeout := 1 } }
    polled .display ∧ s.pace = .whole ∧ 0 < s.regs.timeout.toNat ∧
      14 * s.regs.timeout.toNat ≤ s.oracle.levels.length ∧
      54 + 2 * displayN s + 2 * s.params.readDummyWords ≤ s.oracle.bytes.length ∧
      6 + 2 * (s.params.readDummyWords + s.params.devinfoWords) ≤ s.oracle.bytes.length := by
  refine ⟨.inr (.inr (.inl rfl)), ?_⟩
  decide

/-- INIT with its answer, and a PACK whose every window byte is written, with room for four pixels. -/
theorem witness_CommandsWithoutPollComplete :
    (let s : State := { idle .uninit with oracle := { inits := [false], levels := [], bytes := [] } }
     s.pace = .whole ∧ s.oracle.inits ≠ []) ∧
    (let s : State := { pack5 with
       params := { small with frameCap := 0, regionCap := 4, packedCap := 2 }
       mem := Memory.writeBytes pack5.mem 0x04000000 [0, 0] }
     ∀ (w : Window) (a : Nat), w.base ≤ a → a < w.base + w.capacity s.params →
       Memory.read s.mem a ≠ none) := by
  refine ⟨⟨rfl, by decide⟩, fun w a h1 h2 => ?_⟩
  cases w <;> simp only [Window.base, Window.capacity] at h1 h2
  · omega
  · omega
  · interval_cases a <;> decide
  · interval_cases a <;> decide

/-! #### The bus -/

/-- A running command with these items, `k` not-ready answers and a ready one, and a bound. -/
def polling (items : List Item) (k bound bytes : Nat) : State :=
  { idle .reset with
    running := some .regRead
    seq := { items := items, polls := 0, rx := [], bound := bound }
    oracle := {
      inits := []
      levels := List.replicate k false ++ [true]
      bytes := List.replicate bytes 0 } }

/-- Two not-ready reads under TIMEOUT = 3 (vector BUS-2b), and five without a bound. -/
theorem witness_CommandPhaseOnTheBus :
    (let s := polling (phaseCmd 0x0302 ++ [.finishRegRead]) 2 3 4
     s.seq.items = phaseCmd 0x0302 ++ [.finishRegRead] ∧
       s.oracle.levels = List.replicate 2 (!s.params.readyLevel) ++ s.params.readyLevel :: [] ∧
       (s.seq.bound ≠ 0 → s.seq.polls + 2 < s.seq.bound) ∧ 4 ≤ s.oracle.bytes.length) ∧
    (let s := polling (phaseCmd 0x0302 ++ [.finishRegRead]) 5 0 4
     s.oracle.levels = List.replicate 5 (!s.params.readyLevel) ++ s.params.readyLevel :: [] ∧
       (s.seq.bound ≠ 0 → s.seq.polls + 5 < s.seq.bound)) := by decide

theorem witness_WritePhaseOnTheBus :
    (let s := polling (phaseWrite [] ++ [.finish]) 0 1 2
     s.seq.items = phaseWrite [] ++ [.finish] ∧
       s.oracle.levels = List.replicate 0 (!s.params.readyLevel) ++ s.params.readyLevel :: [] ∧
       (s.seq.bound ≠ 0 → s.seq.polls + 0 < s.seq.bound) ∧
       2 + 2 * ([] : List Word16).length ≤ s.oracle.bytes.length) ∧
    (let s := polling (phaseWrite [0x1234, 0xABCD] ++ [.finish]) 1 2 6
     s.seq.items = phaseWrite [0x1234, 0xABCD] ++ [.finish] ∧
       (s.seq.bound ≠ 0 → s.seq.polls + 1 < s.seq.bound) ∧
       2 + 2 * [0x1234, 0xABCD].length ≤ s.oracle.bytes.length) := by decide

theorem witness_ReadPhaseOnTheBus :
    let s := polling (phaseRead small 2 ++ [.finishRegRead]) 0 0 8
    s.seq.items = phaseRead s.params 2 ++ [.finishRegRead] ∧
      s.oracle.levels = List.replicate 0 (!s.params.readyLevel) ++ s.params.readyLevel :: [] ∧
      (s.seq.bound ≠ 0 → s.seq.polls + 0 < s.seq.bound) ∧
      2 + 2 * (s.params.readDummyWords + 2) ≤ s.oracle.bytes.length := by decide

theorem witness_WireWordsAreSentAsTwoBytes :
    wireWordOf (answering 0 [0, 0] (idle .reset)).params.codes .codeVcom = some 0x0039 ∧
      (answering 0 [0, 0] (idle .reset)).pace = .whole ∧
      (answering 0 [0, 0] (idle .reset)).oracle.bytes = 0 :: 0 :: [] := by decide

theorem witness_WireWordFrame :
    Instr.preambleRead.isCommand = false ∧ ∃ t, exec .preambleRead (idle .reset) = .next t :=
  ⟨rfl, _, rfl⟩

/-- A completed command and a waiting one. -/
theorem witness_ControllerCommandFrame :
    (∃ t, exec .regWrite timingOut = .next t) ∧
      ∃ t, exec .regWrite (idle .reset) = .next t ∧ t.running.isSome = true :=
  ⟨⟨_, rfl⟩, _, rfl, rfl⟩

/-! #### Reset and the whole machine -/

/-- The first and the last byte of a window's capacity. -/
theorem witness_ResetValues :
    0x04000000 < Window.packed.base + min (Window.packed.capacity State.reset.params) Window.span ∧
      0x041FFFFF < Window.packed.base
        + min (Window.packed.capacity State.reset.params) Window.span := by decide

theorem witness_ExternalResetStep :
    ({ inPhase with inputs := [.reset] } : State).inputs = .reset :: [] := rfl

/-- A CMD write of REG_WRITE to an idle block in READY. -/
def commanded : State :=
  accessing (.write 0x004 .w32 0x16) (answering 3 (List.replicate 12 0) (idle .ready))

theorem witness_EveryStepKeepsTheInvariant :
    commanded.inv = true ∧ ∃ t, step commanded = .next t := ⟨by decide, _, rfl⟩

theorem witness_CStateMovesOnlyForward :
    (commanded.inv = true ∧ resetNext commanded = false ∧ ∃ t, step commanded = .next t) ∧
      (let s : State := { idle .uninit with inputs := [.reset] }
       s.inv = true ∧ resetNext s = true ∧ ∃ t, step s = .next t) :=
  ⟨⟨by decide, rfl, _, rfl⟩, by decide, rfl, _, rfl⟩

theorem witness_TraceGrowsAndLinesFollow :
    (resetNext commanded = false ∧ ∃ t, step commanded = .next t) ∧
      ∃ t, step { inPhase with inputs := [.reset] } = .next t :=
  ⟨⟨rfl, _, rfl⟩, _, rfl⟩

theorem witness_BusDiscipline :
    commanded.inv = true ∧ resetNext commanded = false ∧
      seen (fun t => t.trace.length) (step commanded) = some 21 := by decide

theorem witness_OnlyUnwrittenBytesStopTheMachine :
    commanded.inv = true ∧
      (accessing (.read 0x0400001F .w8) (idle .ready)).inv = true := by decide

/-- A CMD write of DRAW that changes the frame buffer, and the last item of a running DISCOVER, which
changes it and DeviceInfo. -/
theorem witness_FrameBufferAndDeviceInfoAreOwned :
    (let s := accessing (.write 0x004 .w32 0x13)
       { drawing with regs := { drawing.regs with panelGeom := 0 } }
     s.inv = true ∧ resetNext s = false ∧ commandOf s .draw ∧
       ∃ t, step s = .next t ∧ decide (t.fb ≠ s.fb) = true) ∧
    (let s : State := { idle .reset with
       running := some .discover
       seq := { items := [.finishDiscover], polls := 0, rx := deviceBytes.drop 8, bound := 0 } }
     s.inv = true ∧ resetNext s = false ∧ commandOf s .discover ∧
       ∃ t, step s = .next t ∧ decide (t.fb ≠ s.fb ∧ t.dev ≠ s.dev) = true) :=
  ⟨⟨by decide, rfl, .inr ⟨rfl, _, _, rfl, by decide⟩, next_of_seen (by decide)⟩,
    by decide, rfl, .inl rfl, next_of_seen (by decide)⟩

theorem witness_WholeRunIsTheItemSteps :
    let s := accept .regWrite (answering 3 (List.replicate 12 0) (idle .ready))
    s.inv = true ∧ s.running = some .regWrite ∧ s.seq.items = [.begin] ∧ s.inputs = [] ∧
      ∃ t, exec .regWrite { s with pace := .whole } = .next t :=
  ⟨by decide, rfl, rfl, rfl, _, rfl⟩

/-- A register while a ROTATE that does not write it runs, and one of an idle block. -/
theorem witness_RegisterReadsShowTheState :
    (nextAccess (.read HostReg.angle.offset .w32) [] (turning (.read 0x00C .w32)) ∧
      ¬runningWrites (turning (.read 0x00C .w32)) (.reg .angle)) ∧
    nextAccess (.read (HostReg.devLut 3).offset .w32) [] (accessing (.read 0x068 .w32) (idle .ready)) ∧
      ¬runningWrites (accessing (.read 0x068 .w32) (idle .ready)) (.reg (.devLut 3)) :=
  ⟨⟨rfl, turning_spares _ _ (.inl rfl)⟩, rfl, idle_spares rfl _⟩

theorem witness_UnboundedPollStaysBusy :
    let s0 := polling (phaseCmd 0x0010 ++ [.finishRegRead]) 2 0 0
    let s : State := { s0 with oracle := { s0.oracle with levels := [false, false] } }
    s.seq.items = .poll :: (phaseCmd 0x0010 ++ [Item.finishRegRead]).tail ∧ s.seq.bound = 0 ∧
      ∀ l ∈ s.oracle.levels, l ≠ s.params.readyLevel := by decide

end Sys2Proof.Tests
end

/-! # Host registers: a 32-bit access of a register through a step (10_state.md R30-R51) -/

namespace Sys2Proof.Proofs

open Sys2Proof Sys2Proof.Machine Sys2Proof.Spec

/-! ### Steps of a register access -/

/-- A 32-bit write of a register other than CMD, to an idle block, is `writeReg` (R303). -/
theorem step_register_write {s : State} {r : HostReg} {v : Word32} {rest : List Input}
    (hcmd : r ≠ .cmd) (hin : nextAccess (.write r.offset .w32 v) rest s)
    (hidle : s.running = none) :
    step s = .next (writeReg r v { s with inputs := rest }) := by
  simp only [nextAccess] at hin
  simp [step, takeInput, hin, hostAccess, hostWrite, accessTarget_reg, busy, hidle, hcmd]

/-- A register's value does not depend on the inputs to come. -/
theorem readReg_inputs (r : HostReg) (s : State) (rest : List Input) :
    readReg r { s with inputs := rest } = readReg r s := by
  cases r <;> rfl

/-- A 32-bit read of a register that no running command writes returns its value (R92). -/
theorem step_register_read {s : State} {r : HostReg} {rest : List Input}
    (hin : nextAccess (.read r.offset .w32) rest s) (hfree : readIsFree s (.reg r) = false) :
    step s = .next { s with inputs := rest, readback := readReg r s } := by
  simp only [nextAccess] at hin
  have hfree' : readIsFree { s with inputs := rest } (.reg r) = false := hfree
  simp [step, takeInput, hin, hostAccess, hostRead, accessTarget_reg, targetIsFree, hfree',
    readTarget, orFault, readReg_inputs]

/-! ### Reading a register after a write -/

/-- A register with access code R keeps its value (R31, R33, R45, R47-R51). -/
theorem writeReg_of_readOnly {r : HostReg} (h : readOnly r = true) (v : Word32) (s : State) :
    writeReg r v s = s := by
  cases r with
  | id | status | vcomRead | fbLen | devGeom | devImgAddr | devFw | devLut => rfl
  | _ => cases h

/-- A freely writable register reads back the bits it stores (R34, R36-R44, R46). -/
theorem readReg_writeReg_same {r : HostReg} {n : Nat} (h : storedBits r = some n) (v : Word32)
    (s : State) : readReg r (writeReg r v s) = (v.setWidth n).setWidth 32 := by
  have hlow : v.extractLsb' 0 16 = v.setWidth 16 :=
    (BitVec.setWidth_eq_extractLsb' (by decide)).symm
  cases r with
  | regAddr | regData | vcomTarget => cases h; simp [writeReg, readReg, hlow]
  | angle | frameGeom | regionXY | regionWH | packedLen | dispXY | dispWH | timeout =>
    cases h; simp [writeReg, readReg]
  | _ => cases h

/-- Writing one register leaves what every other register shows. -/
theorem readReg_writeReg_other {r r' : HostReg} (h : r' ≠ r) (v : Word32) (s : State) :
    readReg r' (writeReg r v s) = readReg r' s := by
  cases r with
  | panelGeom =>
    simp only [writeReg]
    split
    · cases r' with
      | panelGeom => exact absurd rfl h
      | _ => rfl
    · rfl
  | _ => cases r' <;> simp_all [writeReg, readReg, statusWord, busy]

/-- What a register write stores does not depend on the inputs to come. -/
theorem writeReg_inputs (r : HostReg) (v : Word32) (s : State) (rest : List Input) :
    writeReg r v { s with inputs := rest }
      = { s with inputs := rest, regs := (writeReg r v s).regs } := by
  cases r with
  | panelGeom => simp only [writeReg]; split <;> rfl
  | _ => rfl

/-! ### What a read shows, and when it is free -/

/-- The register's value as the host reads it is the one the rules name (R31-R51). -/
theorem readReg_eq_shownValue (r : HostReg) (s : State) : readReg r s = shownValue s r := by
  cases r <;> simp [readReg, shownValue, joinWords, versionPair, Config.idValue,
    BitVec.setWidth_eq_append]

/-- The state check allows a command in the states R306 lists for it, and in no other. -/
theorem allowedIn_iff_mem {i : Instr} (hi : i.isCommand = true) (c : CState) :
    allowedIn i c = true ↔ c ∈ allowedStates i := by
  cases i <;> cases c <;> simp [allowedIn, allowedStates, Instr.isCommand] at hi ⊢

/-- Only host commands write registers. -/
theorem isCommand_of_writesReg {a : Int} {i : Instr} {r : HostReg}
    (h : writesReg a i r = true) : i.isCommand = true := by
  cases i <;> simp_all [writesReg, Instr.isCommand]

/-- The registers a command writes are those of its rule's Writes line (R150-R286). -/
theorem writesLine_of_writesReg {s : State} {i : Instr} {r : HostReg}
    (h : writesReg (angle s) i r = true) : writesLine s i (.reg r) := by
  cases i with
  | compare | rotate | pack | configure | draw | regRead =>
    cases r <;> simp [writesReg, angle] at h <;> simp [writesLine, h]
  | discover => cases r <;> simp [writesReg, writesLine] at h ⊢
  | _ => cases h

/-- A free read is one of a register the running command writes, in a state that allows it (R93). -/
theorem runningWrites_of_readIsFree {s : State} {r : HostReg}
    (h : readIsFree s (.reg r) = true) : runningWrites s (.reg r) := by
  unfold readIsFree at h
  cases hrun : s.running with
  | none => simp [hrun] at h
  | some i =>
    simp only [hrun, Bool.and_eq_true, writesTarget] at h
    obtain ⟨hallowed, hwrites⟩ := h
    exact ⟨i, hrun, (allowedIn_iff_mem (isCommand_of_writesReg hwrites) _).mp hallowed,
      writesLine_of_writesReg hwrites⟩

/-! ### The fields of STATUS -/

/-- A bit of a 32-bit word given as a number, from the number's binary digit. -/
theorem getLsbD_ofNat_of_digit {n i : Nat} {b : Bool} (hi : i < 32)
    (h : n / 2 ^ i % 2 = b.toNat) : (BitVec.ofNat 32 n).getLsbD i = b := by
  rw [BitVec.getLsbD_ofNat, Nat.testBit_eq_decide_div_mod_eq, h]
  cases b <;> simp [hi]

/-- A field of a 32-bit word given as a number, from the number's digits there. -/
theorem extractLsb'_ofNat_of_digits {n k w c : Nat}
    (h : n % 2 ^ 32 / 2 ^ k % 2 ^ w = c % 2 ^ w) :
    (BitVec.ofNat 32 n).extractLsb' k w = BitVec.ofNat w c := by
  apply BitVec.eq_of_toNat_eq
  rw [BitVec.extractLsb'_toNat, BitVec.toNat_ofNat, BitVec.toNat_ofNat,
    Nat.shiftRight_eq_div_pow, h]

theorem errCode_code_lt (e : ErrCode) : e.code < 8 := by cases e <;> decide

theorem cState_code_lt (c : CState) : c.code < 8 := by cases c <;> decide

/-! ### The obligations -/

/-- Settles O8: the write is `writeReg`, which changes its own register only. -/
theorem registerWriteReadsBack : Obligations.RegisterWriteReadsBack := by
  intro s r n v rest hbits hin hidle
  have hcmd : r ≠ .cmd := by rintro rfl; cases hbits
  have hregs := writeReg_regs r v s
  refine ⟨(writeReg r v s).regs, ?_, ?_, ?_⟩
  · rw [step_register_write hcmd hin hidle, writeReg_inputs]
  · rw [← hregs]; exact readReg_writeReg_same hbits v s
  · intro r' hr'
    rw [← hregs]; exact readReg_writeReg_other hr' v s

/-- Settles O9: `writeReg`'s branch for PANEL_GEOM, by CSTATE. -/
theorem panelGeometryIsWritableBeforeDiscovery :
    Obligations.PanelGeometryIsWritableBeforeDiscovery := by
  intro s v rest hin hidle
  have hstep := step_register_write (r := .panelGeom) (by decide) hin hidle
  constructor
  · intro hc
    rw [hstep]; simp [writeReg, hc]
  · rintro (hc | hc | hc) <;> rw [hstep] <;> simp [writeReg, hc]

/-- Settles O10: the write is `writeReg`, which leaves a read-only register's state alone. -/
theorem readOnlyRegistersIgnoreWrites : Obligations.ReadOnlyRegistersIgnoreWrites := by
  intro s r v rest hro hin hidle
  have hcmd : r ≠ .cmd := by rintro rfl; cases hro
  rw [step_register_write hcmd hin hidle, writeReg_of_readOnly hro]

/-- Settles O11: ID is read as its constant, which no command writes, and is read-only. -/
theorem idIsHardwired : Obligations.IdIsHardwired := by
  intro s v rest
  constructor
  · intro hin
    have hfree : readIsFree s (.reg .id) = false := by
      by_contra h
      obtain ⟨i, -, -, hline⟩ := runningWrites_of_readIsFree (by simpa using h)
      exact hline
    exact step_register_read (r := .id) hin hfree
  · intro hin hidle
    exact readOnlyRegistersIgnoreWrites s .id v rest rfl hin hidle

/-- Settles O17: each field is a run of binary digits of STATUS's number. -/
theorem statusWordHoldsItsFields : Obligations.StatusWordHoldsItsFields := by
  intro s
  have hbusy := (busy s).toNat_le
  have hdone := s.status.done.toNat_le
  have hrvalid := s.status.rvalid.toNat_le
  have herr := s.status.err.toNat_le
  have hrej := s.status.rej.toNat_le
  have hcode := errCode_code_lt s.status.errcode
  have hstate := cState_code_lt s.status.cstate
  have herrcode : (statusWord s).extractLsb' 8 4 = BitVec.ofNat 4 s.status.errcode.code :=
    extractLsb'_ofNat_of_digits (by omega)
  have hcstate : (statusWord s).extractLsb' 12 3 = BitVec.ofNat 3 s.status.cstate.code :=
    extractLsb'_ofNat_of_digits (by omega)
  refine ⟨getLsbD_ofNat_of_digit (b := busy s) (by decide) (by omega),
    getLsbD_ofNat_of_digit (by decide) (by omega), getLsbD_ofNat_of_digit (by decide) (by omega),
    getLsbD_ofNat_of_digit (by decide) (by omega), getLsbD_ofNat_of_digit (by decide) (by omega),
    extractLsb'_ofNat_of_digits (c := 0) (by omega),
    extractLsb'_ofNat_of_digits (c := 0) (by omega), ?_, ?_⟩
  · rw [herrcode]; cases s.status.errcode <;> rfl
  · rw [hcstate]; cases s.status.cstate <;> rfl

/-- Settles O60: the read is not free, so it returns the register's value. -/
theorem registerReadsShowTheState : Obligations.RegisterReadsShowTheState := by
  intro s r rest hin hwrites
  have hfree : readIsFree s (.reg r) = false := by
    by_contra h
    exact hwrites (runningWrites_of_readIsFree (by simpa using h))
  rw [step_register_read hin hfree, readReg_eq_shownValue]

end Sys2Proof.Proofs

/-! # What a meaning and a step can do, said once (10_state.md R53, R92; 60_exceptions.md R302-R306)

The later proofs are case analyses over `MeaningEffect`, `ItemEffect` and `StepEffect`: no proof
opens `exec`, `perform` or `step` again, but for the invariant's, which follows the items one by
one. -/

namespace Sys2Proof.Proofs

open Sys2Proof Sys2Proof.Machine Sys2Proof.Spec

/-! ### Decoded instructions -/

/-- A command word decodes to a host command (R111). -/
theorem isCommand_of_decodeCmd {w : Word32} {i : Instr} (h : decodeCmd w = .ok i) :
    i.isCommand = true := by
  have hplain : ∀ op j, plainCommand op = some j → j.isCommand = true := by
    intro op j hj
    unfold plainCommand at hj
    repeat' split at hj
    all_goals cases hj
    all_goals rfl
  unfold decodeCmd at h
  split at h
  · split at h <;> cases h
    rfl
  · split at h
    · cases h
    · rename_i j hj
      split at h
      · cases h
      · split at h <;> cases h
        exact hplain _ _ hj

/-- A decoded wire word is sent (R115, R120). -/
theorem exec_of_decodeWire {s : State} {w : Word16} {i : Instr}
    (h : decodeWire s.params.codes w = .ok i) : exec i s = .next (sendWord w s) := by
  unfold decodeWire at h
  repeat' split at h
  all_goals cases h
  all_goals subst w; rfl

/-! ### Meanings -/

/-- The sequence a controller command lays out when it begins (R250-R286). -/
def sequenceOf (s : State) : Instr → Option (List Item)
  | .init => some (initSeq s.params)
  | .discover => some (discoverSeq s.params)
  | .configure => some (configureSeq s.params s.regs.vcomTarget)
  | .display => some (displaySeq s.params (displayRect s)
      (frameBufferWords (s.fb.take (2 * displayWordCount s))))
  | .regRead => some (regReadSeq s.params s.regs.regAddr ++ [.finishRegRead])
  | .regWrite => some (regWriteSeq s.params s.regs.regAddr s.regs.regData ++ [.finish])
  | _ => none

/-- What the meaning of an instruction can answer. -/
inductive MeaningEffect (i : Instr) (s : State) : State → Prop
  /-- It completes, with or without an error, and changes nothing but STATUS. -/
  | completes (e : ErrCode) (v : Bool) : MeaningEffect i s (complete e (setRvalid v s))
  /-- It completes with bytes stored from the start of a window, within its capacity, and registers
  other than PANEL_GEOM. -/
  | stores (w : Window) (bs : List Byte) (regs : Regs) (v : Bool)
      (hfits : bs.length ≤ w.capacity s.params) (hgeom : regs.panelGeom = s.regs.panelGeom) :
      MeaningEffect i s (complete .none (setRvalid v
        { s with mem := Memory.writeBytes s.mem w.base bs, regs := regs }))
  /-- DRAW completes with the frame buffer replaced. -/
  | draws (bs : List Byte) (hi : i = .draw) (hallowed : allowedIn i s.status.cstate = true)
      (hread : Memory.readBytes s.mem Window.packed.base s.regs.packedLen.toNat = .ok bs)
      (hcap : bs.length ≤ s.params.fbCap) : MeaningEffect i s (complete .none { s with fb := bs })
  /-- A controller command runs its sequence. -/
  | runs (items : List Item) (hallowed : allowedIn i s.status.cstate = true)
      (hitems : sequenceOf s i = some items) : MeaningEffect i s (runSequence i items s)
  /-- A wire word is sent. -/
  | sends (w : Word16) (hi : i.isCommand = false) : MeaningEffect i s (sendWord w s)

/-- Completing without COMPARE's flag touched. -/
theorem MeaningEffect.completes' (i : Instr) (e : ErrCode) (s : State) :
    MeaningEffect i s (complete e s) := .completes e s.status.rvalid

/-- A gated meaning's effects are its body's, and STATE_ERROR. -/
theorem MeaningEffect.of_gated {i : Instr} {body : State → Result} {s t : State}
    (h : gated i body s = .next t)
    (hbody : allowedIn i s.status.cstate = true → body s = .next t → MeaningEffect i s t) :
    MeaningEffect i s t := by
  rcases gated_cases i body s with ⟨-, hg⟩ | ⟨hallowed, hg⟩
  · rw [hg] at h; cases h
    exact .completes' i .stateError s
  · exact hbody hallowed (hg ▸ h)

theorem length_rectIndices (fw : Nat) (r : Rect) : (rectIndices fw r).length = r.h * r.w :=
  length_grid _ _ _

/-- Two samples make a byte (R200). -/
theorem length_packSamples : ∀ qs : List Nat, (packSamples qs).length = qs.length / 2
  | [] => rfl
  | [_] => by simp [packSamples]
  | _ :: _ :: rest => by simp [packSamples, length_packSamples rest]; omega

theorem execCompare_effect {slot : Slot} {prev : Bool} {s t : State}
    (h : execCompare slot prev s = .next t) : MeaningEffect (.compare slot prev) s t := by
  refine .of_gated h fun _ hbody => ?_
  rcases compareBody_cases hbody with ⟨-, rfl⟩ | ⟨-, _, -, ⟨-, rfl⟩ | ⟨_, -, ⟨-, rfl⟩ | ⟨r, -, hr⟩⟩⟩
  · exact .completes _ _
  · exact .completes _ _
  · exact .completes _ _
  · rcases extractRegion_cases hr with ⟨-, rfl⟩ | rfl | ⟨-, rfl⟩ |
      ⟨-, -, -, -, -, -, hcap, ps, hps, rfl⟩
    · exact .completes _ _
    · exact .completes _ _
    · exact .completes _ _
    · refine .stores .regionPix _ _ _ ?_ rfl
      rw [pixel_bytes_length, readPixels_length hps, length_rectIndices, Nat.mul_comm r.h]
      exact Nat.mul_le_mul_left 3 hcap

theorem execRotate_effect {s t : State} (h : execRotate s = .next t) :
    MeaningEffect .rotate s t := by
  refine .of_gated h fun _ hbody => ?_
  rcases rotateBody_cases hbody with ⟨-, rfl⟩ | ⟨-, -, rfl⟩ | ⟨-, -, -, rfl⟩ | ⟨-, hcap, -, ps, -, rfl⟩
  · exact .completes' _ _ _
  · exact .completes' _ _ _
  · exact .completes' _ _ _
  · refine .stores .regionPix _ _ s.status.rvalid ?_ rfl
    rw [pixel_bytes_length, turnPixels_length]
    exact Nat.mul_le_mul_left 3 hcap

theorem execPack_effect {s t : State} (h : execPack s = .next t) : MeaningEffect .pack s t := by
  refine .of_gated h fun _ hbody => ?_
  rcases packBody_cases hbody with ⟨-, rfl⟩ | ⟨-, -, rfl⟩ | ⟨-, -, -, rfl⟩ | ⟨-, -, hcap, ps, hps, rfl⟩
  · exact .completes' _ _ _
  · exact .completes' _ _ _
  · exact .completes' _ _ _
  · refine .stores .packed _ _ s.status.rvalid ?_ rfl
    rw [length_packSamples, List.length_map, readPixels_length hps, List.length_range]
    exact hcap

theorem execDraw_effect {s t : State} (h : execDraw s = .next t) : MeaningEffect .draw s t := by
  refine .of_gated h fun hallowed hbody => ?_
  rcases drawBody_cases hbody with ⟨-, rfl⟩ | ⟨-, hcap, bs, hbs, rfl⟩
  · exact .completes' _ _ _
  · exact .draws bs rfl hallowed hbs (readBytes_length hbs ▸ hcap)

theorem execDisplay_effect {s t : State} (h : execDisplay s = .next t) :
    MeaningEffect .display s t := by
  refine .of_gated h fun hallowed hbody => ?_
  rcases displayBody_cases s with ⟨-, hb⟩ | ⟨-, hb⟩ <;> rw [hb] at hbody <;> cases hbody
  · exact .completes' _ _ _
  · exact .runs _ hallowed rfl

/-- Every answer of every meaning. -/
theorem exec_effect {i : Instr} {s t : State} (h : exec i s = .next t) : MeaningEffect i s t := by
  have hrun : ∀ {items}, sequenceOf s i = some items →
      gated i (fun s => .next (runSequence i items s)) s = .next t → MeaningEffect i s t := by
    intro items hitems hg
    refine .of_gated hg fun hallowed hbody => ?_
    cases hbody
    exact .runs items hallowed hitems
  cases i with
  | compare slot prev => exact execCompare_effect h
  | rotate => exact execRotate_effect h
  | pack => exact execPack_effect h
  | draw => exact execDraw_effect h
  | display => exact execDisplay_effect h
  | init | discover | configure | regRead | regWrite => exact hrun rfl h
  | _ => cases h; exact .sends _ rfl

/-! ### Items -/

/-- What the sequencer's next item can do. -/
inductive ItemEffect (s : State) : State → Prop
  /-- It waits for its answer, or there is none. -/
  | waits : ItemEffect s s
  /-- The sequence moves on without an event. -/
  | moves (q : Sequencer) : ItemEffect s { s with seq := q }
  /-- One event is emitted, and the sequence moves on. -/
  | emits (e : Event) (q : Sequencer) (o : Oracle) :
      ItemEffect s { emit e { s with oracle := o } with seq := q }
  /-- One event is emitted, and its answer ends the command with an error. -/
  | fails (e : Event) (err : ErrCode) (o : Oracle) :
      ItemEffect s (complete err (emit e { s with oracle := o }))
  /-- The command ends: INIT. -/
  | endsInit : ItemEffect s (commitInit s)
  /-- The command ends: DISCOVER. -/
  | endsDiscover (rest : List Item) (hitems : s.seq.items = .finishDiscover :: rest) :
      ItemEffect s (commitDiscover s)
  /-- The command ends: CONFIGURE. -/
  | endsConfigure : ItemEffect s (commitConfigure s)
  /-- The command ends: REG_READ. -/
  | endsRegRead : ItemEffect s (commitRegRead s)
  /-- The command ends: DISPLAY or REG_WRITE. -/
  | ends : ItemEffect s (complete .none s)

theorem doInit_effect (rest : List Item) (s : State) : ItemEffect s (doInit rest s) := by
  unfold doInit
  split
  · exact .waits
  · simp only
    split
    · exact .emits _ _ _
    · exact .fails _ _ _

theorem doPoll_effect (rest : List Item) (s : State) : ItemEffect s (doPoll rest s) := by
  unfold doPoll
  split
  · exact .waits
  · simp only
    split
    · exact .emits _ _ _
    · split
      · exact .fails _ _ _
      · exact .emits _ _ _

theorem doXfer_effect (b : Byte) (rest : List Item) (s : State) :
    ItemEffect s (doXfer b rest s) := by
  unfold doXfer
  split
  · exact .waits
  · exact .emits _ _ _

theorem doRecv_effect (keep : Bool) (rest : List Item) (s : State) :
    ItemEffect s (doRecv keep rest s) := by
  unfold doRecv
  split
  · exact .waits
  · simp only
    split <;> exact .emits (.xfer 0 _) _ _

/-- Every effect of an item. -/
theorem perform_effect (s : State) : ItemEffect s (perform s) := by
  rcases hitems : s.seq.items with _ | ⟨item, rest⟩
  · rw [perform_nil hitems]; exact .waits
  cases item <;> simp only [perform, hitems]
  case initCall => exact doInit_effect rest s
  case config | pinDir | select | writeRst | delay => exact .emits _ _ s.oracle
  case poll => exact doPoll_effect rest s
  case op | data | vcomCheck => exact .moves _
  case xfer => exact doXfer_effect _ rest s
  case recv => exact doRecv_effect _ rest s
  case finishInit => exact .endsInit
  case finishDiscover => exact .endsDiscover rest hitems
  case finishConfigure => exact .endsConfigure
  case finishRegRead => exact .endsRegRead
  case finish => exact .ends
  -- a command that has not begun
  exact .waits

/-! ### Steps -/

/-- `u` is `s` but for what belongs to the outside: the inputs to come and the host's side. -/
def SameBlock (s u : State) : Prop :=
  ∃ inputs readback freeCount,
    u = { s with inputs := inputs, readback := readback, freeCount := freeCount }

/-- What a step other than the external reset can do to the machine. -/
inductive StepEffect (s : State) : State → Prop
  /-- The block stays as it is. -/
  | stays {u : State} (hu : SameBlock s u) : StepEffect s u
  /-- A host write is rejected. -/
  | rejects {u : State} (hu : SameBlock s u) : StepEffect s (setRej u)
  /-- A register of the idle block is written. -/
  | writesRegister {u : State} (hu : SameBlock s u) (r : HostReg) (v : Word32)
      (hidle : s.running = none) : StepEffect s (writeReg r v u)
  /-- Bytes of a window of the idle block are written. -/
  | writesWindow {u : State} (hu : SameBlock s u) (w : Window) (offset : Nat) (bs : List Byte)
      (hidle : s.running = none) (hin : inWindow s.params offset bs.length w = true) :
      StepEffect s { u with mem := Memory.writeBytes u.mem offset bs }
  /-- An undecodable command is accepted and completes at once. -/
  | illegal {u : State} (hu : SameBlock s u) (hidle : s.running = none)
      (hc : s.status.cstate ≠ .failed) : StepEffect s (acceptIllegal u)
  /-- A command is accepted, and begins in a later step. -/
  | accepts {u : State} (hu : SameBlock s u) (i : Instr) (hidle : s.running = none)
      (hc : s.status.cstate ≠ .failed) (hi : i.isCommand = true) : StepEffect s (accept i u)
  /-- A command is accepted and its meaning runs. -/
  | acceptsAndRuns {u t : State} (hu : SameBlock s u) (i : Instr) (hidle : s.running = none)
      (hc : s.status.cstate ≠ .failed) (hi : i.isCommand = true) (hcmd : commandOf s i)
      (hexec : exec i (accept i u) = .next t) : StepEffect s t
  /-- The meaning of a command accepted earlier runs. -/
  | begins {u t : State} (hu : SameBlock s u) (i : Instr) (rest : List Item)
      (hrun : s.running = some i) (hitems : s.seq.items = .begin :: rest)
      (hexec : exec i (setItems rest u) = .next t) : StepEffect s t
  /-- A command that is not there does not begin. -/
  | skips {u : State} (hu : SameBlock s u) (rest : List Item) (hidle : s.running = none)
      (hitems : s.seq.items = .begin :: rest) : StepEffect s (setItems rest u)
  /-- The sequence advances. -/
  | advances {u : State} (hu : SameBlock s u) (n : Nat) : StepEffect s (advance n u)

theorem SameBlock.refl (s : State) : SameBlock s s := ⟨s.inputs, s.readback, s.freeCount, rfl⟩

theorem SameBlock.inputs (s : State) (rest : List Input) :
    SameBlock s { s with inputs := rest } := ⟨rest, s.readback, s.freeCount, rfl⟩

theorem SameBlock.params {s u : State} (h : SameBlock s u) : u.params = s.params := by
  obtain ⟨_, _, _, rfl⟩ := h; rfl

theorem SameBlock.status {s u : State} (h : SameBlock s u) : u.status = s.status := by
  obtain ⟨_, _, _, rfl⟩ := h; rfl

theorem SameBlock.running {s u : State} (h : SameBlock s u) : u.running = s.running := by
  obtain ⟨_, _, _, rfl⟩ := h; rfl

theorem SameBlock.seq {s u : State} (h : SameBlock s u) : u.seq = s.seq := by
  obtain ⟨_, _, _, rfl⟩ := h; rfl

/-- The only register access that names CMD is a 32-bit one at its offset (R81). -/
theorem accessTarget_cmd {p : Params} {offset : Nat} {width : Width}
    (h : accessTarget p offset width = some (.reg .cmd)) : offset = 0x004 ∧ width = .w32 := by
  unfold accessTarget at h
  split at h
  · split at h
    · rename_i hw
      obtain ⟨r, hr, hrc⟩ := Option.map_eq_some_iff.mp h
      cases hrc
      have hoffset := List.find?_some hr
      exact ⟨(by simpa [HostReg.offset] using hoffset : 4 = offset).symm, hw.1⟩
    · cases h
  · split at h
    · obtain ⟨w, -, hw⟩ := Option.map_eq_some_iff.mp h
      cases hw
    · cases h

/-- An access that names a window lies in it (R80, R83). -/
theorem accessTarget_window {p : Params} {offset : Nat} {width : Width} {w : Window}
    (h : accessTarget p offset width = some (.window w)) :
    inWindow p offset (Width.bytes width) w = true := by
  unfold accessTarget at h
  split at h
  · split at h
    · obtain ⟨r, -, hr⟩ := Option.map_eq_some_iff.mp h
      cases hr
    · cases h
  · split at h
    · obtain ⟨w', hw', hw⟩ := Option.map_eq_some_iff.mp h
      cases hw
      exact windowAt_some hw'
    · cases h

theorem length_valueBytes (width : Width) (v : Word32) :
    (valueBytes width v).length = Width.bytes width := by
  cases width <;> rfl

/-- A CMD write's step. -/
theorem commandWrite_effect {s u t : State} {w : Word32} (hu : SameBlock s u)
    (hidle : s.running = none) (hcmd : ∀ i, decodeCmd w = .ok i → commandOf s i)
    (h : commandWrite w u = .next t) : StepEffect s t := by
  rcases commandWrite_cases w u with ⟨-, hw⟩ | ⟨hc, -, hw⟩ | ⟨i, hc, hd, -, hw⟩ | ⟨i, hc, hd, -, hw⟩ <;>
    rw [hw] at h
  · cases h; exact .rejects hu
  · cases h; exact .illegal hu hidle (hu.status ▸ hc)
  · cases h; exact .accepts hu i hidle (hu.status ▸ hc) (isCommand_of_decodeCmd hd)
  · exact .acceptsAndRuns hu i hidle (hu.status ▸ hc) (isCommand_of_decodeCmd hd) (hcmd i hd) h

/-- A host access's step. -/
theorem hostAccess_effect {s t : State} {a : Access} {rest : List Input}
    (hin : s.inputs = .access a :: rest) (h : hostAccess a { s with inputs := rest } = .next t) :
    StepEffect s t := by
  have hu := SameBlock.inputs s rest
  cases a with
  | read offset width =>
    exact .stays ⟨rest, t.readback, t.freeCount, hostRead_next h⟩
  | write offset width v =>
    have hidle : busy { s with inputs := rest } = false → s.running = none := fun hb => by
      simpa [busy] using hb
    rcases hostWrite_cases offset width v { s with inputs := rest } with
      ⟨-, hw⟩ | ⟨_, -, -, hw⟩ | ⟨ht, hb, hw⟩ | ⟨r, -, -, hb, hw⟩ | ⟨w, ht, hb, hw⟩ <;>
      rw [hostAccess, hw] at h
    · cases h; exact .stays hu
    · cases h; exact .rejects hu
    · obtain ⟨rfl, rfl⟩ := accessTarget_cmd ht
      exact commandWrite_effect hu (hidle hb) (fun i hd => .inr ⟨hidle hb, v, rest, hin, hd⟩) h
    · cases h; exact .writesRegister hu r v (hidle hb)
    · cases h
      refine .writesWindow hu w offset _ (hidle hb) ?_
      rw [length_valueBytes]
      exact accessTarget_window ht

/-- A fetched wire word advances the sequence: it becomes its two Xfers, which go out under the pace
whole. -/
theorem runWireWord_next {s t : State} {w : Word16} {rest : List Item}
    (hitems : s.seq.items = .op w :: rest) (h : runWireWord w rest s = .next t) :
    ∃ n, t = advance n s := by
  have hpush : pushWord w rest (setItems rest s) = perform s := by rw [perform_op hitems]; rfl
  unfold runWireWord at h
  split at h
  · cases h
  · rename_i i hd
    rw [exec_of_decodeWire (s := setItems rest s) hd] at h
    cases h
    unfold sendWord
    simp only [setItems_seq, hpush]
    split
    · exact ⟨1, rfl⟩
    · exact ⟨3, rfl⟩

/-- The block's turn. -/
theorem blockTurn_effect {s u t : State} (hu : SameBlock s u) (h : blockTurn u = .next t) :
    StepEffect s t := by
  rcases blockTurn_cases u with ⟨-, hb⟩ | ⟨rest, hitems, hb⟩ | ⟨w, rest, hitems, hb⟩ | ⟨-, -, hb⟩ <;>
    rw [hb] at h
  · cases h; exact .stays hu
  · unfold beginRunning at h
    split at h
    · rename_i hrun
      cases h
      exact .skips hu rest (hu.running ▸ hrun) (hu.seq ▸ hitems)
    · rename_i i hrun
      exact .begins hu i rest (hu.running ▸ hrun) (hu.seq ▸ hitems) h
  · obtain ⟨n, rfl⟩ := runWireWord_next hitems h
    exact .advances hu n
  · cases h; exact .advances hu 1

/-- Every answer of a step: the external reset, or one of the effects above. -/
theorem step_effect {s t : State} (h : step s = .next t) :
    (resetNext s = true ∧ ∃ u, SameBlock s u ∧ t = externalReset u) ∨
      (resetNext s = false ∧ StepEffect s t) := by
  rcases step_cases s with ⟨hin, hs⟩ | ⟨rest, hin, hs⟩ | ⟨a, rest, hin, hs⟩ | ⟨rest, hin, hs⟩ |
    ⟨rest, hin, hs⟩ <;> rw [hs] at h <;> rw [resetNext, hin]
  · exact .inr ⟨rfl, blockTurn_effect (.refl s) h⟩
  · exact .inr ⟨rfl, blockTurn_effect (.inputs s rest) h⟩
  · exact .inr ⟨rfl, hostAccess_effect hin h⟩
  · refine .inr ⟨rfl, ?_⟩
    unfold hostWait at h
    split at h
    · exact blockTurn_effect ⟨s.inputs, statusWord s, s.freeCount, rfl⟩ h
    · cases h; exact .stays ⟨rest, statusWord s, s.freeCount, rfl⟩
  · cases h; exact .inl ⟨rfl, _, .inputs s rest, rfl⟩

end Sys2Proof.Proofs

/-! # The invariant, by what the machine is doing (Safety.lean)

A state that meets the invariant is idle, or has accepted a command that has not begun, or is in the
middle of a sequence. Each effect of a step leads from one of these to another. -/

namespace Sys2Proof.Proofs

open Sys2Proof Sys2Proof.Machine Sys2Proof.Spec

/-! ### The three positions -/

/-- The parts of the invariant that do not speak of the running command. -/
structure CoreSound (s : State) : Prop where
  params : s.params.wf = true
  memory : memSound s = true
  geometry : geometrySound s = true
  frameBuffer : frameBufferSound s = true

/-- No command runs; STATUS reports the last one (R301, R302). -/
structure Idle (s : State) : Prop where
  running : s.running = none
  seq : s.seq = Sequencer.idle
  err : s.status.err = true ↔ s.status.errcode ≠ .none
  fatal : s.status.cstate = .failed ↔ s.status.errcode.fatal = true
  done : s.status.cstate = .failed → s.status.done = true
  line : lineAtRest s.status.cstate s.sel = true

/-- STATUS while a command runs (R303). -/
structure StatusClear (st : Status) : Prop where
  done : st.done = false
  err : st.err = false
  errcode : st.errcode = .none
  cstate : st.cstate ≠ .failed

/-- A command has been accepted and has not begun. -/
structure Accepted (i : Instr) (s : State) : Prop where
  running : s.running = some i
  command : i.isCommand = true
  items : s.seq.items = [.begin]
  clear : StatusClear s.status
  line : lineAtRest s.status.cstate s.sel = true

/-- A command's sequence, from the select line's level and from whether a ready poll comes before. -/
structure SequenceSound (p : Params) (i : Instr) (sel : Line) (polled : Bool)
    (items : List Item) : Prop where
  shape : sequenceShape sel polled items = true
  own : ∀ item ∈ items, itemOf i item = true
  words : ∀ w, .op w ∈ items → w ∈ p.codes.issued

/-- A command has begun and has something of its sequence left. -/
structure Midway (i : Instr) (s : State) : Prop where
  running : s.running = some i
  command : i.isCommand = true
  allowed : allowedIn i s.status.cstate = true
  clear : StatusClear s.status
  sequence : SequenceSound s.params i s.sel (released s.seq.items) s.seq.items
  ready : released s.seq.items = true → lastIsReady s.params s.trace.getLast? = true

theorem wordsSound_iff (s : State) :
    wordsSound s = true ↔ ∀ w, .op w ∈ s.seq.items → w ∈ s.params.codes.issued := by
  unfold wordsSound
  rw [List.all_eq_true]
  constructor
  · intro h w hw
    simpa using h _ hw
  · intro h item hitem
    cases item with
    | op w => simpa using h w hitem
    | _ => rfl

/-- No sequence holds the mark of a command that has not begun. -/
theorem begin_not_mem_of_shape {sel : Line} {polled : Bool} {items : List Item}
    (h : sequenceShape sel polled items = true) : .begin ∉ items := by
  induction items generalizing sel polled with
  | nil => simp
  | cons item rest ih =>
    rw [List.mem_cons, not_or]
    cases item with
    | select l =>
      cases l <;> simp only [sequenceShape, Bool.and_eq_true] at h <;> exact ⟨nofun, ih h.2⟩
    | finishInit | finishDiscover | finishConfigure | finishRegRead | finish =>
      simp only [sequenceShape, Bool.and_eq_true, List.isEmpty_iff] at h
      simp [h.2]
    | initCall | config | pinDir | writeRst | delay | poll | op | data | xfer | recv | vcomCheck =>
      simp only [sequenceShape, Bool.and_eq_true] at h
      exact ⟨nofun, ih h.2⟩
    | _ => simp [sequenceShape] at h

/-- The invariant, with the parts that do not speak of the running command put together. -/
theorem inv_iff_parts (s : State) :
    s.inv = true ↔ CoreSound s ∧ statusSound s = true ∧ runningSound s = true ∧
      lineSound s = true ∧ wordsSound s = true := by
  simp only [State.inv, Bool.and_eq_true]
  constructor
  · rintro ⟨⟨⟨⟨⟨⟨⟨hparams, hmem⟩, hstatus⟩, hrun⟩, hgeom⟩, hfb⟩, hline⟩, hwords⟩
    exact ⟨⟨hparams, hmem, hgeom, hfb⟩, hstatus, hrun, hline, hwords⟩
  · rintro ⟨⟨hparams, hmem, hgeom, hfb⟩, hstatus, hrun, hline, hwords⟩
    exact ⟨⟨⟨⟨⟨⟨⟨hparams, hmem⟩, hstatus⟩, hrun⟩, hgeom⟩, hfb⟩, hline⟩, hwords⟩

/-- A clear STATUS is consistent, whether or not a command runs. -/
theorem StatusClear.sound {s : State} (h : StatusClear s.status) : statusSound s = true := by
  obtain ⟨hdone, herr, hcode, hc⟩ := h
  simp [statusSound, hdone, herr, hcode, hc, ErrCode.fatal]

theorem Idle.inv {s : State} (h : Idle s) (core : CoreSound s) : s.inv = true := by
  refine (inv_iff_parts s).mpr ⟨core, ?_, ?_, ?_, ?_⟩
  · simp only [statusSound, Bool.and_eq_true, decide_eq_true_eq]
    exact ⟨⟨⟨h.err, h.fatal⟩, h.done⟩, by simp [h.running]⟩
  · simp [runningSound, h.running, h.seq]
  · simp [lineSound, h.seq, Sequencer.idle, h.line]
  · simp [wordsSound, h.seq, Sequencer.idle]

theorem Accepted.inv {i : Instr} {s : State} (h : Accepted i s) (core : CoreSound s) :
    s.inv = true := by
  refine (inv_iff_parts s).mpr ⟨core, h.clear.sound, ?_, ?_, ?_⟩
  · simp [runningSound, h.running, h.command, h.clear.cstate, h.items]
  · simp [lineSound, h.items, h.line]
  · simp [wordsSound, h.items]

theorem Midway.inv {i : Instr} {s : State} (h : Midway i s) (core : CoreSound s) :
    s.inv = true := by
  have hbegin := begin_not_mem_of_shape h.sequence.shape
  have hnil : s.seq.items ≠ [] := by
    intro hnil
    have hshape := h.sequence.shape
    simp [hnil, sequenceShape] at hshape
  have honly : s.seq.items ≠ [.begin] := by
    intro honly
    simp [honly] at hbegin
  refine (inv_iff_parts s).mpr ⟨core, h.clear.sound, ?_, ?_,
    (wordsSound_iff s).mpr h.sequence.words⟩
  · simpa [runningSound, h.running, h.command, h.clear.cstate, hnil, honly, h.allowed, hbegin]
      using h.sequence.own
  · simpa [lineSound, hnil, honly, h.sequence.shape]
      using imp_iff_not_or.mp h.ready

/-- What the invariant says of a running command: it has not begun, or it is midway. -/
theorem position_of_running {i : Instr} {s : State} (hrun : s.running = some i)
    (hstatus : statusSound s = true) (hrunning : runningSound s = true)
    (hline : lineSound s = true) (hwords : wordsSound s = true) : Accepted i s ∨ Midway i s := by
  simp only [runningSound, hrun, Bool.and_eq_true, Bool.or_eq_true, decide_eq_true_eq] at hrunning
  obtain ⟨⟨hcmd, hc⟩, hitems⟩ := hrunning
  simp only [statusSound, Bool.and_eq_true, decide_eq_true_eq] at hstatus
  obtain ⟨⟨⟨herr, -⟩, -⟩, hclear⟩ := hstatus
  obtain ⟨hdone, hcode⟩ := hclear (by simp [hrun])
  have hst : StatusClear s.status := ⟨hdone, by simpa [hcode] using herr, hcode, hc⟩
  by_cases honly : s.seq.items = [.begin]
  · exact .inl ⟨hrun, hcmd, honly, hst, by simpa [lineSound, honly] using hline⟩
  · obtain ⟨⟨⟨hallowed, hown⟩, -⟩, hne⟩ := hitems.resolve_left honly
    have hnil : s.seq.items ≠ [] := by simpa using hne
    simp only [lineSound, hnil, honly, or_self, if_false, Bool.and_eq_true, Bool.or_eq_true,
      Bool.not_eq_true'] at hline
    obtain ⟨hshape, hready⟩ := hline
    exact .inr ⟨hrun, hcmd, hallowed, hst,
      ⟨hshape, List.all_eq_true.mp hown, (wordsSound_iff s).mp hwords⟩,
      fun hrel => hready.resolve_left (by simp [hrel])⟩

/-- What the invariant says of a block that runs no command. -/
theorem idle_of_not_running {s : State} (hrun : s.running = none) (hstatus : statusSound s = true)
    (hrunning : runningSound s = true) (hline : lineSound s = true) : Idle s := by
  simp only [statusSound, Bool.and_eq_true, decide_eq_true_eq] at hstatus
  obtain ⟨⟨⟨herr, hfatal⟩, hdone⟩, -⟩ := hstatus
  have hseq : s.seq = Sequencer.idle := by simpa [runningSound, hrun] using hrunning
  exact ⟨hrun, hseq, herr, hfatal, hdone, by simpa [lineSound, hseq, Sequencer.idle] using hline⟩

/-- The invariant holds exactly of the states in one of the three positions. -/
theorem inv_iff (s : State) :
    s.inv = true ↔ CoreSound s ∧ (Idle s ∨ (∃ i, Accepted i s) ∨ ∃ i, Midway i s) := by
  constructor
  · intro h
    obtain ⟨core, hstatus, hrunning, hline, hwords⟩ := (inv_iff_parts s).mp h
    refine ⟨core, ?_⟩
    cases hrun : s.running with
    | none => exact .inl (idle_of_not_running hrun hstatus hrunning hline)
    | some i =>
      exact .inr ((position_of_running hrun hstatus hrunning hline hwords).imp
        (fun h => ⟨i, h⟩) (fun h => ⟨i, h⟩))
  · rintro ⟨core, h | ⟨i, h⟩ | ⟨i, h⟩⟩
    · exact h.inv core
    · exact h.inv core
    · exact h.inv core

end Sys2Proof.Proofs

/-! # The sequences of the commands keep the discipline of the bus (R223-R228, R230, R250-R286) -/

namespace Sys2Proof.Proofs

open Sys2Proof Sys2Proof.Machine Sys2Proof.Spec

/-- The item moves bytes while the select line is low: a word of the table, data, or a transfer. -/
def isTransfer (p : Params) : Item → Prop
  | .op w => w ∈ p.codes.issued
  | .data _ | .xfer _ | .recv _ => True
  | _ => False

/-- What is left of a sound sequence is sound where its shape is. -/
theorem SequenceSound.tail {p : Params} {i : Instr} {sel sel' : Line} {polled polled' : Bool}
    {item : Item} {rest : List Item} (h : SequenceSound p i sel polled (item :: rest))
    (hshape : sequenceShape sel' polled' rest = true) : SequenceSound p i sel' polled' rest :=
  ⟨hshape, fun x hx => h.own x (List.mem_cons_of_mem _ hx),
    fun w hw => h.words w (List.mem_cons_of_mem _ hw)⟩

/-- An item that sends no word put in front of a sound sequence. -/
theorem SequenceSound.cons {p : Params} {i : Instr} {sel sel' : Line} {polled polled' : Bool}
    {item : Item} {rest : List Item} (h : SequenceSound p i sel' polled' rest)
    (hshape : sequenceShape sel polled (item :: rest) = true) (hown : itemOf i item = true)
    (hword : ∀ w, item ≠ .op w) : SequenceSound p i sel polled (item :: rest) :=
  ⟨hshape, List.forall_mem_cons.mpr ⟨hown, h.own⟩, fun w hw => by
    rcases List.mem_cons.mp hw with hw | hw
    · exact absurd hw.symm (hword w)
    · exact h.words w hw⟩

section
variable {p : Params} {i : Instr} {rest : List Item}

/-- Transfers in front of what follows at a low select line. -/
theorem SequenceSound.transfers (hbus : usesBus i = true) {body : List Item}
    (hbody : ∀ item ∈ body, isTransfer p item)
    (h : SequenceSound p i (.driven false) false rest) :
    SequenceSound p i (.driven false) false (body ++ rest) := by
  induction body with
  | nil => exact h
  | cons item body ih =>
    obtain ⟨hitem, hbody⟩ := List.forall_mem_cons.mp hbody
    have htail := ih hbody
    cases item with
    | op w =>
      refine ⟨by simpa [sequenceShape] using htail.shape,
        List.forall_mem_cons.mpr ⟨hbus, htail.own⟩, fun v hv => ?_⟩
      rcases List.mem_cons.mp hv with hv | hv
      · cases hv; exact hitem
      · exact htail.words v hv
    | data | xfer | recv =>
      exact htail.cons (by simpa [sequenceShape] using htail.shape) hbus nofun
    | _ => exact hitem.elim

/-- One phase: a ready poll, the select line low, transfers, the select line high (R223-R225). -/
theorem SequenceSound.phase (hbus : usesBus i = true) {body : List Item}
    (hbody : ∀ item ∈ body, isTransfer p item)
    (h : SequenceSound p i (.driven true) false rest) :
    SequenceSound p i (.driven true) false
      (.poll :: .select false :: (body ++ .select true :: rest)) := by
  have hselect : ∀ l, itemOf i (.select l) = true := fun l => by simp [itemOf, hbus]
  have hhigh : SequenceSound p i (.driven false) false (.select true :: rest) :=
    h.cons (by simpa [sequenceShape] using h.shape) (hselect _) nofun
  have hlow := hhigh.transfers hbus hbody
  have hselected : SequenceSound p i (.driven true) true
      (.select false :: (body ++ .select true :: rest)) :=
    hlow.cons (by simpa [sequenceShape] using hlow.shape) (hselect _) nofun
  exact hselected.cons (by simpa [sequenceShape] using hselected.shape) hbus nofun

theorem preambles_issued (c : Codes) : Config.preambleCmd ∈ c.issued ∧
    Config.preambleWrite ∈ c.issued ∧ Config.preambleRead ∈ c.issued := by
  simp [Codes.issued]

theorem SequenceSound.phaseCmd (hbus : usesBus i = true) {c : Word16} (hc : c ∈ p.codes.issued)
    (h : SequenceSound p i (.driven true) false rest) :
    SequenceSound p i (.driven true) false (phaseCmd c ++ rest) := by
  obtain ⟨hpre, -, -⟩ := preambles_issued p.codes
  exact h.phase hbus (body := [.op Config.preambleCmd, .op c]) (by simp [isTransfer, hpre, hc])

theorem SequenceSound.phaseWrite (hbus : usesBus i = true) (ws : List Word16)
    (h : SequenceSound p i (.driven true) false rest) :
    SequenceSound p i (.driven true) false (phaseWrite ws ++ rest) := by
  obtain ⟨-, hpre, -⟩ := preambles_issued p.codes
  have hphase := h.phase hbus (body := .op Config.preambleWrite :: ws.map .data)
    (by simp [isTransfer, hpre])
  simpa [Machine.phaseWrite] using hphase

theorem recvWords_transfer (keep : Bool) (n : Nat) :
    ∀ item ∈ recvWords keep n, isTransfer p item := by
  induction n with
  | zero => simp [recvWords]
  | succ n ih => simpa [recvWords, recvWord, isTransfer] using ih

theorem SequenceSound.phaseRead (hbus : usesBus i = true) (k : Nat)
    (h : SequenceSound p i (.driven true) false rest) :
    SequenceSound p i (.driven true) false (phaseRead p k ++ rest) := by
  obtain ⟨-, -, hpre⟩ := preambles_issued p.codes
  have hphase := h.phase hbus
    (body := .op Config.preambleRead :: (recvWords false p.readDummyWords ++ recvWords true k)) (by
      intro item hitem
      rcases List.mem_cons.mp hitem with rfl | hitem
      · exact hpre
      · rcases List.mem_append.mp hitem with hitem | hitem
        · exact recvWords_transfer _ _ item hitem
        · exact recvWords_transfer _ _ item hitem)
  simpa [Machine.phaseRead] using hphase

theorem SequenceSound.writeCmdArgs (hbus : usesBus i = true) {c : Word16}
    (hc : c ∈ p.codes.issued) (args : List Word16)
    (h : SequenceSound p i (.driven true) false rest) :
    SequenceSound p i (.driven true) false (writeCmdArgs c args ++ rest) := by
  rw [Machine.writeCmdArgs, List.append_assoc]
  refine .phaseCmd hbus hc ?_
  induction args with
  | nil => exact h
  | cons a args ih =>
    rw [List.flatMap_cons, List.append_assoc]
    exact ih.phaseWrite hbus [a]

/-- The item that ends a command's sequence, by itself. -/
theorem SequenceSound.last {item : Item} (hown : itemOf i item = true)
    (hshape : sequenceShape (.driven true) false [item] = true) :
    SequenceSound p i (.driven true) false [item] := by
  refine ⟨hshape, by simpa using hown, fun w hw => ?_⟩
  obtain rfl := List.mem_singleton.mp hw
  cases hshape

/-- `vcom_set` in CONFIGURE (R228, R262). -/
theorem SequenceSound.vcomSet (t : Word16)
    (h : SequenceSound p .configure (.driven true) false rest) :
    SequenceSound p .configure (.driven true) false (vcomSetSeq p t ++ rest) :=
  h.writeCmdArgs rfl (by simp [Codes.issued]) _

end

/-- A command that uses the bus runs after INIT only (R306). -/
theorem not_uninit_of_usesBus {i : Instr} {c : CState} (hbus : usesBus i = true)
    (hallowed : allowedIn i c = true) : c ≠ .uninit := by
  rintro rfl
  cases i <;> simp [usesBus, allowedIn] at hbus hallowed

/-- After INIT the select line rests high. -/
theorem lineAtRest_high {c : CState} {sel : Line} (hc : c ≠ .uninit) (hf : c ≠ .failed)
    (h : lineAtRest c sel = true) : sel = .driven true := by
  cases c <;> simp_all [lineAtRest]

theorem lineAtRest_of_high {c : CState} (hc : c ≠ .uninit) : lineAtRest c (.driven true) = true := by
  cases c <;> simp_all [lineAtRest]

/-- The sequence a command lays out is sound from the line at rest (R250-R286). -/
theorem sequenceOf_sound {i : Instr} {s : State} {items : List Item}
    (hitems : sequenceOf s i = some items) (hallowed : allowedIn i s.status.cstate = true)
    (hf : s.status.cstate ≠ .failed) (hline : lineAtRest s.status.cstate s.sel = true) :
    SequenceSound s.params i s.sel false items := by
  have hhigh : usesBus i = true → s.sel = .driven true := fun hbus =>
    lineAtRest_high (not_uninit_of_usesBus hbus hallowed) hf hline
  cases i with
  | init =>
    cases hitems
    have hc : s.status.cstate = .uninit := by simpa [allowedIn] using hallowed
    have hsel : s.sel = .undriven := by simpa [lineAtRest, hc] using hline
    rw [hsel]
    refine ⟨by simp [initSeq, sequenceShape], ?_, ?_⟩
    · simp [initSeq, itemOf]
    · simp [initSeq]
  | discover =>
    cases hitems
    rw [hhigh rfl, discoverSeq, List.append_assoc]
    exact ((SequenceSound.last rfl rfl).phaseRead rfl _).phaseCmd rfl (by simp [Codes.issued])
  | configure =>
    cases hitems
    have hend : SequenceSound s.params .configure (.driven true) false
        [.vcomCheck s.regs.vcomTarget, .finishConfigure] :=
      (SequenceSound.last rfl rfl).cons rfl rfl nofun
    rw [hhigh rfl, configureSeq, vcomGetSeq, regWriteSeq]
    simp only [List.append_assoc]
    exact ((hend.phaseRead rfl 1).writeCmdArgs rfl (by simp [Codes.issued]) _).writeCmdArgs rfl
      (by simp [Codes.issued]) _
  | display =>
    cases hitems
    rw [hhigh rfl, displaySeq]
    simp only [List.append_assoc]
    exact ((((SequenceSound.last rfl rfl).writeCmdArgs rfl (by simp [Codes.issued]) _).phaseCmd
      rfl (by simp [Codes.issued])).phaseWrite rfl _).writeCmdArgs rfl (by simp [Codes.issued]) _
  | regRead =>
    cases hitems
    rw [hhigh rfl, regReadSeq, List.append_assoc]
    exact ((SequenceSound.last rfl rfl).phaseRead rfl 1).writeCmdArgs rfl
      (by simp [Codes.issued]) _
  | regWrite =>
    cases hitems
    rw [hhigh rfl, regWriteSeq]
    exact (SequenceSound.last rfl rfl).writeCmdArgs rfl (by simp [Codes.issued]) _
  | _ => cases hitems

end Sys2Proof.Proofs

/-! # Every effect of a step keeps the invariant -/

namespace Sys2Proof.Proofs

open Sys2Proof Sys2Proof.Machine Sys2Proof.Spec

/-! ### The parts that stay -/

/-- The core of the invariant reads the windows, the geometry, FB and CSTATE only. -/
theorem CoreSound.congr {s t : State} (h : CoreSound s) (hparams : t.params = s.params)
    (hmem : t.mem = s.mem) (hgeom : t.regs.panelGeom = s.regs.panelGeom) (hdev : t.dev = s.dev)
    (hfb : t.fb = s.fb) (hc : t.status.cstate = s.status.cstate) : CoreSound t where
  params := by rw [hparams]; exact h.params
  memory := by
    have := h.memory
    rwa [memSound, ← hparams, ← hmem] at this
  geometry := by
    have := h.geometry
    rwa [geometrySound, ← hgeom, ← hdev, ← hc] at this
  frameBuffer := by
    have := h.frameBuffer
    rwa [frameBufferSound, ← hparams, ← hfb] at this

/-- The invariant does not see what belongs to the outside. -/
theorem inv_of_sameBlock {s u : State} (hu : SameBlock s u) (h : s.inv = true) : u.inv = true := by
  obtain ⟨_, _, _, rfl⟩ := hu
  exact h

/-- A capacity in use fits its window's region of the address map (R6, R80). -/
theorem capacity_le_span {p : Params} (hp : p.wf = true) (w : Window) :
    w.capacity p ≤ Window.span := by
  simp only [Params.wf, Params.capacitiesWf, Bool.and_eq_true, decide_eq_true_eq] at hp
  obtain ⟨⟨⟨⟨hframe, hregion, -, hpacked⟩, -⟩, -⟩, -⟩ := hp
  cases w <;> simp only [Window.capacity, Window.span] <;> omega

/-- A byte of an access within a window lies in a window. -/
theorem windowAt_of_inWindow {p : Params} {offset n a : Nat} {w : Window}
    (h : inWindow p offset n w = true) (hlo : offset ≤ a) (hhi : a < offset + n) :
    (windowAt p a 1).isSome = true := by
  rw [windowAt, List.find?_isSome]
  refine ⟨w, by cases w <;> simp, ?_⟩
  simp only [inWindow, decide_eq_true_eq] at h ⊢
  omega

/-- Bytes written within a window leave the memory sound (R80, R83). -/
theorem memSound_writeBytes {s : State} {w : Window} {offset : Nat} {bs : List Byte}
    (h : memSound s = true) (hin : inWindow s.params offset bs.length w = true) :
    memSound { s with mem := Memory.writeBytes s.mem offset bs } = true := by
  simp only [memSound, Bool.and_eq_true, List.all_eq_true] at h ⊢
  obtain ⟨hwf, hcells⟩ := h
  refine ⟨writeBytes_keeps_wf _ _ hwf, fun c hc => ?_⟩
  rcases mem_writeBytes hc with hc | ⟨hlo, hhi⟩
  · exact hcells c hc
  · exact windowAt_of_inWindow hin hlo hhi

/-! ### Completions -/

/-- A completion meets the invariant where the command ran soundly and, unless the error is fatal, the
select line is at rest (R301, R302). -/
theorem inv_complete {s : State} {e : ErrCode} (core : CoreSound s)
    (hc : s.status.cstate ≠ .failed)
    (hline : e.fatal = true ∨ lineAtRest s.status.cstate s.sel = true) :
    (complete e s).inv = true := by
  have hgeom : geometrySound (complete e s) = true := by
    have hgeom := core.geometry
    simp only [geometrySound, complete_status, complete_regs, complete_dev, cstateAfter]
    split
    · simp
    · exact hgeom
  refine Idle.inv ⟨rfl, rfl, by simp, ?_, fun _ => rfl, ?_⟩
    ⟨core.params, core.memory, hgeom, core.frameBuffer⟩
  · cases hfatal : e.fatal <;> simp [cstateAfter, hfatal, hc]
  · simp only [complete_status, complete_sel, cstateAfter]
    split
    · rfl
    · rename_i hnot; exact hline.resolve_left hnot

/-- INIT's commit leaves RESET with the select line high (R250). -/
theorem inv_commitInit {s : State} (core : CoreSound s) (hsel : s.sel = .driven true) :
    (commitInit s).inv = true := by
  refine inv_complete ⟨core.params, core.memory, ?_, core.frameBuffer⟩ (by simp) (.inr ?_)
  · simp [geometrySound]
  · simp [lineAtRest, hsel]

/-- DISCOVER's commit: a panel it cannot serve is a fatal error; else PANEL_GEOM is the geometry of
DeviceInfo and FB holds at most FB_CAP bytes (R256, R257). -/
theorem inv_commitDiscover {s : State} (core : CoreSound s) (hc : s.status.cstate ≠ .failed)
    (hsel : s.sel = .driven true) : (commitDiscover s).inv = true := by
  simp only [commitDiscover]
  split
  · exact inv_complete core hc (.inl rfl)
  · rename_i hok
    simp only [not_or, not_lt] at hok
    obtain ⟨-, -, hcap⟩ := hok
    refine inv_complete ⟨core.params, core.memory, ?_, ?_⟩ (by simp) (.inr ?_)
    · simp [geometrySound, deviceInfoOf]
    · simp [frameBufferSound, hcap]
    · simp [lineAtRest, hsel]

/-- CONFIGURE's commit keeps the geometry of DISCOVERED (R262). -/
theorem inv_commitConfigure {s : State} (core : CoreSound s) (hc : s.status.cstate = .discovered)
    (hsel : s.sel = .driven true) : (commitConfigure s).inv = true := by
  refine inv_complete ⟨core.params, core.memory, ?_, core.frameBuffer⟩ (by simp) (.inr ?_)
  · have hgeom := core.geometry
    simpa [geometrySound, hc] using hgeom
  · simp [lineAtRest, hsel]

/-- REG_READ's commit (R282). -/
theorem inv_commitRegRead {s : State} (core : CoreSound s) (hc : s.status.cstate ≠ .failed)
    (hline : lineAtRest s.status.cstate s.sel = true) : (commitRegRead s).inv = true :=
  inv_complete (core.congr rfl rfl rfl rfl rfl rfl) hc (.inr hline)

/-! ### One item -/

/-- A sequence begins with a Select(0) exactly where a ready poll comes before it. -/
theorem released_of_shape {sel : Line} {polled : Bool} {items : List Item}
    (h : sequenceShape sel polled items = true) : released items = polled := by
  cases items with
  | nil => cases h
  | cons item rest =>
    cases item with
    | select l => cases l <;> cases polled <;> simp_all [sequenceShape, released]
    | _ => cases polled <;> simp_all [sequenceShape, released]

section
variable {i : Instr} {s t : State}

/-- The sequence moves on: the machine is still midway, at another position and with other lines. -/
theorem Midway.moves {polled : Bool} (h : Midway i s) (core : CoreSound s)
    (ht : t = { s with
      seq := t.seq, sel := t.sel, rst := t.rst, trace := t.trace, oracle := t.oracle })
    (hseq : SequenceSound s.params i t.sel polled t.seq.items)
    (hready : polled = true → lastIsReady s.params t.trace.getLast? = true) : t.inv = true := by
  have hrel := released_of_shape hseq.shape
  rw [← hrel] at hseq hready
  rw [ht]
  exact Midway.inv ⟨h.running, h.command, h.allowed, h.clear, hseq, hready⟩
    (core.congr rfl rfl rfl rfl rfl rfl)

variable {item : Item} {rest : List Item}

/-- The shape of what a midway machine has left, with its first item in view. -/
theorem Midway.shape (h : Midway i s) (hitems : s.seq.items = item :: rest) :
    SequenceSound s.params i s.sel (released (item :: rest)) (item :: rest) := by
  have := h.sequence
  rwa [hitems] at this

/-- The first item is one of the running command's. -/
theorem Midway.own (h : Midway i s) (hitems : s.seq.items = item :: rest) :
    itemOf i item = true :=
  h.sequence.own item (by simp [hitems])

/-- A command that uses the bus completes with the select line at rest, when it is high. -/
theorem Midway.lineAtRest (h : Midway i s) (hbus : usesBus i = true) (hsel : s.sel = .driven true) :
    lineAtRest s.status.cstate s.sel = true := by
  rw [hsel]
  exact lineAtRest_of_high (not_uninit_of_usesBus hbus h.allowed)

theorem Midway.doInit_inv (h : Midway i s) (core : CoreSound s)
    (hitems : s.seq.items = .initCall :: rest) : (doInit rest s).inv = true := by
  have hseq := h.shape hitems
  have hshape := hseq.shape
  simp only [sequenceShape, Bool.and_eq_true] at hshape
  unfold doInit
  split
  · exact h.inv core
  · simp only
    split
    · exact h.moves core rfl (hseq.tail hshape.2) nofun
    · exact inv_complete (core.congr rfl rfl rfl rfl rfl rfl) h.clear.cstate (.inl rfl)

theorem Midway.doPoll_inv (h : Midway i s) (core : CoreSound s)
    (hitems : s.seq.items = .poll :: rest) : (doPoll rest s).inv = true := by
  have hseq := h.shape hitems
  have hshape := hseq.shape
  simp only [sequenceShape, Bool.and_eq_true, decide_eq_true_eq] at hshape
  obtain ⟨⟨-, hsel⟩, hrest⟩ := hshape
  unfold doPoll
  split
  · exact h.inv core
  · rename_i l more _
    simp only
    split
    · rename_i hl
      exact h.moves core rfl (hseq.tail hrest) (fun _ => by simp [lastIsReady, hl])
    · split
      · exact inv_complete (core.congr rfl rfl rfl rfl rfl rfl) h.clear.cstate
          (.inr (h.lineAtRest (h.own hitems) hsel))
      · refine h.moves core rfl (polled := false) ?_ nofun
        simpa [hitems, selAfter, released] using hseq

theorem Midway.doXfer_inv {b : Byte} (h : Midway i s) (core : CoreSound s)
    (hitems : s.seq.items = .xfer b :: rest) : (doXfer b rest s).inv = true := by
  have hseq := h.shape hitems
  have hshape := hseq.shape
  simp only [sequenceShape, Bool.and_eq_true] at hshape
  unfold doXfer
  split
  · exact h.inv core
  · exact h.moves core rfl (hseq.tail hshape.2) nofun

theorem Midway.doRecv_inv {keep : Bool} (h : Midway i s) (core : CoreSound s)
    (hitems : s.seq.items = .recv keep :: rest) : (doRecv keep rest s).inv = true := by
  have hseq := h.shape hitems
  have hshape := hseq.shape
  simp only [sequenceShape, Bool.and_eq_true] at hshape
  unfold doRecv
  split
  · exact h.inv core
  · simp only
    split <;> exact h.moves core rfl (hseq.tail hshape.2) nofun

/-- A word about to be sent becomes its two Xfers (R221). -/
theorem Midway.pushWord_inv {w : Word16} (h : Midway i s) (core : CoreSound s)
    (hitems : s.seq.items = item :: rest) (hbus : usesBus i = true)
    (hshape : s.sel = .driven false ∧ sequenceShape s.sel false rest = true) :
    (pushWord w rest s).inv = true := by
  obtain ⟨hsel, hrest⟩ := hshape
  rw [hsel] at hrest
  refine h.moves core rfl (polled := false) ?_ nofun
  show SequenceSound s.params i s.sel false
    ((wordBytes s.params.wireWordOrder w).map .xfer ++ rest)
  rw [hsel]
  exact ((h.shape hitems).tail hrest).transfers hbus (by simp [isTransfer])

theorem Midway.select_inv {l : Level} (h : Midway i s) (core : CoreSound s)
    (hitems : s.seq.items = .select l :: rest) :
    (setItems rest (emit (.select l) s)).inv = true := by
  have hseq := h.shape hitems
  have hshape := hseq.shape
  cases l <;> simp only [sequenceShape, Bool.and_eq_true] at hshape <;>
    exact h.moves core rfl (hseq.tail hshape.2) nofun

/-- An event that leaves the select line, with the shape of what follows it. -/
theorem Midway.emit_inv {e : Event} (h : Midway i s) (core : CoreSound s)
    (hitems : s.seq.items = item :: rest) (hkeeps : selAfter e s.sel = s.sel)
    (hrest : sequenceShape s.sel false rest = true) : (setItems rest (emit e s)).inv = true := by
  refine h.moves core rfl (polled := false) ?_ nofun
  show SequenceSound s.params i (selAfter e s.sel) false rest
  rw [hkeeps]
  exact (h.shape hitems).tail hrest

theorem Midway.vcomBranch_inv {v : Word16} (h : Midway i s) (core : CoreSound s)
    (hitems : s.seq.items = .vcomCheck v :: rest) : (vcomBranch v rest s).inv = true := by
  have hi : i = .configure := by simpa [itemOf] using h.own hitems
  subst hi
  have hseq := h.shape hitems
  have hshape := hseq.shape
  simp only [sequenceShape, Bool.and_eq_true, decide_eq_true_eq] at hshape
  obtain ⟨⟨-, hsel⟩, hrest⟩ := hshape
  rw [hsel] at hrest
  refine h.moves core rfl (polled := false) ?_ nofun
  simp only [vcomBranch, setItems_seq, setItems_sel, hsel]
  split
  · exact hseq.tail hrest
  · exact (hseq.tail hrest).vcomSet v

/-- One item of a sound sequence keeps the invariant. -/
theorem Midway.perform_inv (h : Midway i s) (core : CoreSound s) : (perform s).inv = true := by
  rcases hitems : s.seq.items with _ | ⟨item, rest⟩
  · rw [perform_nil hitems]; exact h.inv core
  have hown := h.own hitems
  have hshape := (h.shape hitems).shape
  cases item <;> simp only [perform, hitems] <;>
    simp only [sequenceShape, Bool.and_eq_true, decide_eq_true_eq, Bool.false_eq_true] at hshape
  case initCall => exact h.doInit_inv core hitems
  case config => exact h.emit_inv core hitems rfl hshape.2
  case pinDir => exact h.emit_inv core hitems rfl hshape.2
  case select => exact h.select_inv core hitems
  case writeRst => exact h.emit_inv core hitems rfl hshape.2
  case delay => exact h.emit_inv core hitems rfl hshape.2
  case poll => exact h.doPoll_inv core hitems
  case op => exact h.pushWord_inv core hitems hown ⟨hshape.1.2, hshape.2⟩
  case data => exact h.pushWord_inv core hitems hown ⟨hshape.1.2, hshape.2⟩
  case xfer => exact h.doXfer_inv core hitems
  case recv => exact h.doRecv_inv core hitems
  case vcomCheck => exact h.vcomBranch_inv core hitems
  case finishInit => exact inv_commitInit core hshape.1.2
  case finishDiscover => exact inv_commitDiscover core h.clear.cstate hshape.1.2
  case finishConfigure =>
    have hi : i = .configure := by simpa [itemOf] using hown
    have hc : s.status.cstate = .discovered := by simpa [hi, allowedIn] using h.allowed
    exact inv_commitConfigure core hc hshape.1.2
  case finishRegRead =>
    have hi : i = .regRead := by simpa [itemOf] using hown
    exact inv_commitRegRead core h.clear.cstate (h.lineAtRest (by rw [hi]; rfl) hshape.1.2)
  case finish =>
    have hi : i = .display ∨ i = .regWrite := by simpa [itemOf] using hown
    refine inv_complete core h.clear.cstate (.inr (h.lineAtRest ?_ hshape.1.2))
    rcases hi with rfl | rfl <;> rfl

end

/-- One item keeps the invariant. -/
theorem perform_inv {s : State} (h : s.inv = true) : (perform s).inv = true := by
  obtain ⟨core, hidle | ⟨i, hacc⟩ | ⟨i, hmid⟩⟩ := (inv_iff s).mp h
  · rw [perform_nil (by rw [hidle.seq]; rfl)]; exact h
  · rw [perform, hacc.items]; exact h
  · exact hmid.perform_inv core

theorem inv_advance {s : State} (n : Nat) (h : s.inv = true) : (advance n s).inv = true :=
  advance_keeps (P := fun s => s.inv = true) (fun _ => perform_inv) n h

/-! ### Meanings -/

/-- The state a meaning starts from: accepted, not FAILED, STATUS clear, the lines at rest. Where the
sequencer stands and which command is named running does not matter to it. -/
structure Startable (s : State) : Prop where
  core : CoreSound s
  clear : StatusClear s.status
  line : lineAtRest s.status.cstate s.sel = true

section
variable {i : Instr} {s t : State}

/-- A command completes from its start, whatever it has stored. -/
theorem Startable.complete_inv (h : Startable s) (core : CoreSound t)
    (hc : t.status.cstate = s.status.cstate) (hsel : t.sel = s.sel) (e : ErrCode) :
    (complete e t).inv = true :=
  inv_complete core (hc ▸ h.clear.cstate) (.inr (by rw [hc, hsel]; exact h.line))

/-- The sequence a command lays out when it starts. -/
theorem Startable.sequence_inv (h : Startable s) (hi : i.isCommand = true)
    (hallowed : allowedIn i s.status.cstate = true) {items : List Item}
    (hitems : sequenceOf s i = some items) :
    State.inv { s with
      running := some i
      seq := { items := items, polls := 0, rx := [], bound := s.regs.timeout.toNat } } = true := by
  have hseq := sequenceOf_sound hitems hallowed h.clear.cstate h.line
  have hrel := released_of_shape hseq.shape
  refine Midway.inv ⟨rfl, hi, hallowed, h.clear, ?_, ?_⟩ (h.core.congr rfl rfl rfl rfl rfl rfl)
  · rw [hrel]; exact hseq
  · rw [hrel]; nofun

theorem Startable.runSequence_inv (h : Startable s) (hi : i.isCommand = true)
    (hallowed : allowedIn i s.status.cstate = true) {items : List Item}
    (hitems : sequenceOf s i = some items) : (runSequence i items s).inv = true := by
  have hstart := h.sequence_inv hi hallowed hitems
  simp only [runSequence]
  split
  · exact hstart
  · exact inv_advance _ hstart

/-- The meaning of a command leads from its start to a state that meets the invariant. -/
theorem Startable.exec_inv (h : Startable s) (hi : i.isCommand = true)
    (hexec : exec i s = .next t) : t.inv = true := by
  cases exec_effect hexec with
  | completes e v =>
    exact h.complete_inv (h.core.congr rfl rfl rfl rfl rfl rfl) rfl rfl e
  | stores w bs regs v hfits hgeom =>
    refine h.complete_inv (t := setRvalid v { s with mem := _, regs := regs })
      ⟨h.core.params, ?_, ?_, h.core.frameBuffer⟩ rfl rfl .none
    · refine memSound_writeBytes h.core.memory (w := w) ?_
      have hspan := capacity_le_span h.core.params w
      simp only [inWindow, decide_eq_true_eq]
      omega
    · have hcore := h.core.geometry
      rwa [geometrySound, ← hgeom] at hcore
  | draws bs _ _ _ hcap =>
    exact h.complete_inv (t := { s with fb := bs }) ⟨h.core.params, h.core.memory, h.core.geometry,
      by simp [frameBufferSound, hcap]⟩ rfl rfl .none
  | runs items hallowed hitems => exact h.runSequence_inv hi hallowed hitems
  | sends w hw => rw [hi] at hw; cases hw

end

/-! ### Steps -/

theorem inv_externalReset {s : State} (h : s.params.wf = true) : (externalReset s).inv = true :=
  Idle.inv ⟨rfl, rfl, by simp [Status.reset], by simp [Status.reset, ErrCode.fatal],
    by simp [Status.reset], rfl⟩ ⟨h, rfl, rfl, by simp [frameBufferSound]⟩

/-- A rejected write sets REJ, of which the invariant says nothing. -/
theorem inv_setRej {s : State} (h : s.inv = true) : (setRej s).inv = true := h

/-- A block that runs no command and meets the invariant is idle. -/
theorem idle_of_inv {s : State} (h : s.inv = true) (hrun : s.running = none) :
    CoreSound s ∧ Idle s := by
  obtain ⟨core, hidle | ⟨i, hacc⟩ | ⟨i, hmid⟩⟩ := (inv_iff s).mp h
  · exact ⟨core, hidle⟩
  · rw [hacc.running] at hrun; cases hrun
  · rw [hmid.running] at hrun; cases hrun

/-- A command whose mark stands in the sequence has been accepted and has not begun. -/
theorem accepted_of_inv {s : State} {i : Instr} {rest : List Item} (h : s.inv = true)
    (hrun : s.running = some i) (hitems : s.seq.items = .begin :: rest) :
    CoreSound s ∧ Accepted i s := by
  obtain ⟨core, hidle | ⟨j, hacc⟩ | ⟨j, hmid⟩⟩ := (inv_iff s).mp h
  · rw [hidle.running] at hrun; cases hrun
  · obtain rfl : j = i := Option.some.inj (hacc.running.symm.trans hrun)
    exact ⟨core, hacc⟩
  · have hbegin := begin_not_mem_of_shape hmid.sequence.shape
    rw [hitems] at hbegin
    exact absurd List.mem_cons_self hbegin

/-- What an idle block's write may change, so long as the core of the invariant stays. -/
theorem Idle.inv_of_write {s : State} (h : Idle s) {mem : Memory} {regs : Regs}
    (core : CoreSound { s with mem := mem, regs := regs }) :
    State.inv { s with mem := mem, regs := regs } = true :=
  Idle.inv ⟨h.running, h.seq, h.err, h.fatal, h.done, h.line⟩ core

/-- A register write keeps the geometry: PANEL_GEOM is locked once it must agree with DEV_GEOM
(R35). -/
theorem inv_writeReg {s : State} (r : HostReg) (v : Word32) (hrun : s.running = none)
    (h : s.inv = true) : (writeReg r v s).inv = true := by
  obtain ⟨core, hidle⟩ := idle_of_inv h hrun
  cases r with
  | panelGeom =>
    simp only [writeReg]
    split
    · rename_i hc
      refine hidle.inv_of_write ⟨core.params, core.memory, ?_, core.frameBuffer⟩
      rcases hc with hc | hc <;> simp [geometrySound, hc]
    · exact h
  | _ => exact h

theorem inv_acceptIllegal {s : State} (hrun : s.running = none) (hc : s.status.cstate ≠ .failed)
    (h : s.inv = true) : (acceptIllegal s).inv = true := by
  obtain ⟨core, hidle⟩ := idle_of_inv h hrun
  exact inv_complete (core.congr rfl rfl rfl rfl rfl rfl) hc (.inr hidle.line)

/-- Acceptance clears STATUS but for RVALID and CSTATE (R303). -/
theorem statusClear_accept {st : Status} (hc : st.cstate ≠ .failed) :
    StatusClear (acceptStatus st) := ⟨rfl, rfl, rfl, hc⟩

theorem inv_accept {s : State} {i : Instr} (hrun : s.running = none)
    (hc : s.status.cstate ≠ .failed) (hi : i.isCommand = true) (h : s.inv = true) :
    (accept i s).inv = true := by
  obtain ⟨core, hidle⟩ := idle_of_inv h hrun
  exact Accepted.inv ⟨rfl, hi, rfl, statusClear_accept hc, hidle.line⟩
    (core.congr rfl rfl rfl rfl rfl rfl)

/-- A command just accepted can start. -/
theorem startable_accept {s : State} {i : Instr} (hrun : s.running = none)
    (hc : s.status.cstate ≠ .failed) (h : s.inv = true) : Startable (accept i s) := by
  obtain ⟨core, hidle⟩ := idle_of_inv h hrun
  exact ⟨core.congr rfl rfl rfl rfl rfl rfl, statusClear_accept hc, hidle.line⟩

/-- A command accepted earlier can start when its turn comes. -/
theorem startable_begin {s : State} {i : Instr} {rest : List Item} (hrun : s.running = some i)
    (hitems : s.seq.items = .begin :: rest) (h : s.inv = true) : Startable (setItems rest s) := by
  obtain ⟨core, hacc⟩ := accepted_of_inv h hrun hitems
  exact ⟨core.congr rfl rfl rfl rfl rfl rfl, hacc.clear, hacc.line⟩

/-- Every effect of a step other than the reset keeps the invariant. -/
theorem StepEffect.inv {s t : State} (ht : StepEffect s t) (h : s.inv = true) : t.inv = true := by
  cases ht with
  | stays hu => exact inv_of_sameBlock hu h
  | rejects hu => exact inv_setRej (inv_of_sameBlock hu h)
  | writesRegister hu r v hrun =>
    exact inv_writeReg r v (hu.running.trans hrun) (inv_of_sameBlock hu h)
  | writesWindow hu w offset bs hrun hin =>
    obtain ⟨core, hidle⟩ := idle_of_inv (inv_of_sameBlock hu h) (hu.running.trans hrun)
    exact hidle.inv_of_write ⟨core.params, memSound_writeBytes core.memory (hu.params ▸ hin),
      core.geometry, core.frameBuffer⟩
  | illegal hu hrun hc =>
    exact inv_acceptIllegal (hu.running.trans hrun) (hu.status ▸ hc) (inv_of_sameBlock hu h)
  | accepts hu i hrun hc hi =>
    exact inv_accept (hu.running.trans hrun) (hu.status ▸ hc) hi (inv_of_sameBlock hu h)
  | acceptsAndRuns hu i hrun hc hi _ hexec =>
    exact (startable_accept (hu.running.trans hrun) (hu.status ▸ hc)
      (inv_of_sameBlock hu h)).exec_inv hi hexec
  | begins hu i rest hrun hitems hexec =>
    have hstart := startable_begin (hu.running.trans hrun) (hu.seq ▸ hitems) (inv_of_sameBlock hu h)
    exact hstart.exec_inv (accepted_of_inv h hrun hitems).2.command hexec
  | skips hu rest hrun hitems =>
    rw [(idle_of_inv h hrun).2.seq] at hitems; cases hitems
  | advances hu n => exact inv_advance n (inv_of_sameBlock hu h)

/-- Settles O52: by the effects of a step, each of which leads from one position of the invariant to
another. -/
theorem everyStepKeepsTheInvariant : Obligations.EveryStepKeepsTheInvariant := by
  intro s t hinv hstep
  rcases step_effect hstep with ⟨-, u, hu, rfl⟩ | ⟨-, ht⟩
  · exact inv_externalReset (hu.params ▸ ((inv_iff s).mp hinv).1.params)
  · exact ht.inv hinv

end Sys2Proof.Proofs

/-! # The trace and the lines (10_state.md R60; 20_memory.md R96; 42_bus_phases.md R220) -/

namespace Sys2Proof.Proofs

open Sys2Proof Sys2Proof.Machine Sys2Proof.Spec

/-- `t` comes after `s` on the bus: the parameters stay, events are appended to the trace, and the
lines follow them. -/
def TraceExtends (s t : State) : Prop :=
  t.params = s.params ∧ ∃ es, t.trace = s.trace ++ es ∧ t.sel = selFollows s.sel es ∧
    t.rst = rstFollows s.rst es

theorem selFollows_append (sel : Line) (es fs : List Event) :
    selFollows sel (es ++ fs) = selFollows (selFollows sel es) fs := by
  induction es generalizing sel with
  | nil => rfl
  | cons e es ih => cases e <;> exact ih _

theorem rstFollows_append (rst : Line) (es fs : List Event) :
    rstFollows rst (es ++ fs) = rstFollows (rstFollows rst es) fs := by
  induction es generalizing rst with
  | nil => rfl
  | cons e es ih => cases e <;> exact ih _

theorem TraceExtends.silent {s t : State} (hparams : t.params = s.params)
    (htrace : t.trace = s.trace) (hsel : t.sel = s.sel) (hrst : t.rst = s.rst) :
    TraceExtends s t :=
  ⟨hparams, [], by simp [htrace], hsel, hrst⟩

theorem TraceExtends.trans {s t u : State} (h : TraceExtends s t) (h' : TraceExtends t u) :
    TraceExtends s u := by
  obtain ⟨hp, es, htr, hsel, hrst⟩ := h
  obtain ⟨hp', fs, htr', hsel', hrst'⟩ := h'
  exact ⟨hp'.trans hp, es ++ fs, by rw [htr', htr, List.append_assoc],
    by rw [hsel', hsel, selFollows_append], by rw [hrst', hrst, rstFollows_append]⟩

theorem TraceExtends.emit (e : Event) (s : State) : TraceExtends s (emit e s) := by
  refine ⟨rfl, [e], rfl, ?_, ?_⟩ <;> cases e <;> rfl

theorem commitDiscover_extends (s : State) : TraceExtends s (commitDiscover s) := by
  simp only [commitDiscover]
  split <;> exact .silent rfl rfl rfl rfl

/-- One item emits at most one event. -/
theorem ItemEffect.extends {s t : State} (h : ItemEffect s t) : TraceExtends s t := by
  cases h with
  | emits e | fails e => exact TraceExtends.emit e s
  | endsDiscover => exact commitDiscover_extends s
  | _ => exact .silent rfl rfl rfl rfl

theorem advance_extends (n : Nat) (s : State) : TraceExtends s (advance n s) :=
  advance_keeps (P := TraceExtends s) (fun t h => h.trans (perform_effect t).extends) n
    (.silent rfl rfl rfl rfl)

theorem runSequence_extends (i : Instr) (items : List Item) (s : State) :
    TraceExtends s (runSequence i items s) := by
  simp only [runSequence]
  split
  · exact .silent rfl rfl rfl rfl
  · exact .trans (.silent rfl rfl rfl rfl) (advance_extends _ _)

theorem sendWord_extends (w : Word16) (s : State) : TraceExtends s (sendWord w s) := by
  simp only [sendWord]
  split
  · exact .silent rfl rfl rfl rfl
  · exact .trans (.silent rfl rfl rfl rfl) (advance_extends 2 _)

theorem exec_extends {i : Instr} {s t : State} (h : exec i s = .next t) : TraceExtends s t := by
  cases exec_effect h with
  | completes | stores | draws => exact .silent rfl rfl rfl rfl
  | runs => exact runSequence_extends _ _ _
  | sends => exact sendWord_extends _ _

theorem writeReg_extends (r : HostReg) (v : Word32) (s : State) :
    TraceExtends s (writeReg r v s) := by
  rw [writeReg_regs]
  exact .silent rfl rfl rfl rfl

theorem SameBlock.extends {s u : State} (h : SameBlock s u) : TraceExtends s u := by
  obtain ⟨_, _, _, rfl⟩ := h
  exact .silent rfl rfl rfl rfl

/-- Every effect of a step other than the reset only appends to the trace. -/
theorem StepEffect.extends {s t : State} (h : StepEffect s t) : TraceExtends s t := by
  cases h with
  | stays hu => exact hu.extends
  | writesRegister hu r v => exact hu.extends.trans (writeReg_extends r v _)
  | rejects hu | writesWindow hu | illegal hu | accepts hu | skips hu =>
    exact hu.extends.trans (.silent rfl rfl rfl rfl)
  | acceptsAndRuns hu i _ _ _ _ hexec =>
    exact (hu.extends.trans (u := accept i _) (.silent rfl rfl rfl rfl)).trans (exec_extends hexec)
  | begins hu i rest _ _ hexec =>
    exact (hu.extends.trans (u := setItems rest _) (.silent rfl rfl rfl rfl)).trans
      (exec_extends hexec)
  | advances hu n => exact hu.extends.trans (advance_extends n _)

/-- Settles O54: by the effects of a step; the reset keeps the trace and leaves the lines undriven. -/
theorem traceGrowsAndLinesFollow : Obligations.TraceGrowsAndLinesFollow := by
  intro s t hstep
  rcases step_effect hstep with ⟨hreset, u, ⟨_, _, _, rfl⟩, rfl⟩ | ⟨hreset, ht⟩
  · exact ⟨rfl, by simp [hreset], fun _ => ⟨rfl, rfl, rfl⟩⟩
  · obtain ⟨hparams, hes⟩ := ht.extends
    exact ⟨hparams, fun _ => hes, by simp [hreset]⟩

end Sys2Proof.Proofs

/-! # Who changes DeviceInfo and the frame buffer (10_state.md R55; 43_controller.md R256, R270) -/

namespace Sys2Proof.Proofs

open Sys2Proof Sys2Proof.Machine Sys2Proof.Spec

/-- DeviceInfo and the frame buffer stay. -/
def KeepsDevice (s t : State) : Prop := t.dev = s.dev ∧ t.fb = s.fb

/-- DISCOVER has ended without error: FB is as large as the panel asks, and zero (R256). -/
def Discovered (t : State) : Prop :=
  t.status.cstate = .discovered ∧
    t.fb = List.replicate (t.dev.panelWidth.toNat * t.dev.panelHeight.toNat / 2) 0

/-- DRAW has ended without error: FB is the PACKED_LEN bytes of PACKED (R270). -/
def Drawn (s t : State) : Prop :=
  t.dev = s.dev ∧ t.status.cstate = s.status.cstate ∧ t.running = none ∧ t.status.errcode = .none ∧
    t.fb.length = s.regs.packedLen.toNat ∧
    ∀ k, k < t.fb.length → t.fb[k]? = Memory.read s.mem (0x04000000 + k)

theorem KeepsDevice.trans {s t u : State} (h : KeepsDevice s t) (h' : KeepsDevice t u) :
    KeepsDevice s u := ⟨h'.1.trans h.1, h'.2.trans h.2⟩

theorem SameBlock.keepsDevice {s u : State} (h : SameBlock s u) : KeepsDevice s u := by
  obtain ⟨_, _, _, rfl⟩ := h
  exact ⟨rfl, rfl⟩

/-- The running command goes on with STATUS as it was, or has ended. -/
def GoesOnOrEnds (s t : State) : Prop :=
  (t.running = s.running ∧ t.status = s.status) ∨ t.running = none

/-- One item keeps DeviceInfo and the frame buffer, unless it is DISCOVER's commit; and the command
goes on or ends. -/
theorem ItemEffect.device {s t : State} (h : ItemEffect s t) :
    (KeepsDevice s t ∧ GoesOnOrEnds s t) ∨
      ((∃ rest, s.seq.items = .finishDiscover :: rest) ∧ Discovered t ∧ t.running = none) := by
  cases h with
  | waits | moves | emits => exact .inl ⟨⟨rfl, rfl⟩, .inl ⟨rfl, rfl⟩⟩
  | endsDiscover rest hitems =>
    simp only [commitDiscover]
    split
    · exact .inl ⟨⟨rfl, rfl⟩, .inr rfl⟩
    · exact .inr ⟨⟨rest, hitems⟩, ⟨rfl, rfl⟩, rfl⟩
  | _ => exact .inl ⟨⟨rfl, rfl⟩, .inr rfl⟩

/-- A command whose sequence reaches DISCOVER's commit is a DISCOVER, allowed in RESET only. -/
theorem Midway.discover {i : Instr} {s : State} {rest : List Item} (h : Midway i s)
    (hitems : s.seq.items = .finishDiscover :: rest) : i = .discover ∧ s.status.cstate = .reset := by
  have hi : i = .discover := by simpa [itemOf] using h.own hitems
  exact ⟨hi, by simpa [hi, allowedIn] using h.allowed⟩

/-- Where no command runs, there is nothing to advance. -/
theorem advance_of_idle {s : State} (h : s.inv = true) (hrun : s.running = none) (n : Nat) :
    advance n s = s := by
  refine advance_fixed (perform_nil ?_) n
  rw [(idle_of_inv h hrun).2.seq]; rfl

/-- Any number of items keeps DeviceInfo and the frame buffer, unless they end a DISCOVER. -/
theorem advance_device {i : Instr} (n : Nat) {s : State} (h : s.inv = true)
    (hrun : s.running = some i) :
    KeepsDevice s (advance n s) ∨
      (i = .discover ∧ s.status.cstate = .reset ∧ Discovered (advance n s)) := by
  induction n generalizing s with
  | zero => exact .inl ⟨rfl, rfl⟩
  | succ n ih =>
    have hinv := perform_inv h
    rw [advance]
    rcases (perform_effect s).device with ⟨hkeeps, ⟨hon, hstatus⟩ | hend⟩ |
      ⟨⟨rest, hitems⟩, hdisc, hend⟩
    · rcases ih hinv (hon.trans hrun) with hk | ⟨hi, hc, hd⟩
      · exact .inl (hkeeps.trans hk)
      · exact .inr ⟨hi, hstatus ▸ hc, hd⟩
    · rw [advance_of_idle hinv hend]
      exact .inl hkeeps
    · rw [advance_of_idle hinv hend]
      obtain ⟨-, hidle | ⟨j, hacc⟩ | ⟨j, hmid⟩⟩ := (inv_iff s).mp h
      · rw [hidle.running] at hrun; cases hrun
      · rw [hacc.items] at hitems; cases hitems
      · obtain rfl : j = i := Option.some.inj (hmid.running.symm.trans hrun)
        obtain ⟨hi, hc⟩ := hmid.discover hitems
        exact .inr ⟨hi, hc, hdisc⟩

/-- A sequence that a command can start keeps DeviceInfo and the frame buffer, unless it ends a
DISCOVER. -/
theorem Startable.runSequence_device {i : Instr} {s : State} (h : Startable s)
    (hi : i.isCommand = true) (hallowed : allowedIn i s.status.cstate = true) {items : List Item}
    (hitems : sequenceOf s i = some items) :
    KeepsDevice s (runSequence i items s) ∨
      (i = .discover ∧ s.status.cstate = .reset ∧ Discovered (runSequence i items s)) := by
  simp only [runSequence]
  split
  · exact .inl ⟨rfl, rfl⟩
  · exact advance_device _ (h.sequence_inv hi hallowed hitems) rfl

/-- The meaning of a command keeps DeviceInfo and the frame buffer, unless it ends a DISCOVER or a
DRAW. -/
theorem Startable.exec_device {i : Instr} {s t : State} (h : Startable s) (hi : i.isCommand = true)
    (hexec : exec i s = .next t) :
    KeepsDevice s t ∨ (i = .discover ∧ s.status.cstate = .reset ∧ Discovered t) ∨
      (i = .draw ∧ s.status.cstate = .ready ∧ Drawn s t) := by
  cases exec_effect hexec with
  | completes | stores => exact .inl ⟨rfl, rfl⟩
  | draws bs hdraw hallowed hread _ =>
    obtain ⟨hlen, hbytes⟩ := readBytes_ok_iff.mp hread
    refine .inr (.inr ⟨hdraw, by simpa [hdraw, allowedIn] using hallowed, rfl, rfl, rfl, rfl, hlen, ?_⟩)
    intro k hk
    rw [List.getElem?_eq_getElem hk]
    exact (hbytes k hk).symm
  | runs items hallowed hitems =>
    exact (h.runSequence_device hi hallowed hitems).imp_right .inl
  | sends w hw => rw [hi] at hw; cases hw

/-- What a step other than the reset does to DeviceInfo and the frame buffer, and as whose step. -/
theorem StepEffect.device {s t : State} (h : StepEffect s t) (hinv : s.inv = true) :
    KeepsDevice s t ∨ (commandOf s .discover ∧ s.status.cstate = .reset ∧ Discovered t) ∨
      (commandOf s .draw ∧ s.status.cstate = .ready ∧ Drawn s t) := by
  cases h with
  | stays hu | rejects hu | writesWindow hu | illegal hu | accepts hu | skips hu =>
    exact .inl hu.keepsDevice
  | writesRegister hu r v => exact .inl (by rw [writeReg_regs]; exact hu.keepsDevice)
  | acceptsAndRuns hu i hrun hc hi hcmd hexec =>
    have hstart := startable_accept (i := i) (hu.running.trans hrun) (hu.status ▸ hc)
      (inv_of_sameBlock hu hinv)
    obtain ⟨_, _, _, rfl⟩ := hu
    rcases hstart.exec_device hi hexec with hk | ⟨rfl, hd⟩ | ⟨rfl, hd⟩
    · exact .inl hk
    · exact .inr (.inl ⟨hcmd, hd⟩)
    · exact .inr (.inr ⟨hcmd, hd⟩)
  | begins hu i rest hrun hitems hexec =>
    have hstart := startable_begin (hu.running.trans hrun) (hu.seq ▸ hitems)
      (inv_of_sameBlock hu hinv)
    have hi := (accepted_of_inv hinv hrun hitems).2.command
    obtain ⟨_, _, _, rfl⟩ := hu
    rcases hstart.exec_device hi hexec with hk | ⟨rfl, hd⟩ | ⟨rfl, hd⟩
    · exact .inl hk
    · exact .inr (.inl ⟨.inl hrun, hd⟩)
    · exact .inr (.inr ⟨.inl hrun, hd⟩)
  | @advances u hu n =>
    have hu' := inv_of_sameBlock hu hinv
    cases hrun : u.running with
    | none => rw [advance_of_idle hu' hrun]; exact .inl hu.keepsDevice
    | some i =>
      rcases advance_device n hu' hrun with hk | ⟨rfl, hd⟩
      · exact .inl (hu.keepsDevice.trans hk)
      · exact .inr (.inl ⟨.inl (hu.running ▸ hrun), hu.status ▸ hd⟩)

/-- Settles O57: by the effects of a step; DISCOVER's commit and DRAW's end are the only ones that
touch DeviceInfo or the frame buffer. -/
theorem frameBufferAndDeviceInfoAreOwned : Obligations.FrameBufferAndDeviceInfoAreOwned := by
  intro s t hinv hstep hreset
  rcases step_effect hstep with ⟨hreset', -⟩ | ⟨-, ht⟩
  · rw [hreset] at hreset'; cases hreset'
  rcases ht.device hinv with ⟨hdev, hfb⟩ | ⟨hcmd, hc, hc', hfb⟩ | ⟨hcmd, hc, hdev, hc', hdrawn⟩
  · exact ⟨.inl hdev, .inl hfb⟩
  · exact ⟨.inr ⟨hcmd, hc, hc'⟩, .inr (.inl ⟨hcmd, hc, hc', hfb⟩)⟩
  · exact ⟨.inl hdev, .inr (.inr ⟨hcmd, hc, hc'.trans hc, hdrawn⟩)⟩

end Sys2Proof.Proofs

/-! # A whole run is its single-item steps (20_memory.md R93, R96) -/

namespace Sys2Proof.Proofs

open Sys2Proof Sys2Proof.Machine Sys2Proof.Spec

/-! ### The pace does not matter to an item -/

/-- The machine under another pace. -/
def atPace (p : Pace) (s : State) : State := { s with pace := p }

/-- One item does the same under either pace. -/
theorem perform_atPace (p : Pace) (s : State) :
    perform (atPace p s) = atPace p (perform s) := by
  rcases hitems : s.seq.items with _ | ⟨item, rest⟩
  · rw [perform_nil hitems, perform_nil (s := atPace p s) hitems]
  have hitems' : (atPace p s).seq.items = item :: rest := hitems
  have horacle : (atPace p s).oracle = s.oracle := rfl
  cases item <;> simp only [perform, hitems, hitems']
  case initCall =>
    cases hl : s.oracle.inits <;> simp only [doInit, horacle, hl, apply_ite (atPace p)]
    rfl
  case poll =>
    cases hl : s.oracle.levels <;> simp only [doPoll, horacle, hl, apply_ite (atPace p)]
    rfl
  case xfer =>
    cases hl : s.oracle.bytes <;> simp only [doXfer, horacle, hl]
    rfl
  case recv =>
    cases hl : s.oracle.bytes <;> simp only [doRecv, horacle, hl, apply_ite (atPace p)]
    rfl
  case finishDiscover => simp only [commitDiscover, apply_ite (atPace p)]; rfl
  all_goals rfl

/-- A run of items does the same under either pace. -/
theorem advance_atPace (p : Pace) (n : Nat) (s : State) :
    advance n (atPace p s) = atPace p (advance n s) := by
  induction n generalizing s with
  | zero => rfl
  | succ n ih => rw [advance, perform_atPace, ih, advance]

/-! ### Nor do the pace and the sequencer's position matter to a meaning -/

/-- The machine with another sequencer position and another pace, of which no meaning's outcome
depends. -/
def restarted (q : Sequencer) (p : Pace) (s : State) : State := atPace p { s with seq := q }

/-- An answer whose next state has another pace. -/
def withPace (p : Pace) : Result → Result
  | .next s => .next (atPace p s)
  | .fault r => .fault r
  | .refused r => .refused r

theorem withPace_next (p : Pace) (s : State) : withPace p (.next s) = .next (atPace p s) := rfl

theorem withPace_ite (p : Pace) (c : Prop) [Decidable c] (r r' : Result) :
    withPace p (if c then r else r') = if c then withPace p r else withPace p r' :=
  apply_ite _ _ _ _

theorem withPace_orFault {α : Type} (p : Pace) (r : Except Nat α) (k : α → Result) :
    withPace p (orFault r k) = orFault r fun v => withPace p (k v) := by
  cases r <;> rfl

section
variable (q : Sequencer) (p : Pace) (s : State)

theorem sequenceOf_restarted (i : Instr) : sequenceOf (restarted q p s) i = sequenceOf s i := by
  cases i <;> rfl

theorem extractRegion_restarted (new : Window) (r : Rect) :
    extractRegion new r (restarted q p s) = withPace p (extractRegion new r s) := by
  simp only [extractRegion, withPace_ite, withPace_orFault, withPace_next]
  rfl

theorem compareBody_restarted (slot : Slot) (prev : Bool) :
    compareBody slot prev (restarted q p s) = withPace p (compareBody slot prev s) := by
  simp only [compareBody, withPace_ite, withPace_orFault, withPace_next]
  refine if_congr Iff.rfl rfl (congrArg _ (funext fun changed => ?_))
  cases boundingBox changed with
  | none => rfl
  | some b =>
    have hangle : angle (restarted q p s) = angle s := rfl
    have hwidth : panelWidth (restarted q p s) = panelWidth s := rfl
    have hheight : panelHeight (restarted q p s) = panelHeight s := rfl
    simp only [hangle, hwidth, hheight]
    split
    · rfl
    · exact extractRegion_restarted q p s _ _

theorem rotateBody_restarted : rotateBody (restarted q p s) = withPace p (rotateBody s) := by
  simp only [rotateBody, withPace_ite, withPace_orFault, withPace_next]
  rfl

theorem packBody_restarted : packBody (restarted q p s) = withPace p (packBody s) := by
  simp only [packBody, withPace_ite, withPace_orFault, withPace_next]
  rfl

theorem drawBody_restarted : drawBody (restarted q p s) = withPace p (drawBody s) := by
  simp only [drawBody, withPace_ite, withPace_orFault, withPace_next]
  rfl

end

/-- The answer is a state from which the items lead to `t`, but for the pace. -/
def LeadsItemwiseTo (t : State) (r : Result) : Prop :=
  ∃ n t0, r = .next t0 ∧ atPace .single t = advance n t0

theorem LeadsItemwiseTo.of_withPace {r r' : Result} {t : State} (h : r = .next t)
    (hr : r' = withPace .single r) : LeadsItemwiseTo t r' :=
  ⟨0, atPace .single t, by rw [hr, h]; rfl, rfl⟩

section
variable {q : Sequencer} {s t : State}

theorem LeadsItemwiseTo.of_gated {i : Instr} {body : State → Result}
    (h : gated i body s = .next t)
    (hbody : body s = .next t → LeadsItemwiseTo t (body (restarted q .single s))) :
    LeadsItemwiseTo t (gated i body (restarted q .single s)) := by
  unfold gated at h ⊢
  split at h <;> rename_i hallowed
  · rw [if_pos (by exact hallowed)]
    exact hbody h
  · rw [if_neg (by exact hallowed)]
    cases h
    exact ⟨0, _, rfl, rfl⟩

/-- A sequence run at once is the sequence laid out and then done item by item. -/
theorem LeadsItemwiseTo.runSequence (i : Instr) (items : List Item) (hpace : s.pace = .whole) :
    LeadsItemwiseTo (runSequence i items s)
      (.next (runSequence i items (restarted q .single s))) := by
  simp only [Machine.runSequence, hpace]
  exact ⟨_, _, rfl, (advance_atPace .single _ _).symm⟩

/-- The meaning of a command, under the pace whole, does what it does item by item. -/
theorem LeadsItemwiseTo.exec {i : Instr} (hi : i.isCommand = true) (hpace : s.pace = .whole)
    (h : exec i s = .next t) : LeadsItemwiseTo t (exec i (restarted q .single s)) := by
  have hrun : gated i (fun s => .next (Machine.runSequence i ((sequenceOf s i).getD []) s)) s
      = .next t → LeadsItemwiseTo t (gated i
        (fun s => .next (Machine.runSequence i ((sequenceOf s i).getD []) s))
        (restarted q .single s)) := by
    intro hg
    refine .of_gated hg fun hbody => ?_
    cases hbody
    rw [sequenceOf_restarted]
    exact .runSequence i _ hpace
  cases i with
  | compare slot prev =>
    exact .of_gated h fun hbody => .of_withPace hbody (compareBody_restarted q _ s slot prev)
  | rotate => exact .of_gated h fun hbody => .of_withPace hbody (rotateBody_restarted q _ s)
  | pack => exact .of_gated h fun hbody => .of_withPace hbody (packBody_restarted q _ s)
  | draw => exact .of_gated h fun hbody => .of_withPace hbody (drawBody_restarted q _ s)
  | display =>
    refine .of_gated h fun hbody => ?_
    unfold displayBody at hbody ⊢
    simp only at hbody ⊢
    split at hbody <;> rename_i hshort <;> cases hbody
    · rw [if_pos (by exact hshort)]
      exact ⟨0, _, rfl, rfl⟩
    · rw [if_neg (by exact hshort)]
      exact .runSequence _ _ hpace
  | init | discover | configure | regRead | regWrite => exact hrun h
  | _ => cases hi

end

/-! ### A begun command moves one item a step -/

/-- The sequence of a begun command, or none, stands in a machine that takes one item a step. -/
structure Begun (s : State) : Prop where
  inv : s.inv = true
  started : .begin ∉ s.seq.items
  quiet : s.inputs = []
  pace : s.pace = .single

/-- A word of the table decodes (R115, R120). -/
theorem decodeWire_of_issued {c : Codes} {w : Word16} (h : w ∈ c.issued) :
    ∃ i, decodeWire c w = .ok i := by
  unfold decodeWire
  split_ifs
  case neg => simp_all [Codes.issued]
  all_goals exact ⟨_, rfl⟩

/-- A fetched word of the table becomes its two Xfers: the item's effect (R221). -/
theorem runWireWord_single {s : State} {w : Word16} {rest : List Item}
    (hitems : s.seq.items = .op w :: rest) (hw : w ∈ s.params.codes.issued)
    (hpace : s.pace = .single) : runWireWord w rest s = .next (perform s) := by
  obtain ⟨i, hd⟩ := decodeWire_of_issued hw
  have hsent : exec i (setItems rest s) = .next (sendWord w (setItems rest s)) :=
    exec_of_decodeWire hd
  simp only [runWireWord, hd, hsent, perform_op hitems]
  simp only [sendWord, pushWord, setItems, hpace]

/-- No item brings back the mark of a command that has not begun. -/
theorem begin_not_mem_perform {s : State} (h : .begin ∉ s.seq.items) :
    .begin ∉ (perform s).seq.items := by
  rcases hitems : s.seq.items with _ | ⟨item, rest⟩
  · rw [perform_nil hitems]; exact h
  have hrest : .begin ∉ rest := fun hb => h (by simp [hitems, hb])
  cases item <;> simp only [perform, hitems]
  case initCall =>
    unfold doInit
    split
    · exact h
    · simp only
      split
      · exact hrest
      · exact nofun
  case poll =>
    unfold doPoll
    split
    · exact h
    · simp only
      split
      · exact hrest
      · split
        · exact nofun
        · exact h
  case op | data => simpa [pushWord] using hrest
  case xfer => unfold doXfer; split; exacts [h, hrest]
  case recv => unfold doRecv; split; exacts [h, by simp only; split <;> exact hrest]
  case vcomCheck =>
    simp only [vcomBranch, setItems_seq]
    split <;> simp [vcomSetSeq, writeCmdArgs, phaseCmd, phaseWrite, hrest]
  case finishDiscover => simp only [commitDiscover]; split <;> exact nofun
  case finishInit | finishConfigure | finishRegRead | finish => exact nofun
  case config | pinDir | select | writeRst | delay => exact hrest
  -- a command that has not begun
  exact hitems ▸ h

theorem Begun.perform {s : State} (h : Begun s) : Begun (perform s) := by
  obtain ⟨-, -, hinputs, hpace, -, -⟩ := perform_frame s
  exact ⟨perform_inv h.inv, begin_not_mem_perform h.started, hinputs.trans h.quiet,
    hpace.trans h.pace⟩

/-- With no input left, a step is the block's own turn. -/
theorem step_of_no_input {s : State} (h : s.inputs = []) : step s = blockTurn s := by
  simp only [step, takeInput, h]

/-- The turn of a command that has not begun runs its meaning (R303). -/
theorem blockTurn_begin {i : Instr} {s : State} {rest : List Item} (hrun : s.running = some i)
    (hitems : s.seq.items = .begin :: rest) : blockTurn s = exec i (setItems rest s) := by
  simp only [blockTurn, hitems, beginRunning, hrun]

/-- A step of a begun command is its next item. -/
theorem Begun.step {s : State} (h : Begun s) : step s = .next (Machine.perform s) := by
  rw [step_of_no_input h.quiet]
  rcases blockTurn_cases s with ⟨hitems, hb⟩ | ⟨rest, hitems, -⟩ | ⟨w, rest, hitems, hb⟩ | ⟨-, -, hb⟩
  · rw [hb, perform_nil hitems]
  · exact absurd (by simp [hitems]) h.started
  · obtain ⟨-, -, -, -, hwords⟩ := (inv_iff_parts s).mp h.inv
    rw [hb]
    exact runWireWord_single hitems ((wordsSound_iff s).mp hwords w (by simp [hitems])) h.pace
  · exact hb

theorem steps_succ {s t : State} (h : step s = .next t) (n : Nat) :
    steps (n + 1) s = steps n t := by
  simp only [steps, h]

/-- The steps of a begun command are its items. -/
theorem Begun.steps {s : State} (h : Begun s) (n : Nat) : steps n s = .next (advance n s) := by
  induction n generalizing s with
  | zero => rfl
  | succ n ih => rw [steps_succ h.step]; exact ih h.perform

/-- The meaning of a command leaves its sequence begun, or the block idle. -/
theorem Startable.begun {i : Instr} {s t : State} (h : Startable s) (hi : i.isCommand = true)
    (hquiet : s.inputs = []) (hpace : s.pace = .single) (hexec : exec i s = .next t) : Begun t := by
  have hinv := h.exec_inv hi hexec
  cases exec_effect hexec with
  | completes | stores | draws => exact ⟨hinv, nofun, hquiet, hpace⟩
  | runs items hallowed hitems =>
    have hshape := (sequenceOf_sound hitems hallowed h.clear.cstate h.line).shape
    obtain ⟨-, -, hinputs, hpace', -, -⟩ := runSequence_frame i items s
    refine ⟨hinv, ?_, hinputs.trans hquiet, hpace'.trans hpace⟩
    simp only [runSequence, hpace]
    exact begin_not_mem_of_shape hshape
  | sends w hw => rw [hi] at hw; cases hw

/-- Settles O58: the first step runs the command's meaning, which lays out its sequence; each later
one does an item of it, and an item does the same under either pace. -/
theorem wholeRunIsTheItemSteps : Obligations.WholeRunIsTheItemSteps := by
  intro i s t hinv hrun hitems hquiet hexec
  have hi : i.isCommand = true := (accepted_of_inv hinv hrun hitems).2.command
  have hstart : Startable (setItems [] (atPace .single s)) :=
    startable_begin (s := atPace .single s) hrun hitems hinv
  obtain ⟨n, t0, hfirst, ht⟩ :=
    LeadsItemwiseTo.exec (q := { s.seq with items := [], polls := 0 }) hi rfl hexec
  have hbegun : Begun t0 := hstart.begun hi hquiet rfl hfirst
  have hstep : step (atPace .single s) = .next t0 := by
    rw [step_of_no_input (s := atPace .single s) hquiet,
      blockTurn_begin (s := atPace .single s) hrun hitems]
    exact hfirst
  refine ⟨n + 1, ?_⟩
  calc steps (n + 1) (atPace .single s)
    _ = steps n t0 := steps_succ hstep n
    _ = .next (advance n t0) := hbegun.steps n
    _ = .next (atPace .single t) := by rw [ht]

end Sys2Proof.Proofs

/-! # Host accesses of windows, and accesses that name nothing (20_memory.md R80-R83, R92, R93) -/

namespace Sys2Proof.Proofs

open Sys2Proof Sys2Proof.Machine Sys2Proof.Spec

/-! ### What an access names -/

/-- The registers end below offset 0x06C (R31-R52). -/
theorem hostReg_offset_lt (r : HostReg) : r.offset < 0x06C := by
  cases r <;> simp only [HostReg.offset] <;> omega

/-- Offsets from 0x06C on are reserved (R52). -/
theorem regAt_of_reserved {offset : Nat} (h : 0x06C ≤ offset) : regAt offset = none := by
  refine List.find?_eq_none.mpr fun r _ => ?_
  have := hostReg_offset_lt r
  simp only [beq_iff_eq]
  omega

/-- A register-page access of a wrong width, alignment or offset names nothing (R52, R81). -/
theorem accessTarget_badRegister {p : Params} {offset : Nat} {width : Width}
    (hpage : offset < 0x1000) (hbad : width ≠ .w32 ∨ offset % 4 ≠ 0 ∨ 0x06C ≤ offset) :
    accessTarget p offset width = none := by
  simp only [accessTarget, if_pos hpage]
  split
  · rename_i hgood
    obtain ⟨hwidth, haligned⟩ := hgood
    have hreserved : 0x06C ≤ offset :=
      (hbad.resolve_left (not_not_intro hwidth)).resolve_left (not_not_intro haligned)
    rw [regAt_of_reserved hreserved]; rfl
  · rfl

/-- A misaligned access outside the register page names nothing (R82). -/
theorem accessTarget_misaligned {p : Params} {offset : Nat} {width : Width}
    (hpage : 0x1000 ≤ offset) (hmis : offset % Width.bytes width ≠ 0) :
    accessTarget p offset width = none := by
  simp only [accessTarget, if_neg (Nat.not_lt.mpr hpage), if_neg hmis]

theorem inWindow_iff (p : Params) (offset n : Nat) (w : Window) : inWindow p offset n w = true ↔
    w.base ≤ offset ∧ offset + n ≤ w.base + min (w.capacity p) Window.span :=
  decide_eq_true_iff

/-- An access that lies in no window names nothing outside the register page (R80, R83). -/
theorem accessTarget_unmapped {p : Params} {offset : Nat} {width : Width}
    (hpage : 0x1000 ≤ offset)
    (hout : ∀ w, inWindow p offset (Width.bytes width) w = false) :
    accessTarget p offset width = none := by
  have hnone : windowAt p offset (Width.bytes width) = none :=
    List.find?_eq_none.mpr fun w _ => by simp [hout w]
  simp only [accessTarget, if_neg (Nat.not_lt.mpr hpage), hnone, Option.map_none, ite_self]

/-- The windows' regions of the address map are disjoint (R80). -/
theorem window_eq_of_mem_spans {w w' : Window} {a : Nat}
    (h : w.base ≤ a ∧ a < w.base + Window.span)
    (h' : w'.base ≤ a ∧ a < w'.base + Window.span) : w = w' := by
  cases w <;> cases w' <;> simp only [Window.base, Window.span, reduceCtorEq] at h h' ⊢ <;> omega

theorem window_base_le (w : Window) : 0x1000 ≤ w.base := by cases w <;> decide

theorem width_bytes_pos (width : Width) : 0 < Width.bytes width := by cases width <;> decide

/-- An access within a window lies in that window alone. -/
theorem windowAt_eq_some {p : Params} {offset n : Nat} {w : Window} (hn : 0 < n)
    (h : inWindow p offset n w = true) : windowAt p offset n = some w := by
  have hspan : ∀ w', inWindow p offset n w' = true →
      w'.base ≤ offset ∧ offset < w'.base + Window.span := by
    intro w' h'
    have := (inWindow_iff p offset n w').mp h'
    omega
  have hsome : (windowAt p offset n).isSome = true :=
    List.find?_isSome.mpr ⟨w, by cases w <;> simp, h⟩
  obtain ⟨w', hw'⟩ := Option.isSome_iff_exists.mp hsome
  rw [hw', window_eq_of_mem_spans (hspan w' (windowAt_some hw')) (hspan w h)]

/-- An aligned access within a window names it (R80, R82). -/
theorem accessTarget_inWindow {p : Params} {offset : Nat} {width : Width} {w : Window}
    (hin : inWindow p offset (Width.bytes width) w = true)
    (haligned : offset % Width.bytes width = 0) :
    accessTarget p offset width = some (.window w) := by
  have hpage : ¬offset < 0x1000 := by
    have hbase := window_base_le w
    have hlo := ((inWindow_iff _ _ _ _).mp hin).1
    omega
  simp only [accessTarget, if_neg hpage, if_pos haligned,
    windowAt_eq_some (width_bytes_pos width) hin, Option.map_some]

/-! ### When a read is free -/

/-- A command's meaning counts as writing what its rule's Writes line names. -/
theorem writesTarget_of_writesLine {s : State} {i : Instr} {t : Target} (h : writesLine s i t) :
    writesTarget (angle s) i t = true := by
  rcases t with r | w
  · cases r with
    | regionXY | regionWH =>
      obtain ⟨_, _, rfl⟩ | ⟨rfl, h90⟩ := h
      · rfl
      · simp [writesTarget, writesReg, angle, h90]
    | fbLen => rcases h with rfl | rfl <;> rfl
    | packedLen | panelGeom | devGeom | devImgAddr | devFw | devLut | vcomRead | regData =>
      cases h; rfl
    | _ => exact h.elim
  · cases w with
    | regionPix =>
      obtain ⟨_, _, rfl⟩ | ⟨rfl, h90⟩ := h
      · rfl
      · simp [writesTarget, writesWindow, angle, h90]
    | packed => cases h; rfl
    | _ => exact h.elim

/-- The windows a command writes are those of its rule's Writes line (R150, R190, R200). -/
theorem writesLine_of_writesWindow {s : State} {i : Instr} {w : Window}
    (h : writesWindow (angle s) i w = true) : writesLine s i (.window w) := by
  cases i with
  | compare | rotate | pack =>
    cases w <;> simp [writesWindow, angle] at h
    simp [writesLine, h]
  | _ => cases h

/-- What a command writes is what its rule's Writes line names (R150-R286). -/
theorem writesTarget_iff_writesLine (s : State) (i : Instr) (t : Target) :
    writesTarget (angle s) i t = true ↔ writesLine s i t := by
  refine ⟨fun h => ?_, writesTarget_of_writesLine⟩
  cases t with
  | reg r => exact writesLine_of_writesReg h
  | window w => exact writesLine_of_writesWindow h

/-- Only host commands write registers or windows. -/
theorem isCommand_of_writesTarget {a : Int} {i : Instr} {t : Target}
    (h : writesTarget a i t = true) : i.isCommand = true := by
  cases t with
  | reg r => exact isCommand_of_writesReg h
  | window w => cases i <;> simp_all [writesTarget, writesWindow, Instr.isCommand]

/-- A read is free exactly where the running command, in a state that allows it, writes the target
(R93, R304, R306). -/
theorem readIsFree_iff (s : State) (t : Target) :
    readIsFree s t = true ↔ runningWrites s t := by
  cases hrun : s.running with
  | none => simp [readIsFree, runningWrites, hrun]
  | some i =>
    simp only [readIsFree, hrun, Bool.and_eq_true, runningWrites, Option.some.injEq,
      exists_eq_left', writesTarget_iff_writesLine]
    refine and_congr_left fun hline => allowedIn_iff_mem ?_ _
    exact isCommand_of_writesTarget (writesTarget_of_writesLine hline)

/-! ### Steps of an access -/

section
variable {s : State} {offset : Nat} {width : Width} {v : Word32} {rest : List Input}

theorem step_write (hin : nextAccess (.write offset width v) rest s) :
    step s = hostWrite offset width v { s with inputs := rest } := by
  simp only [nextAccess] at hin
  simp only [step, takeInput, hin, hostAccess]

theorem step_read (hin : nextAccess (.read offset width) rest s) :
    step s = hostRead offset width { s with inputs := rest } := by
  simp only [nextAccess] at hin
  simp only [step, takeInput, hin, hostAccess]

/-- An access that names nothing is ignored on write and reads 0, in every state (R80-R83). -/
theorem step_of_no_target (hnone : accessTarget s.params offset width = none) :
    (nextAccess (.write offset width v) rest s → step s = .next { s with inputs := rest }) ∧
    (nextAccess (.read offset width) rest s →
      step s = .next { s with inputs := rest, readback := 0 }) := by
  constructor
  · intro hin
    rw [step_write hin]
    simp only [hostWrite, hnone]
  · intro hin
    rw [step_read hin]
    simp [hostRead, hnone, targetIsFree, readTarget, orFault]

/-- A write of a window of an idle block stores the value's bytes (R82). -/
theorem step_window_write {w : Window}
    (ht : accessTarget s.params offset width = some (.window w)) (hidle : s.running = none)
    (hin : nextAccess (.write offset width v) rest s) :
    step s = .next { s with
      inputs := rest, mem := Memory.writeBytes s.mem offset (valueBytes width v) } := by
  rw [step_write hin]
  simp [hostWrite, ht, busy, hidle]

/-- A read of what the running command writes returns a free value (R93, R304). -/
theorem step_free_read {t : Target} (ht : accessTarget s.params offset width = some t)
    (hwrites : runningWrites s t) (hin : nextAccess (.read offset width) rest s) :
    step s = .next { s with
      inputs := rest
      readback := truncateTo width (Config.freeRead s.freeCount)
      freeCount := s.freeCount + 1 } := by
  have hfree : readIsFree { s with inputs := rest } t = true := (readIsFree_iff s t).mpr hwrites
  rw [step_read hin]
  simp [hostRead, ht, targetIsFree, hfree]

/-- A read of anything else returns the target's value, or faults at an unwritten byte (R92, R340). -/
theorem step_target_read {t : Target} (ht : accessTarget s.params offset width = some t)
    (hwrites : ¬runningWrites s t) (hin : nextAccess (.read offset width) rest s) :
    step s = orFault (readTarget offset width (some t) { s with inputs := rest })
      fun x => .next { s with inputs := rest, readback := x } := by
  have hfree : readIsFree { s with inputs := rest } t = false :=
    Bool.eq_false_iff.mpr fun h => hwrites ((readIsFree_iff s t).mp h)
  rw [step_read hin]
  simp [hostRead, ht, targetIsFree, hfree]

/-- An idle block's read is never free: it answers the value of what the access names. -/
theorem readTarget_of_hostRead {t : State} (hidle : s.running = none)
    (h : hostRead offset width s = .next t) :
    readTarget offset width (accessTarget s.params offset width) s = .ok t.readback := by
  rcases hostRead_cases offset width s with ⟨i, _, hrun, -⟩ | ⟨-, hread⟩
  · rw [hidle] at hrun; cases hrun
  · obtain ⟨x, hx, ht⟩ := orFault_next (hread ▸ h)
    cases ht
    exact hx

/-- The value of a target does not depend on what belongs to the outside. -/
theorem readTarget_of_sameBlock {u : State} (hu : SameBlock s u) (t : Option Target) :
    readTarget offset width t u = readTarget offset width t s := by
  obtain ⟨_, _, _, rfl⟩ := hu
  cases t with
  | none => rfl
  | some t =>
    cases t with
    | reg r => cases r <;> rfl
    | window w => rfl

/-- Reading the same thing of an idle block twice returns the same value (R92). -/
theorem readback_eq_of_sameBlock {s' t t' : State} (hs : SameBlock s s') (hidle : s.running = none)
    (ht : hostRead offset width s = .next t) (ht' : hostRead offset width s' = .next t') :
    t'.readback = t.readback := by
  have hvalue := readTarget_of_hostRead hidle ht
  have hvalue' := readTarget_of_hostRead (hs.running.trans hidle) ht'
  rw [hs.params, readTarget_of_sameBlock hs, hvalue] at hvalue'
  exact (Except.ok.inj hvalue').symm

end

/-! ### Bytes of a value (R82) -/

/-- The number whose little-endian bytes these are. -/
def littleEndian (bs : List Byte) : Nat := bs.foldr (fun b acc => b.toNat + 256 * acc) 0

theorem bytesValue_eq (bs : List Byte) : bytesValue bs = BitVec.ofNat 32 (littleEndian bs) := rfl

theorem littleEndian_cons (b : Byte) (bs : List Byte) :
    littleEndian (b :: bs) = b.toNat + 2 ^ 8 * littleEndian bs := rfl

theorem two_pow_eight_mul_succ (n : Nat) : 2 ^ (8 * (n + 1)) = 2 ^ 8 * 2 ^ (8 * n) := by
  rw [Nat.mul_succ, Nat.add_comm, Nat.pow_add]

theorem littleEndian_lt (bs : List Byte) : littleEndian bs < 2 ^ (8 * bs.length) := by
  induction bs with
  | nil => decide
  | cons b bs ih =>
    have hb := b.isLt
    rw [littleEndian_cons, List.length_cons, two_pow_eight_mul_succ]
    omega

/-- Byte k of a little-endian number is its digit k to the base 256. -/
theorem littleEndian_digit (bs : List Byte) {k : Nat} (hk : k < bs.length) :
    littleEndian bs / 2 ^ (8 * k) % 2 ^ 8 = bs[k].toNat := by
  induction bs generalizing k with
  | nil => cases hk
  | cons b bs ih =>
    have hb := b.isLt
    rw [littleEndian_cons]
    cases k with
    | zero =>
      simp only [Nat.mul_zero, Nat.pow_zero, Nat.div_one, List.getElem_cons_zero]
      omega
    | succ k =>
      have hshift : (b.toNat + 2 ^ 8 * littleEndian bs) / 2 ^ 8 = littleEndian bs := by omega
      rw [two_pow_eight_mul_succ, ← Nat.div_div_eq_div_mul, hshift]
      exact ih (by simpa using hk)

/-- A number of at most four bytes fits a 32-bit value. -/
theorem toNat_bytesValue {bs : List Byte} (hlen : bs.length ≤ 4) :
    (bytesValue bs).toNat = littleEndian bs := by
  have hfits : 2 ^ (8 * bs.length) ≤ 2 ^ 32 := Nat.pow_le_pow_right (by decide) (by omega)
  rw [bytesValue_eq, BitVec.toNat_ofNat, Nat.mod_eq_of_lt ((littleEndian_lt bs).trans_le hfits)]

/-- Byte k of the value read is byte k of the run. -/
theorem extractLsb'_bytesValue {bs : List Byte} (hlen : bs.length ≤ 4) {k : Nat}
    (hk : k < bs.length) : (bytesValue bs).extractLsb' (8 * k) 8 = bs[k] := by
  apply BitVec.eq_of_toNat_eq
  rw [BitVec.extractLsb'_toNat, toNat_bytesValue hlen, Nat.shiftRight_eq_div_pow,
    littleEndian_digit bs hk]

/-- Byte k of what a write stores is bits [8k+7:8k] of the value. -/
theorem getElem_valueBytes (width : Width) (v : Word32) {k : Nat}
    (hk : k < (valueBytes width v).length) :
    (valueBytes width v)[k] = v.extractLsb' (8 * k) 8 := by
  rw [length_valueBytes] at hk
  cases width <;> simp only [Width.bytes] at hk <;> interval_cases k <;> rfl

theorem width_bytes_le (width : Width) : Width.bytes width ≤ 4 := by cases width <;> decide

/-- The low bits a free read returns, as a number. -/
theorem truncateTo_eq (width : Width) (v : Word32) :
    truncateTo width v = BitVec.ofNat 32 (v.toNat % 2 ^ (8 * Width.bytes width)) := by
  have hv := v.isLt
  apply BitVec.eq_of_toNat_eq
  cases width <;> simp [truncateTo, Width.bytes]
  omega

/-! ### What a window read shows -/

/-- A window whose bytes have been written reads as their little-endian value. -/
theorem readTarget_window {s : State} {offset : Nat} {width : Width} {w : Window}
    {bytes : Nat → Byte}
    (hbytes : ∀ k, k < Width.bytes width → Memory.read s.mem (offset + k) = some (bytes k)) :
    readTarget offset width (some (.window w)) s
      = .ok (bytesValue ((List.range (Width.bytes width)).map bytes)) := by
  have hread : Memory.readBytes s.mem offset (Width.bytes width)
      = .ok ((List.range (Width.bytes width)).map bytes) := by
    refine readBytes_ok_iff.mpr ⟨by simp, fun k hk => ?_⟩
    simpa using hbytes k (by simpa using hk)
  simp only [readTarget, hread]

/-! ### The obligations -/

/-- Settles O13: such an access names nothing. -/
theorem badRegisterAccessIsIgnored : Obligations.BadRegisterAccessIsIgnored := by
  intro s offset width v rest hpage hbad
  exact step_of_no_target (accessTarget_badRegister hpage hbad)

/-- Settles O14: an access that lies in no window names nothing. -/
theorem unmappedAccessIsIgnored : Obligations.UnmappedAccessIsIgnored := by
  intro s offset width v rest hpage hout
  refine step_of_no_target (accessTarget_unmapped hpage fun w => ?_)
  rw [Bool.eq_false_iff, ne_eq, inWindow_iff]
  have := hout w
  omega

/-- Settles O12: an aligned access in a window names it, and a misaligned one names nothing. -/
theorem windowAccessIsLittleEndian : Obligations.WindowAccessIsLittleEndian := by
  intro s w offset width v rest hlo hhi
  have hin : inWindow s.params offset (Width.bytes width) w = true :=
    (inWindow_iff _ _ _ _).mpr ⟨hlo, hhi⟩
  have hlen := length_valueBytes width v
  refine ⟨fun haligned => ⟨fun hidle hwrite => ?_, fun bytes hnot hread hbytes => ?_⟩, fun hmis => ?_⟩
  · have ht := accessTarget_inWindow hin haligned
    refine ⟨_, step_window_write ht hidle hwrite, fun k hk => ?_, fun a ha => ?_⟩
    · rw [← hlen] at hk
      rw [read_writeBytes_inside _ _ _ hk, getElem_valueBytes]
    · exact read_writeBytes_outside _ _ _ (by rwa [hlen])
  · have ht := accessTarget_inWindow hin haligned
    have hshort : ((List.range (Width.bytes width)).map bytes).length ≤ 4 := by
      simpa using width_bytes_le width
    rw [step_target_read ht hnot hread, readTarget_window (s := { s with inputs := rest }) hbytes]
    refine ⟨_, rfl, fun k hk => ?_, ?_⟩
    · rw [extractLsb'_bytesValue hshort (by simpa using hk)]
      simp
    · rw [toNat_bytesValue hshort]
      simpa using littleEndian_lt ((List.range (Width.bytes width)).map bytes)
  · exact step_of_no_target (accessTarget_misaligned ((window_base_le w).trans hlo) hmis)

/-- Settles O7: a read changes the host's side alone, and is free exactly where the running command
writes what it names. -/
theorem hostReadHasNoSideEffect : Obligations.HostReadHasNoSideEffect := by
  refine ⟨?_, ?_, ?_⟩
  · intro s t offset width rest hin hstep
    rw [step_read hin] at hstep
    have ht : t = { s with
        inputs := rest, readback := t.readback, freeCount := t.freeCount } := hostRead_next hstep
    refine ⟨ht, fun hidle u hagain => ?_⟩
    rw [step_read (s := { t with inputs := .access (.read offset width) :: rest }) rfl] at hagain
    have hsame : SameBlock { s with inputs := rest } { t with inputs := rest } :=
      ⟨rest, t.readback, t.freeCount, by rw [ht]⟩
    exact readback_eq_of_sameBlock hsame hidle hstep hagain
  · intro s r rest hin
    have ht := accessTarget_reg s.params r
    exact ⟨fun hwrites => step_free_read ht hwrites hin,
      fun hnot => ⟨_, step_target_read ht hnot hin⟩⟩
  · intro s w offset width rest hlo hhi haligned hin
    have ht := accessTarget_inWindow ((inWindow_iff _ _ _ w).mpr ⟨hlo, hhi⟩) haligned
    constructor
    · intro hwrites
      rw [step_free_read ht hwrites hin, truncateTo_eq]
    · intro hnot t hstep
      obtain ⟨_, _, hnext⟩ := orFault_next (step_target_read ht hnot hin ▸ hstep)
      cases hnext
      rfl

end Sys2Proof.Proofs

/-! # Encoding: what the decoder reads is what the tables write (30_encoding.md R110-R120)

A command word is its three fields RSV, [9:8] and OPC, so it decodes to a command exactly when it is
the word of that command. A wire word is looked up in the code table; there the round trip needs a
table without repetition. -/

namespace Sys2Proof.Proofs

open Sys2Proof Sys2Proof.Machine Sys2Proof.Spec

/-! ### The fields of a command word (R110) -/

/-- A command word is its three fields, and each field is read back from it. -/
theorem append_eq_iff_fields (rsv : BitVec 22) (bits : BitVec 2) (op : Byte) (w : Word32) :
    rsv ++ bits ++ op = w ↔ cmdRsv w = rsv ∧ cmdOperandBits w = bits ∧ cmdOpc w = op := by
  constructor
  · rintro rfl
    refine ⟨?_, ?_, BitVec.extractLsb'_append_eq_right⟩
    · rw [cmdRsv, BitVec.extractLsb'_append_eq_of_le (by decide)]
      exact BitVec.extractLsb'_append_eq_left
    · rw [cmdOperandBits, BitVec.extractLsb'_append_eq_of_le (by decide)]
      exact BitVec.extractLsb'_append_eq_right
  · rintro ⟨rfl, rfl, rfl⟩
    rw [cmdRsv, cmdOperandBits, cmdOpc,
      BitVec.extractLsb'_append_extractLsb'_eq_extractLsb' (by decide),
      BitVec.extractLsb'_append_extractLsb'_eq_extractLsb' (by decide)]
    exact BitVec.extractLsb'_eq_self

/-- A word is a plain command's when it is its OPC and every other bit is 0 (R112). -/
theorem plainWord_eq_iff (op : Byte) (w : Word32) :
    plainWord op = w ↔ cmdRsv w = 0 ∧ cmdOperandBits w = 0 ∧ cmdOpc w = op := by
  rw [← append_eq_iff_fields, plainWord, BitVec.setWidth_eq_append (by decide)]
  rfl

/-- COMPARE's operand bits, P above S (R110). -/
def compareBits (slot : Slot) (prev : Bool) : BitVec 2 :=
  BitVec.ofBool prev ++ BitVec.ofBool (decide (slot = .frame1))

theorem compareWord_eq_append (slot : Slot) (prev : Bool) :
    compareWord slot prev = (0 : BitVec 22) ++ compareBits slot prev ++ (0x01 : Byte) := by
  cases slot <;> cases prev <;> rfl

/-- Bits [9:8] are P and S. -/
theorem cmdOperandBits_eq_append (w : Word32) :
    cmdOperandBits w = BitVec.ofBool (w.getLsbD 9) ++ BitVec.ofBool (w.getLsbD 8) := by
  have hbit : ∀ k, w.extractLsb' k 1 = BitVec.ofBool (w.getLsbD k) := by
    intro k
    ext i hi
    simp [show i = 0 by omega]
  rw [← hbit, ← hbit, BitVec.extractLsb'_append_extractLsb'_eq_extractLsb' (by decide)]
  rfl

/-- The operand bits hold COMPARE's S and P (R113). -/
theorem cmdOperandBits_eq_iff (slot : Slot) (prev : Bool) (w : Word32) :
    cmdOperandBits w = compareBits slot prev ↔ slot = cmdSlot w ∧ prev = cmdOldPresent w := by
  rw [cmdOperandBits_eq_append, cmdSlot, cmdOldPresent]
  generalize w.getLsbD 9 = p
  generalize w.getLsbD 8 = s
  revert p s
  cases slot <;> cases prev <;> decide

/-- R112's pattern of a COMPARE word fixes RSV and OPC, and leaves S and P free. -/
theorem comparePattern_iff (w : Word32) :
    w &&& 0xFFFFFCFF = 0x00000001 ↔ cmdRsv w = 0 ∧ cmdOpc w = 0x01 := by
  have hmasked : w &&& 0xFFFFFCFF = cmdRsv w ++ (0 : BitVec 2) ++ cmdOpc w := by
    conv_lhs => rw [← (append_eq_iff_fields _ _ _ w).mpr ⟨rfl, rfl, rfl⟩]
    rw [show (0xFFFFFCFF : Word32)
        = BitVec.allOnes 22 ++ (0 : BitVec 2) ++ BitVec.allOnes 8 from rfl,
      BitVec.and_append, BitVec.and_append, BitVec.and_allOnes, BitVec.and_allOnes]
    exact congrArg (cmdRsv w ++ · ++ cmdOpc w) BitVec.and_zero
  rw [hmasked, append_eq_iff_fields]
  constructor
  · rintro ⟨hrsv, -, hopc⟩
    exact ⟨hrsv.symm, hopc.symm⟩
  · rintro ⟨hrsv, hopc⟩
    rw [hrsv, hopc]
    decide

/-- A word is a COMPARE's when it has R112's pattern and the command's S and P (R110, R150). -/
theorem compareWord_eq_iff (slot : Slot) (prev : Bool) (w : Word32) :
    compareWord slot prev = w ↔
      w &&& 0xFFFFFCFF = 0x00000001 ∧ slot = cmdSlot w ∧ prev = cmdOldPresent w := by
  rw [compareWord_eq_append, append_eq_iff_fields, cmdOperandBits_eq_iff, comparePattern_iff]
  tauto

/-! ### Command words -/

/-- The commands without operand bits encode to their OPC alone (R111). -/
theorem encodeWord_of_plainCommand {op : Byte} {i : Instr} (c : Codes)
    (h : plainCommand op = some i) : encodeWord c i = .cmd (plainWord op) := by
  unfold plainCommand at h
  repeat'
    rw [ite_eq_iff] at h
    obtain ⟨rfl, h⟩ | ⟨-, h⟩ := h
  all_goals cases h <;> rfl

/-- A command word that decodes is the word its command encodes to (R112). -/
theorem encodeWord_of_decodeCmd {w : Word32} {i : Instr} (c : Codes) (h : decodeCmd w = .ok i) :
    encodeWord c i = .cmd w := by
  unfold decodeCmd at h
  split at h
  · rename_i hopc
    split at h
    · cases h
    · rename_i hrsv
      cases h
      have hpattern := (comparePattern_iff w).mpr ⟨not_not.mp hrsv, hopc⟩
      exact congrArg Encoded.cmd ((compareWord_eq_iff _ _ w).mpr ⟨hpattern, rfl, rfl⟩)
  · split at h
    · cases h
    · rename_i j hj
      split at h
      · cases h
      · rename_i hrsv
        split at h
        · cases h
        · rename_i hbits
          cases h
          rw [encodeWord_of_plainCommand c hj,
            (plainWord_eq_iff _ w).mpr ⟨not_not.mp hrsv, not_not.mp hbits, rfl⟩]

/-- The word of a command decodes to it (R111, R112). -/
theorem decodeCmd_of_encodeWord {c : Codes} {i : Instr} {w : Word32}
    (h : encodeWord c i = .cmd w) : decodeCmd w = .ok i := by
  cases i with
  | compare slot prev => cases h; cases slot <;> cases prev <;> rfl
  | _ => cases h <;> rfl

/-- A command word decodes to exactly the command whose word it is. -/
theorem decodeCmd_eq_ok_iff (c : Codes) (w : Word32) (i : Instr) :
    decodeCmd w = .ok i ↔ encodeWord c i = .cmd w :=
  ⟨encodeWord_of_decodeCmd c, decodeCmd_of_encodeWord⟩

/-! ### Wire words -/

/-- The wire words' instructions, in the order in which `Codes.issued` lists their words. -/
def wireInstrs : List Instr :=
  [.preambleCmd, .preambleWrite, .preambleRead, .codeRegRd, .codeRegWr, .codeLdImgArea,
   .codeLdImgEnd, .codeDpyArea, .codeVcom, .codeGetDevInfo]

theorem map_encodeWord_wireInstrs (c : Codes) :
    wireInstrs.map (encodeWord c) = c.issued.map .wire := rfl

theorem isCommand_of_mem_wireInstrs {i : Instr} (h : i ∈ wireInstrs) : i.isCommand = false := by
  revert i
  decide

/-- Only the wire words' instructions encode to wire words (R115, R120). -/
theorem mem_wireInstrs_of_encodeWord {c : Codes} {i : Instr} {w : Word16}
    (h : encodeWord c i = .wire w) : i ∈ wireInstrs := by
  cases i with
  | preambleCmd | preambleWrite | preambleRead | codeRegRd | codeRegWr | codeLdImgArea
  | codeLdImgEnd | codeDpyArea | codeVcom | codeGetDevInfo => decide
  | _ => cases h

/-- A wire word that decodes is the word its row encodes to (R115, R120). -/
theorem encodeWord_of_decodeWire {c : Codes} {w : Word16} {i : Instr}
    (h : decodeWire c w = .ok i) : encodeWord c i = .wire w := by
  unfold decodeWire at h
  repeat'
    rw [ite_eq_iff] at h
    obtain ⟨rfl, h⟩ | ⟨-, h⟩ := h
  all_goals cases h <;> rfl

/-- In a table that tells its words apart, the word of a wire instruction decodes to it. The word is
issued, so it decodes; and the row it decodes to has the same word (R115, R120). -/
theorem decodeWire_of_encodeWord {c : Codes} {i : Instr} {w : Word16} (hc : c.wf = true)
    (h : encodeWord c i = .wire w) : decodeWire c w = .ok i := by
  have hi := mem_wireInstrs_of_encodeWord h
  have hissued : w ∈ c.issued := by
    have hmem := List.mem_map_of_mem (f := encodeWord c) hi
    rw [map_encodeWord_wireInstrs, h] at hmem
    simpa using hmem
  obtain ⟨j, hj⟩ := decodeWire_of_issued hissued
  have hj' := encodeWord_of_decodeWire hj
  have hnodup : (wireInstrs.map (encodeWord c)).Nodup := by
    rw [map_encodeWord_wireInstrs]
    exact (of_decide_eq_true hc).map fun _ _ => Encoded.wire.inj
  have hji : j = i :=
    List.inj_on_of_nodup_map hnodup (mem_wireInstrs_of_encodeWord hj') hi (hj'.trans h.symm)
  rw [hj, hji]

/-! ### Bytes -/

/-- The bytes of a word hold the word (R82, R116). -/
theorem encodedOfBytes_bytesOfEncoded (e : Encoded) :
    encodedOfBytes (bytesOfEncoded e) = .ok e := by
  cases e with
  | cmd w =>
    have hw : w.extractLsb' 24 8 ++ w.extractLsb' 16 8 ++ w.extractLsb' 8 8 ++ w.extractLsb' 0 8
        = w := by
      rw [BitVec.extractLsb'_append_extractLsb'_eq_extractLsb' (by decide),
        BitVec.extractLsb'_append_extractLsb'_eq_extractLsb' (by decide),
        BitVec.extractLsb'_append_extractLsb'_eq_extractLsb' (by decide)]
      exact BitVec.extractLsb'_eq_self
    exact congrArg (fun w => Except.ok (Encoded.cmd w)) hw
  | wire w =>
    have hw : w.extractLsb' 8 8 ++ w.extractLsb' 0 8 = w := by
      rw [BitVec.extractLsb'_append_extractLsb'_eq_extractLsb' (by decide)]
      exact BitVec.extractLsb'_eq_self
    exact congrArg (fun w => Except.ok (Encoded.wire w)) hw

/-- Decoding an instruction's bytes is decoding its word. -/
theorem decode_encode_eq (c : Codes) (i : Instr) :
    decode c (encode c i) = decodeWord c (encodeWord c i) := by
  rw [decode, encode, encodedOfBytes_bytesOfEncoded]

/-! ### Steps that take a word -/

/-- A CMD write to an idle block is `commandWrite` (R81, R303). -/
theorem step_command_write {s : State} {w : Word32} {rest : List Input}
    (hin : nextAccess (.write 0x004 .w32 w) rest s) (hidle : s.running = none) :
    step s = commandWrite w { s with inputs := rest } := by
  have ht : accessTarget s.params 0x004 .w32 = some (.reg .cmd) := accessTarget_reg s.params .cmd
  rw [step_write hin]
  simp [hostWrite, ht, busy, hidle]

/-- The turn of a word that decodes runs its instruction, with the word taken away (R115, R120). -/
theorem blockTurn_wireWord {s : State} {w : Word16} {i : Instr} {rest : List Item}
    (hitems : s.seq.items = .op w :: rest) (hd : decodeWire s.params.codes w = .ok i) :
    blockTurn s = exec i (setItems rest s) := by
  simp only [blockTurn, hitems, runWireWord, hd]

/-- When the outside lets the block move, a step is the block's own turn. -/
theorem step_of_block {s : State} {rest : List Input} (h : s.inputs = .block :: rest) :
    step s = blockTurn { s with inputs := rest } := by
  simp only [step, takeInput, h]

/-! ### Sending a wire word -/

/-- The word of a wire instruction is the one it encodes to (R115, R120). -/
theorem encodeWord_of_wireWordOf {c : Codes} {i : Instr} {w : Word16}
    (h : wireWordOf c i = some w) : encodeWord c i = .wire w := by
  cases i <;> cases h <;> rfl

/-- A wire instruction sends its word (R116, R221). -/
theorem exec_of_encodeWord {s : State} {i : Instr} {w : Word16}
    (h : encodeWord s.params.codes i = .wire w) : exec i s = .next (sendWord w s) := by
  cases i <;> cases h <;> rfl

/-- The bytes of a word in wire order are the ones the rules name (R116, R221). -/
theorem wordBytes_eq_wireBytes (order : ByteOrder) (w : Word16) :
    wordBytes order w = wireBytes order w := by
  cases order <;> rfl

/-! ### The obligations -/

/-- Settles O1: the bytes hold the word, and the word decodes to its instruction: a command's by its
fields, a wire word because the table tells its words apart. -/
theorem decodeEncodeRoundTrip : Obligations.DecodeEncodeRoundTrip := by
  intro c i hwf
  rw [decode_encode_eq]
  cases hword : encodeWord c i with
  | cmd w => exact decodeCmd_of_encodeWord hword
  | wire w =>
    have hwire := isCommand_of_mem_wireInstrs (mem_wireInstrs_of_encodeWord hword)
    have hc : c.wf = true := by simpa [Instr.wf, hwire] using hwf
    exact decodeWire_of_encodeWord hc hword

/-- Settles O2: by the kind of the word. -/
theorem decodedWordIsItsEncoding : Obligations.DecodedWordIsItsEncoding := by
  intro c e i h
  cases e with
  | cmd w => exact encodeWord_of_decodeCmd c h
  | wire w => exact encodeWord_of_decodeWire h

/-- Settles O3: a word decodes to a command exactly when it is the command's word, which is the
pattern R112 gives it; the step of any other word is the completion of `acceptIllegal`. -/
theorem commandWordsDecodeOrAreIllegal : Obligations.CommandWordsDecodeOrAreIllegal := by
  refine ⟨fun w i => ?_, fun s w rest hin hidle hc hbad => ?_⟩
  · rw [decodeCmd_eq_ok_iff Config.codes]
    cases i with
    | compare slot prev =>
      simp [encodeWord, compareWord_eq_iff, cmdSlot, cmdOldPresent]
    | rotate | pack | init | discover | configure | draw | display | regRead | regWrite =>
      simp only [encodeWord, reduceCtorEq, Encoded.cmd.injEq, and_false, and_true, or_false,
        false_or]
      exact eq_comm
    | _ => simp [encodeWord]
  · rw [step_command_write hin hidle]
    rcases commandWrite_cases w { s with inputs := rest } with
      ⟨hf, -⟩ | ⟨-, -, hw⟩ | ⟨i, -, hd, -⟩ | ⟨i, -, hd, -⟩
    · exact absurd hf hc
    · rw [hw]; rfl
    · exact absurd hd (hbad i)
    · exact absurd hd (hbad i)

/-- Settles O4: each word is evaluated by the decoder. -/
theorem sampleWordsDecode : Obligations.SampleWordsDecode := by
  unfold Obligations.SampleWordsDecode
  decide

/-- Settles O6: the step is the block's turn, which runs the decoded word. -/
theorem stepRunsTheFetchedWireWord : Obligations.StepRunsTheFetchedWireWord := by
  intro s w i more rest hitems hd
  constructor
  · intro hin
    rw [step_of_no_input hin, blockTurn_wireWord hitems hd]
    rfl
  · intro hin
    rw [step_of_block hin, blockTurn_wireWord (s := { s with inputs := rest }) hitems hd]
    rfl

/-- Settles O46: the instruction sends its word, whose two Xfers are answered. -/
theorem wireWordsAreSentAsTwoBytes : Obligations.WireWordsAreSentAsTwoBytes := by
  intro i s w a b more hword hpace hbytes
  obtain ⟨x, y, hxy, hsent⟩ := sendWord_answered w hpace hbytes
  rw [exec_of_encodeWord (encodeWord_of_wireWordOf hword), hsent]
  simp [wordEvents, ← wordBytes_eq_wireBytes, hxy, setItems, emit, selAfter, rstAfter]

end Sys2Proof.Proofs

/-! # COMPARE: the scan, the box of the changed pixels, its alignment and its extraction
(40_differencer.md R150-R166) -/

namespace Sys2Proof.Proofs

open Sys2Proof Sys2Proof.Machine Sys2Proof.Spec

/-! ### The scan (R153, R154) -/

/-- The coordinates COMPARE scans, row by row (R151, R154). -/
def scanList (s : State) : List (Nat × Nat) :=
  scanCoords
    (min (frameHeight s) (rowLimit (transposed (angle s)) (panelWidth s) (panelHeight s)))
    (min (frameWidth s) (columnLimit (transposed (angle s)) (panelWidth s) (panelHeight s)))

theorem transposed_angle_iff {s : State} : transposed (angle s) = true ↔ quarterTurn s :=
  decide_eq_true_iff

theorem transposed_angle_eq_false_iff {s : State} :
    transposed (angle s) = false ↔ ¬quarterTurn s :=
  decide_eq_false_iff_not

theorem newFrame_eq_newWindow (slot : Slot) : newFrame slot = newWindow slot := by
  cases slot <;> rfl

theorem oldFrame_eq_oldWindow (slot : Slot) : oldFrame slot = oldWindow slot := by
  cases slot <;> rfl

theorem mem_scanCoords {rows cols x y : Nat} :
    (x, y) ∈ scanCoords rows cols ↔ x < cols ∧ y < rows := by
  simp [scanCoords, and_comm]

theorem mem_scanList {s : State} {x y : Nat} : (x, y) ∈ scanList s ↔ scanned s x y := by
  rw [scanList, mem_scanCoords, lt_min_iff, lt_min_iff]
  by_cases ht : quarterTurn s
  · simp only [transposed_angle_iff.mpr ht, scanned, ht, columnLimit, rowLimit, if_true, frameWidth,
      frameHeight, panelWidth, panelHeight]
    tauto
  · simp only [transposed_angle_eq_false_iff.mpr ht, scanned, ht, columnLimit,
      rowLimit, Bool.false_eq_true, if_false, frameWidth, frameHeight, panelWidth, panelHeight]
    tauto

/-- A scan whose pixels all read answers. -/
theorem changedAt_total {m : Memory} {new : Window} {old : Option Window} {fw : Nat}
    {coords : List (Nat × Nat)}
    (h : ∀ x y, (x, y) ∈ coords → (∃ p, readPixel m new (y * fw + x) = .ok p) ∧
      ∃ q, oldPixel m old (y * fw + x) = .ok q) :
    ∃ cs, changedAt m new old fw coords = .ok cs := by
  induction coords with
  | nil => exact ⟨[], rfl⟩
  | cons c coords ih =>
    obtain ⟨x, y⟩ := c
    obtain ⟨⟨p, hp⟩, q, hq⟩ := h x y List.mem_cons_self
    obtain ⟨cs, hcs⟩ := ih fun x y hxy => h x y (List.mem_cons_of_mem _ hxy)
    exact ⟨if p = q then cs else (x, y) :: cs, by simp only [changedAt, hp, hq, hcs]⟩

/-- A scan finds the coordinates at which the new pixel differs from the old one. -/
theorem mem_changedAt {m : Memory} {new : Window} {old : Option Window} {fw : Nat}
    {coords cs : List (Nat × Nat)} (h : changedAt m new old fw coords = .ok cs) {x y : Nat} :
    (x, y) ∈ cs ↔ (x, y) ∈ coords ∧ ∃ p q, readPixel m new (y * fw + x) = .ok p ∧
      oldPixel m old (y * fw + x) = .ok q ∧ p ≠ q := by
  induction coords generalizing cs with
  | nil => cases h; simp
  | cons c coords ih =>
    obtain ⟨x', y'⟩ := c
    simp only [changedAt] at h
    split at h
    · cases h
    · rename_i p hp
      split at h
      · cases h
      · rename_i q hq
        split at h
        · cases h
        · rename_i cs' hcs
          cases h
          by_cases hxy : (x, y) = (x', y')
          · cases hxy
            by_cases hpq : p = q <;> simp [hpq, ih hcs, hp, hq]
          · by_cases hpq : p = q <;> simp [hpq, hxy, ih hcs]

/-- The old pixel is the old frame's when P = 1, and white when P = 0 (R153). -/
theorem oldPixel_oldSource_iff {slot : Slot} {prev : Bool} {m : Memory} {i : Nat} {q : Pixel} :
    oldPixel m (oldSource slot prev) i = .ok q ↔
      (prev = true → readPixel m (oldFrame slot) i = .ok q) ∧
        (prev = false → q = { b := 255, g := 255, r := 255 }) := by
  cases prev with
  | true => simp [oldSource, oldPixel, oldFrame_eq_oldWindow]
  | false => simp [oldSource, oldPixel, Pixel.white, eq_comm]

/-- The scan of readable frames answers with the changed pixels. -/
theorem scan_finds_changed {slot : Slot} {prev : Bool} {s : State}
    (hread : scanReadable slot prev s) :
    ∃ cs, changedAt s.mem (newWindow slot) (oldSource slot prev) (frameWidth s) (scanList s)
        = .ok cs ∧ ∀ x y, (x, y) ∈ cs ↔ changed slot prev s x y := by
  obtain ⟨cs, hcs⟩ : ∃ cs, changedAt s.mem (newWindow slot) (oldSource slot prev) (frameWidth s)
      (scanList s) = .ok cs := by
    refine changedAt_total fun x y hxy => ?_
    obtain ⟨hnew, hold⟩ := hread x y (mem_scanList.mp hxy)
    refine ⟨newFrame_eq_newWindow slot ▸ hnew, ?_⟩
    cases prev with
    | true => exact (hold rfl).imp fun q hq => oldPixel_oldSource_iff.mpr ⟨fun _ => hq, nofun⟩
    | false => exact ⟨_, rfl⟩
  refine ⟨cs, hcs, fun x y => ?_⟩
  simp only [mem_changedAt hcs, mem_scanList, oldPixel_oldSource_iff, changed, and_assoc,
    newFrame_eq_newWindow, frameWidth]

/-! ### The bounding box (R155) -/

/-- The box's sides are the extreme columns and rows of a set of coordinates. -/
structure Bounds (b : Box) (S : Set (Nat × Nat)) : Prop where
  left : IsLeast (Prod.fst '' S) b.x0
  right : IsGreatest (Prod.fst '' S) b.x1
  top : IsLeast (Prod.snd '' S) b.y0
  bottom : IsGreatest (Prod.snd '' S) b.y1

theorem Bounds.singleton (x y : Nat) : Bounds ⟨x, x, y, y⟩ {(x, y)} := by
  constructor <;> simp

theorem Bounds.extend {b : Box} {S : Set (Nat × Nat)} (h : Bounds b S) (c : Nat × Nat) :
    Bounds (b.extend c) (insert c S) := by
  constructor <;> rw [Set.image_insert_eq]
  · simpa only [Box.extend, min_comm b.x0] using h.left.insert c.1
  · simpa only [Box.extend, max_comm b.x1] using h.right.insert c.1
  · simpa only [Box.extend, min_comm b.y0] using h.top.insert c.2
  · simpa only [Box.extend, max_comm b.y1] using h.bottom.insert c.2

theorem Bounds.foldl_extend {b : Box} {S : Set (Nat × Nat)} (h : Bounds b S)
    (cs : List (Nat × Nat)) : Bounds (cs.foldl Box.extend b) (S ∪ {c | c ∈ cs}) := by
  induction cs generalizing b S with
  | nil => simpa using h
  | cons c cs ih =>
    have hset : S ∪ {d | d ∈ c :: cs} = insert c S ∪ {d | d ∈ cs} := by
      ext d
      simp only [Set.mem_union, Set.mem_ofPred_eq, List.mem_cons, Set.mem_insert_iff]
      tauto
    rw [hset]
    exact ih (h.extend c)

theorem boundingBox_bounds {cs : List (Nat × Nat)} {b : Box} (h : boundingBox cs = some b) :
    Bounds b {c | c ∈ cs} := by
  cases cs with
  | nil => cases h
  | cons c cs =>
    cases h
    have hset : {d | d ∈ c :: cs} = {c} ∪ {d | d ∈ cs} := by
      ext d
      simp
    rw [hset]
    exact (Bounds.singleton c.1 c.2).foldl_extend cs

theorem Bounds.unique {b b' : Box} {S : Set (Nat × Nat)} (h : Bounds b S) (h' : Bounds b' S) :
    b = b' := by
  cases b; cases b'
  simp only [Box.mk.injEq]
  exact ⟨h.left.unique h'.left, h.right.unique h'.right, h.top.unique h'.top,
    h.bottom.unique h'.bottom⟩

theorem bounds_of_tightBox {slot : Slot} {prev : Bool} {s : State} {x0 x1 y0 y1 : Nat}
    (h : tightBox slot prev s x0 x1 y0 y1) :
    Bounds ⟨x0, x1, y0, y1⟩ {c | changed slot prev s c.1 c.2} := by
  obtain ⟨hin, ⟨yl, hl⟩, ⟨yr, hr⟩, ⟨xt, ht⟩, ⟨xb, hb⟩⟩ := h
  constructor
  · exact ⟨⟨(x0, yl), hl, rfl⟩,
      Set.forall_mem_image.mpr fun c hc => have ⟨h, _⟩ := hin c.1 c.2 hc; h⟩
  · exact ⟨⟨(x1, yr), hr, rfl⟩,
      Set.forall_mem_image.mpr fun c hc => have ⟨_, h, _⟩ := hin c.1 c.2 hc; h⟩
  · exact ⟨⟨(xt, y0), ht, rfl⟩,
      Set.forall_mem_image.mpr fun c hc => have ⟨_, _, h, _⟩ := hin c.1 c.2 hc; h⟩
  · exact ⟨⟨(xb, y1), hb, rfl⟩,
      Set.forall_mem_image.mpr fun c hc => have ⟨_, _, _, h⟩ := hin c.1 c.2 hc; h⟩

/-- A tight box of what a list holds is the list's bounding box. -/
theorem boundingBox_of_tightBox {slot : Slot} {prev : Bool} {s : State} {cs : List (Nat × Nat)}
    (hcs : ∀ x y, (x, y) ∈ cs ↔ changed slot prev s x y) {x0 x1 y0 y1 : Nat}
    (h : tightBox slot prev s x0 x1 y0 y1) : boundingBox cs = some ⟨x0, x1, y0, y1⟩ := by
  have hset : {c | c ∈ cs} = {c : Nat × Nat | changed slot prev s c.1 c.2} :=
    Set.ext fun c => hcs c.1 c.2
  cases hb : boundingBox cs with
  | none =>
    obtain ⟨-, ⟨y, hy⟩, -⟩ := h
    cases cs with
    | nil => exact absurd ((hcs _ _).mpr hy) List.not_mem_nil
    | cons c cs => cases hb
  | some b =>
    have hbounds := boundingBox_bounds hb
    rw [hset] at hbounds
    rw [hbounds.unique (bounds_of_tightBox h)]

/-! ### Alignment (R156-R158) -/

theorem floor4_eq (n : Nat) : floor4 n = 4 * (n / 4) := by
  unfold floor4
  omega

/-- One axis is fitted as `fitStart` fits it. -/
theorem fitted_iff {lo hi bound start size : Nat} : fitted lo hi bound start size ↔
    size = ceil4 (hi - lo + 1) ∧
      fitStart (floor4 lo) (ceil4 (hi - lo + 1)) bound = some start := by
  rw [fitted, ceil4, floor4_eq, floor4_eq]
  refine and_congr_right fun hsize => ?_
  rw [fitStart, ← hsize]
  split
  · split
    · simp only [reduceCtorEq, iff_false]; omega
    · simp only [Option.some.injEq]; omega
  · simp only [Option.some.injEq]; omega

/-- One axis cannot be fitted where `fitStart` has no answer. -/
theorem unfittable_iff {lo hi bound : Nat} : unfittable lo hi bound ↔
    fitStart (floor4 lo) (ceil4 (hi - lo + 1)) bound = none := by
  rw [unfittable, ceil4, floor4_eq, floor4_eq, fitStart]
  split
  · split
    · simp only [iff_true]; omega
    · simp only [reduceCtorEq, iff_false]; omega
  · simp only [reduceCtorEq, iff_false]; omega

/-- A fitted axis is 4-aligned and not empty (R166). -/
theorem fitted_aligned {lo hi bound start size : Nat} (h : fitted lo hi bound start size) :
    start % 4 = 0 ∧ size % 4 = 0 ∧ 0 < size := by
  unfold fitted at h
  omega

/-- The rectangle COMPARE makes of a box. -/
def alignedRect (s : State) (b : Box) : Option Rect :=
  alignBox (transposed (angle s)) (panelWidth s)
    (rowLimit (transposed (angle s)) (panelWidth s) (panelHeight s)) b

/-- The rectangle placed on a box is the aligned one. -/
theorem placed_iff {s : State} {b : Box} {r : Rect} :
    placed s b.x0 b.x1 b.y0 b.y1 r.x r.y r.w r.h ↔ alignedRect s b = some r := by
  obtain ⟨x, y, w, h⟩ := r
  rw [alignedRect, alignBox, placed, fitted_iff, fitted_iff]
  by_cases ht : quarterTurn s
  · simp only [transposed_angle_iff.mpr ht, ht, rowLimit, panelWidth, if_true]
    rcases fitStart (floor4 b.x0) _ _ with _ | ax
    · simp
    · rcases fitStart (floor4 b.y0) _ _ with _ | ay
      · simp
      · simp only [Option.some.injEq, Rect.mk.injEq, forall_const, not_true_eq_false, false_imp_iff]
        tauto
  · simp only [transposed_angle_eq_false_iff.mpr ht, ht, panelWidth]
    rcases fitStart (floor4 b.x0) _ _ with _ | ax
    · simp
    · simp only [Option.some.injEq, Rect.mk.injEq, forall_const, not_false_eq_true, false_imp_iff,
        Bool.false_eq_true, if_false]
      tauto

/-- There is no aligned rectangle exactly where an axis cannot be fitted (R157, R158). -/
theorem alignedRect_eq_none_iff {s : State} {b : Box} : alignedRect s b = none ↔
    unfittable b.x0 b.x1 (lo16 s.regs.panelGeom) ∨
      (quarterTurn s ∧ unfittable b.y0 b.y1 (lo16 s.regs.panelGeom)) := by
  rw [alignedRect, alignBox, unfittable_iff, unfittable_iff]
  by_cases ht : quarterTurn s
  · simp only [transposed_angle_iff.mpr ht, ht, rowLimit, panelWidth, if_true]
    rcases fitStart (floor4 b.x0) _ _ with _ | ax
    · simp
    · rcases fitStart (floor4 b.y0) _ _ with _ | ay <;> simp
  · simp only [transposed_angle_eq_false_iff.mpr ht, ht, panelWidth]
    rcases fitStart (floor4 b.x0) _ _ with _ | ax <;> simp

/-- Every placed rectangle is 4-aligned, vertically too when T (R166). -/
theorem placed_aligned {s : State} {x0 x1 y0 y1 ax ay aw ah : Nat}
    (h : placed s x0 x1 y0 y1 ax ay aw ah) :
    ax % 4 = 0 ∧ aw % 4 = 0 ∧ (quarterTurn s → ay % 4 = 0 ∧ ah % 4 = 0) ∧ 0 < aw ∧ 0 < ah := by
  obtain ⟨hx, hturned, hupright⟩ := h
  obtain ⟨hax, haw, hpos⟩ := fitted_aligned hx
  refine ⟨hax, haw, fun ht => ?_, hpos, ?_⟩
  · obtain ⟨hay, hah, -⟩ := fitted_aligned (hturned ht)
    exact ⟨hay, hah⟩
  · by_cases ht : quarterTurn s
    · exact (fitted_aligned (hturned ht)).2.2
    · have := (hupright ht).2
      omega

/-! ### The region stored (R161, R162) -/

theorem lo16_lt (w : Word32) : lo16 w < 2 ^ 16 := BitVec.isLt _

theorem hi16_lt (w : Word32) : hi16 w < 2 ^ 16 := BitVec.isLt _

theorem lo16_pairWord {hi lo : Nat} (h : lo < 2 ^ 16) : lo16 (pairWord hi lo) = lo := by
  simp only [lo16, pairWord, BitVec.extractLsb'_append_eq_right, BitVec.toNat_ofNat,
    Nat.mod_eq_of_lt h]

theorem hi16_pairWord {hi lo : Nat} (h : hi < 2 ^ 16) : hi16 (pairWord hi lo) = hi := by
  simp only [hi16, pairWord, BitVec.extractLsb'_append_eq_left, BitVec.toNat_ofNat,
    Nat.mod_eq_of_lt h]

/-- Writing pixels stores nothing past them. -/
theorem sameOutside_writePixels (m : Memory) (w : Window) (ps : List Pixel) :
    sameOutside w (3 * ps.length) m (writePixels m w ps) := by
  intro a ha
  exact read_writeBytes_outside m w.base _ (by rwa [pixel_bytes_length])

/-- As many pixels are extracted as the rectangle holds. -/
theorem length_extracted {m : Memory} {w : Window} {fw : Nat} {r : Rect} {ps : List Pixel}
    (h : readPixels m w (rectIndices fw r) = .ok ps) : ps.length = r.w * r.h := by
  rw [readPixels_length h, length_rectIndices, Nat.mul_comm]

/-- A rectangle whose pixels all read is extracted. -/
theorem extract_total {m : Memory} {w : Window} {fw : Nat} {r : Rect}
    (h : ∀ j c, j < r.h → c < r.w → ∃ p, readPixel m w ((r.y + j) * fw + (r.x + c)) = .ok p) :
    ∃ ps, readPixels m w (rectIndices fw r) = .ok ps := by
  refine readPixels_total fun i hi => ?_
  simp only [rectIndices, List.mem_flatMap, List.mem_range, List.mem_map] at hi
  obtain ⟨j, hj, c, hc, rfl⟩ := hi
  exact h j c hj hc

/-- Stored pixel (c, j) of the region is pixel (x + c, y + j) of the frame (R161). -/
theorem readPixel_extracted {m m' : Memory} {w w' : Window} {fw : Nat} {r : Rect} {ps : List Pixel}
    (h : readPixels m w (rectIndices fw r) = .ok ps) {j c : Nat} (hj : j < r.h) (hc : c < r.w) :
    readPixel (writePixels m' w' ps) w' (j * r.w + c)
      = readPixel m w ((r.y + j) * fw + (r.x + c)) := by
  have hidx := getElem?_grid (fun j c => (r.y + j) * fw + (r.x + c)) hj hc
  obtain ⟨hi, hidx⟩ := List.getElem?_eq_some_iff.mp hidx
  have hread := readPixels_ok_iff.mp h
  have hp : j * r.w + c < ps.length := hread.length_eq ▸ hi
  rw [readPixel_writePixels m' w' ps hp, ← hidx]
  exact (hread.get hi hp).symm

/-- A stored rectangle of the frame is what REGION_XY and REGION_WH show (R162). -/
theorem storeRegion_geometry {s : State} {r : Rect} (ps : List Pixel)
    (hx : r.x + r.w ≤ frameWidth s) (hy : r.y + r.h ≤ frameHeight s) :
    lo16 (storeRegion r ps s).regs.regionXY = r.x ∧ hi16 (storeRegion r ps s).regs.regionXY = r.y ∧
      lo16 (storeRegion r ps s).regs.regionWH = r.w ∧
      hi16 (storeRegion r ps s).regs.regionWH = r.h := by
  have hfw : frameWidth s < 2 ^ 16 := lo16_lt _
  have hfh : frameHeight s < 2 ^ 16 := hi16_lt _
  exact ⟨lo16_pairWord (by omega), hi16_pairWord (by omega), lo16_pairWord (by omega),
    hi16_pairWord (by omega)⟩

/-! ### What COMPARE answers -/

/-- Outside FAILED, COMPARE is its body (R303). -/
theorem exec_compare {s : State} (slot : Slot) (prev : Bool) (h : s.status.cstate ≠ .failed) :
    exec (.compare slot prev) s = compareBody slot prev s :=
  if_pos (decide_eq_true h)

/-- COMPARE's body after the scan: no change, or the box aligned and extracted (R155-R161). -/
theorem compareBody_of_scan {slot : Slot} {prev : Bool} {s : State} {cs : List (Nat × Nat)}
    (hcap : frameWidth s * frameHeight s ≤ s.params.frameCap)
    (hscan : changedAt s.mem (newWindow slot) (oldSource slot prev) (frameWidth s) (scanList s)
      = .ok cs) :
    compareBody slot prev s = (boundingBox cs).elim (.next (compareNoChange s)) fun b =>
      (alignedRect s b).elim (.next (compareFails .geometryFault s)) fun r =>
        extractRegion (newWindow slot) r s := by
  rw [scanList] at hscan
  simp only [compareBody, if_neg (Nat.not_lt.mpr hcap), hscan, orFault, alignedRect]
  cases boundingBox cs with
  | none => rfl
  | some b =>
    simp only [Option.elim_some]
    cases alignBox _ _ _ b <;> rfl

section
variable {slot : Slot} {prev : Bool} {s : State} {x0 x1 y0 y1 : Nat}
  (hc : s.status.cstate ≠ .failed)
  (hcap : frameWidth s * frameHeight s ≤ s.params.frameCap) (hread : scanReadable slot prev s)
  (hbox : tightBox slot prev s x0 x1 y0 y1)
include hc hcap hread hbox

/-- COMPARE of readable frames aligns the tight box of the changed pixels. -/
theorem exec_compare_of_tightBox :
    exec (.compare slot prev) s = (alignedRect s ⟨x0, x1, y0, y1⟩).elim
      (.next (compareFails .geometryFault s)) fun r => extractRegion (newWindow slot) r s := by
  obtain ⟨cs, hscan, hmem⟩ := scan_finds_changed hread
  rw [exec_compare slot prev hc, compareBody_of_scan hcap hscan,
    boundingBox_of_tightBox hmem hbox, Option.elim_some]

/-- A shift below 0 is a geometry fault (R157, R158). -/
theorem exec_compare_of_unfittable
    (hunfit : unfittable x0 x1 (lo16 s.regs.panelGeom) ∨
      (quarterTurn s ∧ unfittable y0 y1 (lo16 s.regs.panelGeom))) :
    exec (.compare slot prev) s = .next (compareFails .geometryFault s) := by
  rw [exec_compare_of_tightBox hc hcap hread hbox,
    alignedRect_eq_none_iff (b := ⟨x0, x1, y0, y1⟩) |>.mpr hunfit, Option.elim_none]

/-- The rectangle placed on the tight box is extracted. -/
theorem exec_compare_of_placed {ax ay aw ah : Nat} (hplaced : placed s x0 x1 y0 y1 ax ay aw ah) :
    exec (.compare slot prev) s = extractRegion (newWindow slot) ⟨ax, ay, aw, ah⟩ s := by
  rw [exec_compare_of_tightBox hc hcap hread hbox,
    placed_iff (b := ⟨x0, x1, y0, y1⟩) (r := ⟨ax, ay, aw, ah⟩) |>.mp hplaced, Option.elim_some]

end

/-- A rectangle past the frame is not extracted (R160 (a)). -/
theorem extractRegion_past_frame {new : Window} {r : Rect} {s : State} (hw : 0 < r.w)
    (hh : 0 < r.h) (hout : frameWidth s < r.x + r.w ∨ frameHeight s < r.y + r.h) :
    extractRegion new r s = .next (compareFails .geometryFault s) := by
  have hne : ¬(r.w = 0 ∨ r.h = 0) := by omega
  simp only [extractRegion, if_neg hne]
  exact if_pos (by tauto)

/-- A rectangle within the frame is extracted, or is too large for REGION_PIX (R160 (b), R161). -/
theorem extractRegion_within_frame {new : Window} {r : Rect} {s : State} (hw : 0 < r.w)
    (hh : 0 < r.h) (hx : r.x + r.w ≤ frameWidth s) (hy : r.y + r.h ≤ frameHeight s) :
    extractRegion new r s = if s.params.regionCap < r.w * r.h then
        .next (compareFails .capacityFault s)
      else orFault (readPixels s.mem new (rectIndices (frameWidth s) r)) fun ps =>
        .next (storeRegion r ps s) := by
  have hfw : frameWidth s < 2 ^ 16 := lo16_lt _
  have hfh : frameHeight s < 2 ^ 16 := hi16_lt _
  have hne : ¬(r.w = 0 ∨ r.h = 0) := by omega
  have hin : ¬(frameWidth s < r.x + r.w ∨ frameHeight s < r.y + r.h ∨ 0xFFFF < r.w ∨
    0xFFFF < r.h) := by omega
  simp only [extractRegion, if_neg hne, if_neg hin]

/-- What COMPARE can answer: a completion that writes nothing but STATUS, or a stored region. -/
inductive CompareEffect (slot : Slot) (s : State) : State → Prop
  /-- It finds nothing or reports an error; RVALID is kept only by the STATE_ERROR of FAILED. -/
  | completes (e : ErrCode) (v : Bool) (hv : s.status.cstate ≠ .failed → v = false) :
      CompareEffect slot s (complete e (setRvalid v s))
  /-- It stores the placed rectangle's pixels. -/
  | stores (b : Box) (r : Rect) (ps : List Pixel)
      (hplaced : placed s b.x0 b.x1 b.y0 b.y1 r.x r.y r.w r.h)
      (hx : r.x + r.w ≤ frameWidth s) (hy : r.y + r.h ≤ frameHeight s)
      (hps : readPixels s.mem (newWindow slot) (rectIndices (frameWidth s) r) = .ok ps) :
      CompareEffect slot s (storeRegion r ps s)

theorem exec_compare_effect {slot : Slot} {prev : Bool} {s t : State}
    (h : exec (.compare slot prev) s = .next t) : CompareEffect slot s t := by
  have hfalse : s.status.cstate ≠ .failed → false = false := fun _ => rfl
  by_cases hc : s.status.cstate = .failed
  · have hgate : exec (.compare slot prev) s = .next (complete .stateError s) :=
      if_neg (by simp [allowedIn, hc])
    rw [hgate] at h
    cases h
    exact .completes .stateError s.status.rvalid fun hne => absurd hc hne
  · rw [exec_compare slot prev hc] at h
    rcases compareBody_cases h with ⟨-, rfl⟩ | ⟨-, _, -, ⟨-, rfl⟩ | ⟨b, -, ⟨-, rfl⟩ | ⟨r, hr, hext⟩⟩⟩
    · exact .completes _ _ hfalse
    · exact .completes _ _ hfalse
    · exact .completes _ _ hfalse
    · rcases extractRegion_cases hext with ⟨-, rfl⟩ | rfl | ⟨-, rfl⟩ |
        ⟨-, -, hx, hy, -, -, -, ps, hps, rfl⟩
      · exact .completes _ _ hfalse
      · exact .completes _ _ hfalse
      · exact .completes _ _ hfalse
      · exact .stores b r ps (placed_iff.mpr hr) hx hy hps

/-! ### The obligations -/

/-- Settles O18: the tight box is the scan's bounding box, its placed rectangle is extracted, and what
is extracted is stored. -/
theorem compareFindsTheChangedRegion : Obligations.CompareFindsTheChangedRegion := by
  intro slot prev s x0 x1 y0 y1 ax ay aw ah hc hcap hread hbox hplaced hx hy hregion hpix
  obtain ⟨-, -, -, hw, hh⟩ := placed_aligned hplaced
  simp only [newFrame_eq_newWindow] at hpix ⊢
  obtain ⟨ps, hps⟩ := extract_total (r := ⟨ax, ay, aw, ah⟩) hpix
  refine ⟨writePixels s.mem .regionPix ps, ?_, fun j c hj hcol => ?_, ?_⟩
  · rw [exec_compare_of_placed hc hcap hread hbox hplaced, extractRegion_within_frame hw hh hx hy,
      if_neg (Nat.not_lt.mpr hregion), frameWidth, hps]
    rfl
  · exact readPixel_extracted hps hj hcol
  · exact length_extracted hps ▸ sameOutside_writePixels _ _ _

/-- Settles O19: the scan's list is empty. -/
theorem compareReportsNoChange : Obligations.CompareReportsNoChange := by
  intro slot prev s hc hcap hread hnone
  obtain ⟨cs, hscan, hmem⟩ := scan_finds_changed hread
  have hempty : cs = [] :=
    List.eq_nil_iff_forall_not_mem.mpr fun c hcs => hnone c.1 c.2 ((hmem c.1 c.2).mp hcs)
  rw [exec_compare slot prev hc, compareBody_of_scan hcap hscan, hempty]
  rfl

/-- Settles O20: the capacity check stands first. -/
theorem compareRejectsAnOversizedFrame : Obligations.CompareRejectsAnOversizedFrame := by
  intro slot prev s hc hcap
  rw [exec_compare slot prev hc]
  exact if_pos hcap

/-- Settles O21: an axis that cannot be fitted has no aligned rectangle, and the others fail one of
the two checks before the extraction. -/
theorem compareRaisesRangeErrors : Obligations.CompareRaisesRangeErrors := by
  intro slot prev s x0 x1 y0 y1 hc hcap hread hbox
  constructor
  · rintro (hx | hy | ⟨ax, ay, aw, ah, hplaced, hout⟩)
    · exact exec_compare_of_unfittable hc hcap hread hbox (.inl hx)
    · exact exec_compare_of_unfittable hc hcap hread hbox (.inr hy)
    · obtain ⟨-, -, -, hw, hh⟩ := placed_aligned hplaced
      rw [exec_compare_of_placed hc hcap hread hbox hplaced]
      exact extractRegion_past_frame hw hh hout
  · intro ax ay aw ah hplaced hx hy hregion
    obtain ⟨-, -, -, hw, hh⟩ := placed_aligned hplaced
    rw [exec_compare_of_placed hc hcap hread hbox hplaced, extractRegion_within_frame hw hh hx hy]
    exact if_pos hregion

/-- Settles O22: only a stored region leaves RVALID set, and it is a placed rectangle, whose fields fit
the registers since it lies in the frame. -/
theorem comparedRegionIsAligned : Obligations.ComparedRegionIsAligned := by
  intro slot prev s t hc h hvalid
  cases exec_compare_effect h with
  | completes e v hv => cases (hv hc).symm.trans hvalid
  | stores b r ps hplaced hx hy hps =>
    obtain ⟨hX, hY, hW, hH⟩ := storeRegion_geometry ps hx hy
    rw [hX, hY, hW, hH]
    exact placed_aligned hplaced

/-- Settles O23: by what COMPARE can answer; REGION_WH holds the rectangle's size since it lies in the
frame. -/
theorem compareFrame : Obligations.CompareFrame := by
  intro slot prev s t h
  cases exec_compare_effect h with
  | completes e v hv => exact ⟨rfl, rfl, rfl, fun _ => ⟨rfl, rfl⟩, fun _ _ => rfl⟩
  | stores b r ps hplaced hx hy hps =>
    obtain ⟨-, -, hW, hH⟩ := storeRegion_geometry ps hx hy
    refine ⟨rfl, rfl, rfl, ?_, ?_⟩
    · rintro (herr | hvalid)
      · exact absurd rfl herr
      · cases hvalid
    · rw [hW, hH, ← length_extracted hps]
      exact sameOutside_writePixels _ _ _

end Sys2Proof.Proofs

/-! # Luminance: the references' rounding errors are too small to leave a tie's two neighbours
(41_pixel_transform.md R196, R197) -/

namespace Sys2Proof.Proofs

open Sys2Proof Sys2Proof.Machine Sys2Proof.Spec

/-! ### The error of one floating-point operation -/

/-- Two numbers are at most `d` apart. -/
def Near (d x y : Nat) : Prop := x ≤ y + d ∧ y ≤ x + d

theorem Near.mul_right {d x y : Nat} (h : Near d x y) (v : Nat) : Near (d * v) (x * v) (y * v) := by
  obtain ⟨hxy, hyx⟩ := h
  exact ⟨Nat.add_mul .. ▸ Nat.mul_le_mul_right v hxy, Nat.add_mul .. ▸ Nat.mul_le_mul_right v hyx⟩

/-- Rounding to `p` significant bits moves a number by at most half a unit of its last place, which
is at most its 2^p-th part. -/
theorem roundSig_near {p x d : Nat} (hx : x ≤ d * 2 ^ p) : Near d (roundSig p x) x := by
  unfold roundSig
  by_cases hlt : x < 2 ^ p
  · rw [if_pos hlt]
    exact ⟨Nat.le_add_right _ _, Nat.le_add_right _ _⟩
  rw [if_neg hlt]
  have hpos : x ≠ 0 := by have := Nat.two_pow_pos p; omega
  have hlog : p ≤ x.log2 := (Nat.le_log2 hpos).mpr (Nat.not_lt.mp hlt)
  obtain ⟨k, hk⟩ : ∃ k, x.log2 = k + p := ⟨x.log2 - p, by omega⟩
  have hhalf : 2 ^ k ≤ d := by
    refine Nat.le_of_mul_le_mul_right ?_ (Nat.two_pow_pos p)
    calc 2 ^ k * 2 ^ p = 2 ^ x.log2 := by rw [hk, Nat.pow_add]
      _ ≤ x := Nat.log2_self_le hpos
      _ ≤ d * 2 ^ p := hx
  have hsh : x.log2 + 1 - p = k + 1 := by omega
  have hunit : 2 ^ (k + 1) = 2 ^ k + 2 ^ k := by rw [Nat.pow_succ]; omega
  simp only [hsh, Nat.add_sub_cancel]
  have hdiv : x / 2 ^ (k + 1) * 2 ^ (k + 1) + x % 2 ^ (k + 1) = x := Nat.div_add_mod' _ _
  have hmod : x % 2 ^ (k + 1) < 2 ^ (k + 1) := Nat.mod_lt _ (Nat.two_pow_pos _)
  rw [Near, Nat.add_mul, Nat.one_mul]
  split <;> omega

/-! ### The references at a tie -/

/-- `c`, in units of 2^-56, is the coefficient `k`/10000 to within a float's precision (R197). -/
def IsCoefficient (c k : Nat) : Prop := Near (2 ^ 44) (10000 * c) (2 ^ 56 * k)

/-- The exact sum of the products of float coefficients is near the exact luminance. -/
theorem weighted_near {cr cg cb : Nat} (hr : IsCoefficient cr 2125) (hg : IsCoefficient cg 7154)
    (hb : IsCoefficient cb 721) (px : Pixel) :
    Near (3 * 2 ^ 52) (10000 * (cr * px.r.toNat + cg * px.g.toNat + cb * px.b.toNat))
      (2 ^ 56 * lumaSum px) := by
  obtain ⟨hr, hr'⟩ := hr.mul_right px.r.toNat
  obtain ⟨hg, hg'⟩ := hg.mul_right px.g.toNat
  obtain ⟨hb, hb'⟩ := hb.mul_right px.b.toNat
  have := px.r.isLt
  have := px.g.isLt
  have := px.b.isLt
  simp only [Nat.mul_assoc] at hr hr' hg hg' hb hb'
  unfold Near lumaSum
  omega

theorem lumaSum_le (px : Pixel) : lumaSum px ≤ 2550000 := by
  have := px.r.isLt
  have := px.g.isLt
  have := px.b.isLt
  unfold lumaSum
  omega

/-- The five roundings of a reference move its sum by at most 2^40 each, 2^-16 in units of the
luminance, and a tie lies a whole unit inside the range of values that round to its
two neighbours. -/
theorem refLuma_neighbour {p cr cg cb : Nat} (hp : 24 ≤ p) (hr : IsCoefficient cr 2125)
    (hg : IsCoefficient cg 7154) (hb : IsCoefficient cb 721) {px : Pixel}
    (htie : lumaSum px % 10000 = 5000) :
    refLuma p cr cg cb px = (lumaSum px - 5000) / 10000 ∨
      refLuma p cr cg cb px = (lumaSum px + 5000) / 10000 := by
  obtain ⟨hlow, hhigh⟩ := weighted_near hr hg hb px
  have hs := lumaSum_le px
  have hround : ∀ x, x ≤ 2 ^ 64 → Near (2 ^ 40) (roundSig p x) x := fun x hx =>
    roundSig_near (hx.trans (Nat.mul_le_mul_left (2 ^ 40) (Nat.pow_le_pow_right two_pos hp)))
  unfold refLuma
  dsimp only
  generalize cr * px.r.toNat = xr at *
  generalize cg * px.g.toNat = xg at *
  generalize cb * px.b.toNat = xb at *
  obtain ⟨hr1, hr2⟩ := hround xr (by omega)
  obtain ⟨hg1, hg2⟩ := hround xg (by omega)
  obtain ⟨hb1, hb2⟩ := hround xb (by omega)
  obtain ⟨hrg1, hrg2⟩ := hround (roundSig p xr + roundSig p xg) (by omega)
  obtain ⟨hsum1, hsum2⟩ := hround
    (roundSig p (roundSig p xr + roundSig p xg) + roundSig p xb) (by omega)
  omega

theorem refLumaF32_neighbour {px : Pixel} (htie : lumaSum px % 10000 = 5000) :
    refLumaF32 px = (lumaSum px - 5000) / 10000 ∨ refLumaF32 px = (lumaSum px + 5000) / 10000 :=
  refLuma_neighbour (by decide) ⟨by decide, by decide⟩ ⟨by decide, by decide⟩
    ⟨by decide, by decide⟩ htie

theorem refLumaF64_neighbour {px : Pixel} (htie : lumaSum px % 10000 = 5000) :
    refLumaF64 px = (lumaSum px - 5000) / 10000 ∨ refLumaF64 px = (lumaSum px + 5000) / 10000 :=
  refLuma_neighbour (by decide) ⟨by decide, by decide⟩ ⟨by decide, by decide⟩
    ⟨by decide, by decide⟩ htie

/-! ### The luminance -/

/-- Off ties the luminance is the exact value rounded (R196). -/
theorem luma_off_tie (tie : LumaTie) {px : Pixel} (h : lumaSum px % 10000 ≠ 5000) :
    luma tie px = (lumaSum px + 5000) / 10000 :=
  if_neg h

/-! At a tie LUMA_TIE decides (R196). -/

theorem luma_halfUp_at_tie {px : Pixel} (h : lumaSum px % 10000 = 5000) :
    luma .halfUp px = (lumaSum px + 5000) / 10000 :=
  if_pos h

theorem luma_refF32_at_tie {px : Pixel} (h : lumaSum px % 10000 = 5000) :
    luma .refF32 px = refLumaF32 px :=
  if_pos h

theorem luma_refF64_at_tie {px : Pixel} (h : lumaSum px % 10000 = 5000) :
    luma .refF64 px = refLumaF64 px :=
  if_pos h

/-- Whatever LUMA_TIE is, a tie goes to one of its two neighbours (R196). -/
theorem luma_neighbour (tie : LumaTie) {px : Pixel} (h : lumaSum px % 10000 = 5000) :
    luma tie px = (lumaSum px - 5000) / 10000 ∨ luma tie px = (lumaSum px + 5000) / 10000 := by
  cases tie with
  | halfUp => exact .inr (luma_halfUp_at_tie h)
  | refF32 => exact luma_refF32_at_tie h ▸ refLumaF32_neighbour h
  | refF64 => exact luma_refF64_at_tie h ▸ refLumaF64_neighbour h

theorem luma_le (tie : LumaTie) (px : Pixel) : luma tie px ≤ 255 := by
  have hs := lumaSum_le px
  by_cases h : lumaSum px % 10000 = 5000
  · rcases luma_neighbour tie h with h' | h' <;> omega
  · rw [luma_off_tie tie h]
    omega

/-- Settles O29: a tie's reference value is a neighbour by the bound on the rounding errors, and
white and black are no ties. -/
theorem luminanceLaw : Obligations.LuminanceLaw := fun tie px =>
  ⟨lumaSum_le px, luma_off_tie tie,
    fun h => ⟨luma_halfUp_at_tie h, luma_refF32_at_tie h, luma_refF64_at_tie h,
      luma_neighbour tie h⟩,
    luma_le tie px, luma_off_tie tie (by decide), luma_off_tie tie (by decide)⟩

end Sys2Proof.Proofs

/-! # ROTATE, PACK and DRAW: the turned region, the packed samples, and what stays
(41_pixel_transform.md R190-R203; 43_controller.md R270) -/

namespace Sys2Proof.Proofs

open Sys2Proof Sys2Proof.Machine Sys2Proof.Spec

/-! ### What ROTATE and PACK run -/

/-- Outside FAILED, ROTATE is its body (R303). -/
theorem exec_rotate {s : State} (h : s.status.cstate ≠ .failed) : exec .rotate s = rotateBody s :=
  if_pos (decide_eq_true h)

/-- Outside FAILED, PACK is its body (R303). -/
theorem exec_pack {s : State} (h : s.status.cstate ≠ .failed) : exec .pack s = packBody s :=
  if_pos (decide_eq_true h)

/-- ROTATE at 90 past its checks reads the snapshot and stores it turned (R192-R194). -/
theorem rotateBody_of_checks {s : State} (hangle : angle s = 90)
    (hcap : regionW s * regionH s ≤ s.params.regionCap)
    (hfit : regionY s + regionH s ≤ panelWidth s) :
    rotateBody s = orFault (readPixels s.mem .regionPix (List.range (regionW s * regionH s)))
      fun ps => .next (storeTurned (turnPixels (regionW s) (regionH s) ps) s) := by
  rw [rotateBody, if_neg (not_not_intro hangle), if_neg (Nat.not_lt.mpr hcap),
    if_neg (Nat.not_lt.mpr hfit)]

/-- PACK past its checks reads the region and stores its samples (R200). -/
theorem packBody_of_checks {s : State} (hcap : regionW s * regionH s ≤ s.params.regionCap)
    (hmod : regionW s * regionH s % 4 = 0)
    (hpacked : regionW s * regionH s / 2 ≤ s.params.packedCap) :
    packBody s = orFault (readPixels s.mem .regionPix (List.range (regionW s * regionH s)))
      fun ps => .next (storePacked (regionW s * regionH s) ps s) := by
  simp only [packBody, if_neg (Nat.not_lt.mpr hcap), if_neg (not_not_intro hmod),
    if_neg (Nat.not_lt.mpr hpacked)]

/-! ### The region's pixels -/

/-- A region whose pixels all read has a snapshot. -/
theorem snapshot_total {m : Memory} {w : Window} {n : Nat}
    (h : ∀ i, i < n → ∃ p, readPixel m w i = .ok p) : ∃ ps, readPixels m w (List.range n) = .ok ps :=
  readPixels_total fun i hi => h i (List.mem_range.mp hi)

theorem snapshot_length {m : Memory} {w : Window} {n : Nat} {ps : List Pixel}
    (h : readPixels m w (List.range n) = .ok ps) : ps.length = n := by
  rw [readPixels_length h, List.length_range]

/-- Entry i of a snapshot is pixel i of the window. -/
theorem readPixel_of_snapshot {m : Memory} {w : Window} {n i : Nat} {ps : List Pixel}
    (h : readPixels m w (List.range n) = .ok ps) (hi : i < ps.length) :
    readPixel m w i = .ok ps[i] := by
  have hread := readPixels_ok_iff.mp h
  simpa using hread.get (hread.length_eq ▸ hi) hi

/-- Stored pixel (c, r) of a turned snapshot is the window's pixel (r, h - 1 - c) (R194). -/
theorem readPixel_turned {m m' : Memory} {w w' : Window} {cols rows r c : Nat} {ps : List Pixel}
    (h : readPixels m w (List.range (cols * rows)) = .ok ps) (hr : r < cols) (hc : c < rows) :
    readPixel (writePixels m' w' (turnPixels cols rows ps)) w' (r * rows + c)
      = readPixel m w ((rows - 1 - c) * cols + r) := by
  have hlen := snapshot_length h
  have hsrc : (rows - 1 - c) * cols + r < ps.length := hlen ▸ turned_index_lt hr hc
  have hturn := turnPixels_getElem? hlen hr hc
  rw [List.getElem?_eq_getElem hsrc] at hturn
  obtain ⟨hdst, hturn⟩ := List.getElem?_eq_some_iff.mp hturn
  rw [readPixel_writePixels m' w' _ hdst, hturn, readPixel_of_snapshot h hsrc]

/-! ### Packed bytes -/

/-- Packed byte k holds samples 2k and 2k + 1 (R201). -/
theorem getElem?_packSamples {qs : List Nat} {k : Nat} (hk : 2 * k + 1 < qs.length) :
    (packSamples qs)[k]? = some (packByte qs[2 * k] qs[2 * k + 1]) := by
  induction k generalizing qs with
  | zero =>
    match qs, hk with
    | _ :: _ :: _, _ => rfl
  | succ k ih =>
    match qs, hk with
    | q0 :: q1 :: rest, hk =>
      simp only [List.length_cons] at hk
      exact ih (by omega)

/-- The earlier sample is the low nibble (R201). -/
theorem packByte_toNat {q0 q1 : Nat} (h0 : q0 < 16) (h1 : q1 < 16) :
    (packByte q0 q1).toNat = q0 + 16 * q1 := by
  rw [packByte, BitVec.toNat_append, BitVec.toNat_ofNat, BitVec.toNat_ofNat, Nat.mod_eq_of_lt h0,
    Nat.mod_eq_of_lt h1, Nat.shiftLeft_eq, Nat.mul_comm q1, ← Nat.two_pow_add_eq_or_of_lt h0]
  omega

theorem quantise_lt (tie : LumaTie) (px : Pixel) : quantise tie px < 16 :=
  Nat.div_lt_of_lt_mul (Nat.lt_succ_of_le (luma_le tie px))

/-- Packed byte k of a snapshot holds the samples of the window's pixels 2k and 2k + 1 (R198, R201). -/
theorem read_packed {m m' : Memory} {w : Window} {tie : LumaTie} {a n k : Nat} {ps : List Pixel}
    {p q : Pixel} (h : readPixels m w (List.range n) = .ok ps) (hk : k < n / 2)
    (hp : readPixel m w (2 * k) = .ok p) (hq : readPixel m w (2 * k + 1) = .ok q) :
    Memory.read (Memory.writeBytes m' a (packSamples (ps.map (quantise tie)))) (a + k)
      = some (packByte (quantise tie p) (quantise tie q)) := by
  have hlen := snapshot_length h
  have hlt : 2 * k + 1 < ps.length := by omega
  have hp' : ps[2 * k] = p :=
    Except.ok.inj ((readPixel_of_snapshot h (Nat.lt_of_succ_lt hlt)).symm.trans hp)
  have hq' : ps[2 * k + 1] = q := Except.ok.inj ((readPixel_of_snapshot h hlt).symm.trans hq)
  have hbyte := getElem?_packSamples (qs := ps.map (quantise tie)) (by rwa [List.length_map])
  rw [List.getElem_map, List.getElem_map, hp', hq'] at hbyte
  obtain ⟨hin, hbyte⟩ := List.getElem?_eq_some_iff.mp hbyte
  rw [read_writeBytes_inside m' a _ hin, hbyte]

/-- Packing a snapshot stores nothing past its bytes. -/
theorem sameOutside_packed {m m' : Memory} {w : Window} {n : Nat} {ps : List Pixel} (tie : LumaTie)
    (h : readPixels m w (List.range n) = .ok ps) :
    sameOutside .packed (n / 2) m'
      (Memory.writeBytes m' Window.packed.base (packSamples (ps.map (quantise tie)))) := by
  intro a ha
  apply read_writeBytes_outside
  rwa [length_packSamples, List.length_map, snapshot_length h]

/-- Turning a snapshot stores nothing past its pixels. -/
theorem sameOutside_turned (m : Memory) (w : Window) (cols rows : Nat) (ps : List Pixel) :
    sameOutside w (3 * (cols * rows)) m (writePixels m w (turnPixels cols rows ps)) :=
  turnPixels_length cols rows ps ▸ sameOutside_writePixels m w (turnPixels cols rows ps)

/-! ### What ROTATE, PACK and DRAW answer -/

/-- What ROTATE, PACK and DRAW can answer. -/
inductive RegionEffect (s : State) : Instr → State → Prop
  /-- It writes nothing but STATUS. -/
  | completes (i : Instr) (e : ErrCode) : RegionEffect s i (complete e s)
  /-- ROTATE at 90 stores the turned region. -/
  | turns (ps : List Pixel) (hangle : angle s = 90) :
      RegionEffect s .rotate (storeTurned (turnPixels (regionW s) (regionH s) ps) s)
  /-- PACK stores the region's samples. -/
  | packs (ps : List Pixel)
      (hps : readPixels s.mem .regionPix (List.range (regionW s * regionH s)) = .ok ps) :
      RegionEffect s .pack (storePacked (regionW s * regionH s) ps s)
  /-- DRAW replaces the frame buffer. -/
  | draws (bs : List Byte) : RegionEffect s .draw (complete .none { s with fb := bs })

/-- A gated meaning's answers are its body's, and STATE_ERROR. -/
theorem RegionEffect.of_gated {i : Instr} {body : State → Result} {s t : State}
    (h : gated i body s = .next t) (hbody : body s = .next t → RegionEffect s i t) :
    RegionEffect s i t := by
  rcases gated_cases i body s with ⟨-, hg⟩ | ⟨-, hg⟩ <;> rw [hg] at h
  · cases h
    exact .completes i .stateError
  · exact hbody h

theorem execRotate_region {s t : State} (h : execRotate s = .next t) : RegionEffect s .rotate t := by
  refine .of_gated h fun hbody => ?_
  rcases rotateBody_cases hbody with
    ⟨-, rfl⟩ | ⟨-, -, rfl⟩ | ⟨-, -, -, rfl⟩ | ⟨hangle, -, -, ps, -, rfl⟩
  · exact .completes _ _
  · exact .completes _ _
  · exact .completes _ _
  · exact .turns ps hangle

theorem execPack_region {s t : State} (h : execPack s = .next t) : RegionEffect s .pack t := by
  refine .of_gated h fun hbody => ?_
  rcases packBody_cases hbody with ⟨-, rfl⟩ | ⟨-, -, rfl⟩ | ⟨-, -, -, rfl⟩ | ⟨-, -, -, ps, hps, rfl⟩
  · exact .completes _ _
  · exact .completes _ _
  · exact .completes _ _
  · exact .packs ps hps

theorem execDraw_region {s t : State} (h : execDraw s = .next t) : RegionEffect s .draw t := by
  refine .of_gated h fun hbody => ?_
  rcases drawBody_cases hbody with ⟨-, rfl⟩ | ⟨-, -, bs, -, rfl⟩
  · exact .completes _ _
  · exact .draws bs

theorem exec_region_effect {i : Instr} {s t : State} (hi : i = .rotate ∨ i = .pack ∨ i = .draw)
    (h : exec i s = .next t) : RegionEffect s i t := by
  rcases hi with rfl | rfl | rfl
  · exact execRotate_region h
  · exact execPack_region h
  · exact execDraw_region h

/-! ### The obligations -/

/-- Settles O24: the body's first test. -/
theorem rotateIsTheIdentityUnlessNinety : Obligations.RotateIsTheIdentityUnlessNinety := by
  intro s hc hangle
  rw [exec_rotate hc]
  exact if_pos hangle

/-- Settles O25: past the checks the snapshot is stored turned; each field of the new geometry fits a
register half, since it comes from one. -/
theorem rotateTurnsTheRegion : Obligations.RotateTurnsTheRegion := by
  intro s hc hangle x y w h hcap hfit hpix
  obtain ⟨ps, hps⟩ := snapshot_total hpix
  have hleft : lo16 s.regs.panelGeom - y - h < 2 ^ 16 :=
    (Nat.sub_le _ _).trans (Nat.sub_le _ _) |>.trans_lt (lo16_lt _)
  refine ⟨writePixels s.mem .regionPix (turnPixels w h ps), pairWord x (panelWidth s - y - h),
    pairWord w h, ?_, lo16_pairWord hleft, hi16_pairWord (lo16_lt _), lo16_pairWord (hi16_lt _),
    hi16_pairWord (lo16_lt _), fun r c hr hcol => readPixel_turned hps hr hcol,
    sameOutside_turned _ _ _ _ _⟩
  rw [exec_rotate hc, rotateBody_of_checks hangle hcap hfit, regionW, regionH, hps]
  rfl

/-- Settles O26: past the checks each pair of samples is stored as one byte, and a luminance of at
most 255 leaves a nibble. -/
theorem packPacksTwoSamplesAByte : Obligations.PackPacksTwoSamplesAByte := by
  intro s hc n hcap hmod hpacked hpix
  obtain ⟨ps, hps⟩ := snapshot_total hpix
  have hn : n < 2 ^ 16 * 2 ^ 16 := Nat.mul_lt_mul'' (lo16_lt _) (hi16_lt _)
  refine ⟨Memory.writeBytes s.mem Window.packed.base
      (packSamples (ps.map (quantise s.params.lumaTie))), BitVec.ofNat 32 (n / 2), ?_, ?_,
    fun k p q hk hp hq => ⟨_, read_packed hps hk hp hq, ?_⟩, sameOutside_packed _ hps⟩
  · rw [exec_pack hc, packBody_of_checks hcap hmod hpacked, regionW, regionH, hps]
    rfl
  · exact Nat.mod_eq_of_lt (by omega)
  · exact packByte_toNat (quantise_lt _ _) (quantise_lt _ _)

/-- Settles O27: each check is one test of the body, and the tests before it fail. -/
theorem regionChecksComeBeforeWrites : Obligations.RegionChecksComeBeforeWrites := by
  intro s hc n y h
  rw [exec_rotate hc, exec_pack hc]
  refine ⟨fun hangle hcap => ?_, fun hangle hcap hfit => ?_, fun hcap => ?_, fun hcap hmod => ?_,
    fun hcap hmod hpacked => ?_⟩
  · exact (if_neg (not_not_intro hangle)).trans (if_pos hcap)
  · exact (if_neg (not_not_intro hangle)).trans <| (if_neg (Nat.not_lt.mpr hcap)).trans
      (if_pos hfit)
  · exact if_pos hcap
  · exact (if_neg (Nat.not_lt.mpr hcap)).trans (if_pos hmod)
  · exact (if_neg (Nat.not_lt.mpr hcap)).trans <| (if_neg (not_not_intro hmod)).trans
      (if_pos hpacked)

/-- Settles O28: by what the three commands can answer. -/
theorem regionCommandsChangeOnlyTheirResults :
    Obligations.RegionCommandsChangeOnlyTheirResults := by
  intro i s t hi h
  cases exec_region_effect hi h with
  | completes _ e =>
    exact ⟨rfl, rfl, rfl, rfl, fun _ => ⟨rfl, rfl, rfl⟩,
      fun _ => ⟨rfl, rfl, fun _ => ⟨rfl, rfl⟩, fun _ _ => rfl⟩,
      fun _ => ⟨rfl, rfl, rfl, fun _ _ => rfl⟩, fun _ => ⟨rfl, rfl⟩⟩
  | turns ps hangle =>
    exact ⟨rfl, rfl, rfl, rfl, fun herr => absurd rfl herr,
      fun _ => ⟨rfl, rfl, fun hne => absurd hangle hne, sameOutside_turned _ _ _ _ _⟩, nofun, nofun⟩
  | packs ps hps =>
    exact ⟨rfl, rfl, rfl, rfl, fun herr => absurd rfl herr, nofun,
      fun _ => ⟨rfl, rfl, rfl, sameOutside_packed _ hps⟩, nofun⟩
  | draws bs =>
    exact ⟨rfl, rfl, rfl, rfl, fun herr => absurd rfl herr, nofun, nofun, fun _ => ⟨rfl, rfl⟩⟩

end Sys2Proof.Proofs

/-! # The bus discipline: what the events of a step keep (42_bus_phases.md R230) -/

namespace Sys2Proof.Proofs

open Sys2Proof Sys2Proof.Machine Sys2Proof.Spec

/-- `t` comes after `s` on the bus, and the events in between keep the discipline. -/
def Disciplined (s t : State) : Prop :=
  t.params = s.params ∧ ∃ es, t.trace = s.trace ++ es ∧ t.sel = selFollows s.sel es ∧
    eventsAllowed s.params s.sel s.trace.getLast? es = true

/-- Events keep the discipline when the first ones do, and the others do from where those lead. -/
theorem eventsAllowed_append (p : Params) (sel : Line) (last : Option Event) (es fs : List Event) :
    eventsAllowed p sel last (es ++ fs) = (eventsAllowed p sel last es &&
      eventsAllowed p (selFollows sel es) (es.getLast?.or last) fs) := by
  induction es generalizing sel last with
  | nil => rfl
  | cons e es ih =>
    have hsel : selFollows sel (e :: es) = selFollows (selAfter e sel) es := by cases e <;> rfl
    have hlast : (e :: es).getLast?.or last = es.getLast?.or (some e) := by
      simp [List.getLast?_cons]
    simp only [List.cons_append, eventsAllowed, ih, hsel, hlast, Bool.and_assoc]

theorem Disciplined.silent {s t : State} (hparams : t.params = s.params)
    (htrace : t.trace = s.trace) (hsel : t.sel = s.sel) : Disciplined s t :=
  ⟨hparams, [], by simp [htrace], hsel, rfl⟩

/-- One event that the discipline allows. -/
theorem Disciplined.event {s t : State} {e : Event} (hparams : t.params = s.params)
    (htrace : t.trace = s.trace ++ [e]) (hsel : t.sel = selAfter e s.sel)
    (hallowed : eventAllowed s.params s.sel s.trace.getLast? e = true) : Disciplined s t :=
  ⟨hparams, [e], htrace, hsel.trans (by cases e <;> rfl), by simp [eventsAllowed, hallowed]⟩

theorem Disciplined.trans {s t u : State} (h : Disciplined s t) (h' : Disciplined t u) :
    Disciplined s u := by
  obtain ⟨hp, es, htr, hsel, hes⟩ := h
  obtain ⟨hp', fs, htr', hsel', hfs⟩ := h'
  refine ⟨hp'.trans hp, es ++ fs, by rw [htr', htr, List.append_assoc],
    by rw [hsel', hsel, selFollows_append], ?_⟩
  rw [hp, hsel, htr, List.getLast?_append] at hfs
  rw [eventsAllowed_append, hes, hfs]
  rfl

/-! ### One item: the position in the sequence allows the event (R223-R225) -/

section
variable {i : Instr} {s : State} {rest : List Item}

theorem doInit_disciplined (hsel : s.sel = .undriven) : Disciplined s (doInit rest s) := by
  unfold doInit
  split
  · exact .silent rfl rfl rfl
  · simp only
    split <;> exact .event rfl rfl rfl (decide_eq_true hsel)

theorem doPoll_disciplined (hsel : s.sel = .driven true) : Disciplined s (doPoll rest s) := by
  unfold doPoll
  split
  · exact .silent rfl rfl rfl
  · rename_i l _ _
    have hallowed : eventAllowed s.params s.sel s.trace.getLast? (.readPin l) = true :=
      decide_eq_true hsel
    simp only
    split
    · exact .event rfl rfl rfl hallowed
    · split <;> exact .event rfl rfl rfl hallowed

theorem doXfer_disciplined {b : Byte} (hsel : s.sel = .driven false) :
    Disciplined s (doXfer b rest s) := by
  unfold doXfer
  split
  · exact .silent rfl rfl rfl
  · exact .event rfl rfl rfl (decide_eq_true hsel)

theorem doRecv_disciplined {keep : Bool} (hsel : s.sel = .driven false) :
    Disciplined s (doRecv keep rest s) := by
  unfold doRecv
  split
  · exact .silent rfl rfl rfl
  · rename_i a _ _
    have hallowed : eventAllowed s.params s.sel s.trace.getLast? (.xfer 0 a) = true :=
      decide_eq_true hsel
    simp only
    split <;> exact .event rfl rfl rfl hallowed

/-- Select(0) stands only right after a ready poll, Select(1) only where the line is not high. -/
theorem Midway.select_allowed {l : Level} (h : Midway i s)
    (hitems : s.seq.items = .select l :: rest) :
    eventAllowed s.params s.sel s.trace.getLast? (.select l) = true := by
  have hshape := (h.shape hitems).shape
  cases l <;> simp only [sequenceShape, Bool.and_eq_true] at hshape
  case true => exact hshape.1.2
  case false =>
    have hready := h.ready (by rw [hitems]; rfl)
    exact Bool.and_eq_true_iff.mpr ⟨hshape.1.2, hready⟩

/-- An item of a sound sequence emits only what the discipline allows. -/
theorem Midway.perform_disciplined (h : Midway i s) : Disciplined s (perform s) := by
  rcases hitems : s.seq.items with _ | ⟨item, rest⟩
  · rw [perform_nil hitems]; exact .silent rfl rfl rfl
  have hshape := (h.shape hitems).shape
  cases item <;> simp only [perform, hitems] <;>
    simp only [sequenceShape, Bool.and_eq_true, decide_eq_true_eq, Bool.false_eq_true] at hshape
  case initCall => exact doInit_disciplined hshape.1.2
  case config | pinDir | writeRst | delay =>
    exact .event rfl rfl rfl (decide_eq_true hshape.1.2)
  case select => exact .event rfl rfl rfl (h.select_allowed hitems)
  case poll => exact doPoll_disciplined hshape.1.2
  case xfer => exact doXfer_disciplined hshape.1.2
  case recv => exact doRecv_disciplined hshape.1.2
  case finishDiscover =>
    simp only [commitDiscover]
    split <;> exact .silent rfl rfl rfl
  case op | data | vcomCheck | finishInit | finishConfigure | finishRegRead | finish =>
    exact .silent rfl rfl rfl

end

/-- An item keeps the discipline wherever the invariant holds: only a command midway has an event to
emit. -/
theorem perform_disciplined {s : State} (h : s.inv = true) : Disciplined s (perform s) := by
  obtain ⟨-, hidle | ⟨i, hacc⟩ | ⟨i, hmid⟩⟩ := (inv_iff s).mp h
  · rw [perform_nil (by rw [hidle.seq]; rfl)]
    exact .silent rfl rfl rfl
  · simp only [perform, hacc.items]
    exact .silent rfl rfl rfl
  · exact hmid.perform_disciplined

theorem advance_disciplined {s : State} (n : Nat) (h : s.inv = true) :
    Disciplined s (advance n s) :=
  (advance_keeps (P := fun t => t.inv = true ∧ Disciplined s t)
    (fun _ ht => ⟨perform_inv ht.1, ht.2.trans (perform_disciplined ht.1)⟩) n
    ⟨h, .silent rfl rfl rfl⟩).2

/-! ### Meanings and steps -/

theorem Startable.runSequence_disciplined {i : Instr} {s : State} (h : Startable s)
    (hi : i.isCommand = true) (hallowed : allowedIn i s.status.cstate = true) {items : List Item}
    (hitems : sequenceOf s i = some items) : Disciplined s (runSequence i items s) := by
  simp only [runSequence]
  split
  · exact .silent rfl rfl rfl
  · exact .trans (.silent rfl rfl rfl)
      (advance_disciplined _ (h.sequence_inv hi hallowed hitems))

theorem Startable.exec_disciplined {i : Instr} {s t : State} (h : Startable s)
    (hi : i.isCommand = true) (hexec : exec i s = .next t) : Disciplined s t := by
  cases exec_effect hexec with
  | completes | stores | draws => exact .silent rfl rfl rfl
  | runs items hallowed hitems => exact h.runSequence_disciplined hi hallowed hitems
  | sends w hw => rw [hi] at hw; cases hw

theorem SameBlock.disciplined {s u : State} (h : SameBlock s u) : Disciplined s u := by
  obtain ⟨_, _, _, rfl⟩ := h
  exact .silent rfl rfl rfl

/-- Every effect of a step other than the reset keeps the discipline. -/
theorem StepEffect.disciplined {s t : State} (h : StepEffect s t) (hinv : s.inv = true) :
    Disciplined s t := by
  cases h with
  | stays hu => exact hu.disciplined
  | writesRegister hu r v =>
    rw [writeReg_regs]
    exact hu.disciplined.trans (.silent rfl rfl rfl)
  | rejects hu | writesWindow hu | illegal hu | accepts hu | skips hu =>
    exact hu.disciplined.trans (.silent rfl rfl rfl)
  | acceptsAndRuns hu i hrun hc hi _ hexec =>
    have hstart := startable_accept (i := i) (hu.running.trans hrun) (hu.status ▸ hc)
      (inv_of_sameBlock hu hinv)
    exact (hu.disciplined.trans (u := accept i _) (.silent rfl rfl rfl)).trans
      (hstart.exec_disciplined hi hexec)
  | begins hu i rest hrun hitems hexec =>
    have hstart := startable_begin (hu.running.trans hrun) (hu.seq ▸ hitems)
      (inv_of_sameBlock hu hinv)
    have hi := (accepted_of_inv hinv hrun hitems).2.command
    exact (hu.disciplined.trans (u := setItems rest _) (.silent rfl rfl rfl)).trans
      (hstart.exec_disciplined hi hexec)
  | advances hu n => exact hu.disciplined.trans (advance_disciplined n (inv_of_sameBlock hu hinv))

/-- Settles O55: by the effects of a step; only the items of a sound sequence emit events, and the
sequence's shape puts each where the discipline allows it. -/
theorem busDiscipline : Obligations.BusDiscipline := by
  intro s t hinv hreset hstep
  rcases step_effect hstep with ⟨hreset', -⟩ | ⟨-, ht⟩
  · rw [hreset] at hreset'; cases hreset'
  · obtain ⟨-, es, htrace, -, hes⟩ := ht.disciplined hinv
    exact ⟨es, htrace, hes⟩

end Sys2Proof.Proofs

/-! # The ready poll, item by item: waiting, ready, timed out (42_bus_phases.md R222) -/

namespace Sys2Proof.Proofs

open Sys2Proof Sys2Proof.Machine Sys2Proof.Spec

/-- A poll after `k` more not-ready reads. -/
def waited (k : Nat) (s : State) : State :=
  { s with
    seq := { s.seq with polls := s.seq.polls + k }
    trace := s.trace ++ List.replicate k (.readPin (!s.params.readyLevel))
    oracle := { s.oracle with levels := s.oracle.levels.drop k } }

section
variable {s : State} {rest : List Item}

/-- A not-ready read below the bound: the poll goes on. -/
theorem doPoll_notReady {more : List Level}
    (hlevels : s.oracle.levels = (!s.params.readyLevel) :: more)
    (hbound : s.seq.bound ≠ 0 → s.seq.polls + 1 < s.seq.bound) : doPoll rest s = waited 1 s := by
  have hgoes : ¬(s.seq.bound ≠ 0 ∧ s.seq.bound ≤ s.seq.polls + 1) := fun ⟨h0, hle⟩ =>
    Nat.not_lt.mpr hle (hbound h0)
  simp [doPoll, hlevels, hgoes, waited, emit, selAfter, rstAfter]

/-- The not-ready read that reaches the bound: the command ends. -/
theorem doPoll_timesOut {more : List Level}
    (hlevels : s.oracle.levels = (!s.params.readyLevel) :: more)
    (hbound : s.seq.bound = s.seq.polls + 1) :
    doPoll rest s = complete .protocolTimeout (waited 1 s) := by
  simp [doPoll, hlevels, hbound, waited, emit, selAfter, rstAfter, complete]

theorem waited_waited (j k : Nat) : waited k (waited j s) = waited (j + k) s := by
  simp [waited, Nat.add_assoc]

/-- What not-ready answers to come look like when the first of them is taken. -/
theorem notReady_cons {p : Params} {k : Nat} {levels : List Level}
    (h : levels.take (k + 1) = List.replicate (k + 1) (!p.readyLevel)) :
    ∃ more, levels = (!p.readyLevel) :: more ∧ more.take k = List.replicate k (!p.readyLevel) := by
  cases levels with
  | nil => simp [List.replicate_succ] at h
  | cons l more =>
    rw [List.take_succ_cons, List.replicate_succ, List.cons.injEq] at h
    exact ⟨more, by rw [h.1], h.2⟩

theorem notReady_take {l : Level} {k n : Nat} {levels : List Level} (hle : k ≤ n)
    (h : levels.take n = List.replicate n l) : levels.take k = List.replicate k l := by
  simpa [List.take_take, List.take_replicate, hle] using congrArg (List.take k) h

/-- Not-ready reads below the bound leave the poll where it is, one item each. -/
theorem advance_waits (k : Nat) (hitems : s.seq.items = .poll :: rest)
    (hlevels : s.oracle.levels.take k = List.replicate k (!s.params.readyLevel))
    (hbound : s.seq.bound ≠ 0 → s.seq.polls + k < s.seq.bound) : advance k s = waited k s := by
  induction k generalizing s with
  | zero => simp [advance, waited]
  | succ k ih =>
    obtain ⟨more, hl, hmore⟩ := notReady_cons hlevels
    have hread : perform s = waited 1 s := by
      rw [perform_poll hitems]
      exact doPoll_notReady hl fun h0 => by have := hbound h0; omega
    rw [advance, hread, Nat.add_comm k 1, ← waited_waited]
    refine ih hitems ?_ fun h0 => ?_
    · simpa [waited, hl] using hmore
    · have := hbound h0
      simp only [waited]
      omega

/-- The not-ready reads up to the bound end the command (R222, R302). -/
theorem advance_timesOut (hitems : s.seq.items = .poll :: rest) (hlt : s.seq.polls < s.seq.bound)
    (hlevels : s.oracle.levels.take (s.seq.bound - s.seq.polls)
      = List.replicate (s.seq.bound - s.seq.polls) (!s.params.readyLevel)) :
    advance (s.seq.bound - s.seq.polls) s
      = complete .protocolTimeout (waited (s.seq.bound - s.seq.polls) s) := by
  obtain ⟨k, hk⟩ := Nat.exists_eq_add_one_of_ne_zero (Nat.sub_ne_zero_of_lt hlt)
  rw [hk] at hlevels ⊢
  have hwaits : advance k s = waited k s :=
    advance_waits k hitems (notReady_take k.le_succ hlevels) fun _ => by omega
  have hlast : (waited k s).oracle.levels.take 1 = [!s.params.readyLevel] := by
    simpa [waited, List.drop_take] using congrArg (List.drop k) hlevels
  obtain ⟨more, hl, -⟩ := notReady_cons (p := s.params) (k := 0) hlast
  rw [advance_add, hwaits, ← waited_waited]
  show perform (waited k s) = _
  rw [perform_poll (s := waited k s) hitems]
  exact doPoll_timesOut hl (by simp only [waited]; omega)

end

/-! ### A poll's steps -/

/-- Steps that each do the next item do what the items do. -/
theorem steps_eq_advance {s : State} {n : Nat}
    (h : ∀ m < n, step (advance m s) = .next (perform (advance m s))) :
    steps n s = .next (advance n s) := by
  induction n generalizing s with
  | zero => rfl
  | succ n ih =>
    have hfirst : step s = .next (perform s) := h 0 n.succ_pos
    rw [steps_succ hfirst]
    exact ih fun m hm => h (m + 1) (Nat.succ_lt_succ hm)

/-- With no input, the step of a poll is one of its reads. -/
theorem step_poll {s : State} {rest : List Item} (hquiet : s.inputs = [])
    (hitems : s.seq.items = .poll :: rest) : step s = .next (perform s) := by
  rw [step_of_no_input hquiet, blockTurn, hitems]

/-- A poll that times out takes one step a read. -/
theorem steps_timesOut {s : State} {rest : List Item} (hquiet : s.inputs = [])
    (hitems : s.seq.items = .poll :: rest) (hlt : s.seq.polls < s.seq.bound)
    (hlevels : s.oracle.levels.take (s.seq.bound - s.seq.polls)
      = List.replicate (s.seq.bound - s.seq.polls) (!s.params.readyLevel)) :
    steps (s.seq.bound - s.seq.polls) s
      = .next (complete .protocolTimeout (waited (s.seq.bound - s.seq.polls) s)) := by
  rw [steps_eq_advance, advance_timesOut hitems hlt hlevels]
  intro m hm
  have hwaits : advance m s = waited m s :=
    advance_waits m hitems (notReady_take hm.le hlevels) fun _ => by omega
  rw [hwaits]
  exact step_poll (s := waited m s) hquiet hitems

/-! ### The commands that begin with a poll -/

/-- The sequence of a command with a ready poll begins with it (R226, R256-R286). -/
theorem sequenceOf_polled {i : Instr} (hi : polled i) (s : State) :
    ∃ rest, sequenceOf s i = some (.poll :: rest) := by
  rcases hi with rfl | rfl | rfl | rfl | rfl <;> exact ⟨_, rfl⟩

/-- A command with a ready poll runs its sequence where its state allows it and, for DISPLAY, the frame
buffer holds the stream (R275, R306). -/
theorem exec_polled {i : Instr} {s : State} {items : List Item} (hi : polled i)
    (hc : s.status.cstate ∈ allowedStates i) (hfb : i = .display → 2 * displayN s ≤ s.fb.length)
    (hitems : sequenceOf s i = some items) : exec i s = .next (runSequence i items s) := by
  have hallowed : allowedIn i s.status.cstate = true :=
    (allowedIn_iff_mem (by rcases hi with rfl | rfl | rfl | rfl | rfl <;> rfl) _).mpr hc
  rcases hi with rfl | rfl | rfl | rfl | rfl <;> cases hitems
  case inr.inr.inl => exact (if_pos hallowed).trans (if_neg (Nat.not_lt.mpr (hfb rfl)))
  all_goals exact if_pos hallowed

/-- The start of a command's sequence: TIMEOUT is read, and nothing has been done (R113, R222). -/
def laidOut (i : Instr) (items : List Item) (s : State) : State :=
  { s with
    running := some i
    seq := { items := items, polls := 0, rx := [], bound := s.regs.timeout.toNat } }

theorem runSequence_whole (i : Instr) (items : List Item) {s : State} (hpace : s.pace = .whole) :
    runSequence i items s = advance (enough (laidOut i items s)) (laidOut i items s) := by
  simp only [runSequence, hpace, laidOut]

/-- A sequence that has come to rest stays there, however far it may still run. -/
theorem advance_eq_of_rests {m n : Nat} {s t : State} (hle : m ≤ n) (ht : advance m s = t)
    (hrests : perform t = t) : advance n s = t := by
  obtain ⟨more, rfl⟩ := Nat.exists_eq_add_of_le hle
  rw [advance_add, ht, advance_fixed hrests]

/-- A sequence whose first poll times out ends there. -/
theorem runSequence_timesOut (i : Instr) {s : State} {rest : List Item} (hpace : s.pace = .whole)
    (hpos : 0 < s.regs.timeout.toNat)
    (hlevels : s.oracle.levels.take s.regs.timeout.toNat
      = List.replicate s.regs.timeout.toNat (!s.params.readyLevel)) :
    runSequence i (.poll :: rest) s
      = complete .protocolTimeout (waited s.regs.timeout.toNat s) := by
  have hends := advance_timesOut (s := laidOut i (.poll :: rest) s) rfl hpos hlevels
  have hlen : s.regs.timeout.toNat ≤ s.oracle.levels.length := by
    simpa using congrArg List.length hlevels
  rw [runSequence_whole i _ hpace, advance_eq_of_rests ?_ hends (perform_nil rfl)]
  · rfl
  · exact hlen.trans (Nat.le_add_left _ _)

/-- Settles O38: every poll ends at the read that reaches its bound; the first one of a command counts
from 0 under the TIMEOUT register. -/
theorem firstPollTimesOut : Obligations.FirstPollTimesOut := by
  constructor
  · intro i s hi hpace hc hfb bound hpos hlevels
    obtain ⟨rest, hseq⟩ := sequenceOf_polled hi s
    rw [exec_polled hi hc hfb hseq, runSequence_timesOut i hpace hpos hlevels]
    rfl
  · intro s rest hquiet hitems hlt left hlevels
    rw [steps_timesOut hquiet hitems hlt hlevels]
    rfl

end Sys2Proof.Proofs

/-! # Transfers and phases on the bus (42_bus_phases.md R220-R225) -/

namespace Sys2Proof.Proofs

open Sys2Proof Sys2Proof.Machine Sys2Proof.Spec

/-! ### A wire word by itself (R115, R120) -/

/-- What transfers change: the trace, the answers to `Xfer`, and the sequencer's position. -/
def TransfersOnly (s t : State) : Prop :=
  t = { s with seq := t.seq, trace := t.trace, oracle := t.oracle } ∧
    t.oracle.inits = s.oracle.inits ∧ t.oracle.levels = s.oracle.levels ∧
    t.seq.rx = s.seq.rx ∧ t.seq.bound = s.seq.bound

theorem TransfersOnly.trans {s t u : State} (h : TransfersOnly s t) (h' : TransfersOnly t u) :
    TransfersOnly s u := by
  obtain ⟨ht, hi, hl, hr, hb⟩ := h
  obtain ⟨hu, hi', hl', hr', hb'⟩ := h'
  exact ⟨by rw [hu, ht], hi'.trans hi, hl'.trans hl, hr'.trans hr, hb'.trans hb⟩

theorem pushWord_transfersOnly (w : Word16) (rest : List Item) (s : State) :
    TransfersOnly s (pushWord w rest s) := ⟨rfl, rfl, rfl, rfl, rfl⟩

/-- Transfers that stand next change nothing else, however many of their answers have come. -/
theorem advance_xfers_transfersOnly {bs : List Byte} {rest : List Item} {s : State}
    (hitems : s.seq.items = bs.map .xfer ++ rest) :
    TransfersOnly s (advance bs.length s) := by
  induction bs generalizing s with
  | nil => exact ⟨rfl, rfl, rfl, rfl, rfl⟩
  | cons b bs ih =>
    have hfirst := perform_xfer (s := s) hitems
    cases hanswers : s.oracle.bytes with
    | nil =>
      have hwaits : perform s = s := by rw [hfirst, doXfer, hanswers]
      rw [advance_fixed hwaits]
      exact ⟨rfl, rfl, rfl, rfl, rfl⟩
    | cons a more =>
      rw [List.length_cons, advance, hfirst, doXfer_answered hanswers]
      exact .trans (t := setItems _ (emit (.xfer b a) { s with oracle := _ }))
        ⟨rfl, rfl, rfl, rfl, rfl⟩ (ih rfl)

theorem sendWord_transfersOnly (w : Word16) (s : State) : TransfersOnly s (sendWord w s) := by
  have hpush := pushWord_transfersOnly w s.seq.items s
  have hlen : (wordBytes s.params.wireWordOrder w).length = 2 := by
    cases s.params.wireWordOrder <;> rfl
  simp only [sendWord]
  split
  · exact hpush
  · refine hpush.trans ?_
    rw [← hlen]
    exact advance_xfers_transfersOnly rfl

/-- Settles O47: a wire instruction sends its word, and sending is transfers. -/
theorem wireWordFrame : Obligations.WireWordFrame := by
  intro i s t hwire hexec
  obtain ⟨w, rfl⟩ : ∃ w, t = sendWord w s := by
    cases i <;> cases hwire <;> cases hexec <;> exact ⟨_, rfl⟩
  exact sendWord_transfersOnly w s

/-! ### Transfers with their answers there (R221) -/

/-- Some number of items leads from `s` to `t`. -/
def Reaches (s t : State) : Prop := ∃ n, advance n s = t

theorem Reaches.trans {s t u : State} (h : Reaches s t) (h' : Reaches t u) : Reaches s u := by
  obtain ⟨m, rfl⟩ := h
  obtain ⟨n, rfl⟩ := h'
  exact ⟨m + n, advance_add m n s⟩

theorem Reaches.perform {s t : State} (h : perform s = t) : Reaches s t := ⟨1, h⟩

/-- The machine after transfers of the bytes `sent`, with the answers `kept` of them. -/
def transferred (sent kept : List Byte) (rest : List Item) (s : State) : State :=
  { s with
    seq := { s.seq with items := rest, rx := s.seq.rx ++ kept }
    trace := s.trace ++ List.zipWith Event.xfer sent s.oracle.bytes
    oracle := { s.oracle with bytes := s.oracle.bytes.drop sent.length } }

theorem zipWith_append_left {α β γ : Type} (f : α → β → γ) {xs xs' : List α} {ys : List β}
    (h : xs.length ≤ ys.length) :
    List.zipWith f (xs ++ xs') ys
      = List.zipWith f xs ys ++ List.zipWith f xs' (ys.drop xs.length) := by
  have hlen : xs.length = (ys.take xs.length).length := (List.length_take_of_le h).symm
  calc List.zipWith f (xs ++ xs') ys
    _ = List.zipWith f (xs ++ xs') (ys.take xs.length ++ ys.drop xs.length) := by
      rw [List.take_append_drop]
    _ = List.zipWith f xs (ys.take xs.length) ++ List.zipWith f xs' (ys.drop xs.length) :=
      List.zipWith_append hlen
    _ = _ := by simp [List.zipWith_eq_zipWith_take_min (l₂ := ys), h]

theorem transferred_transferred {sent sent' kept kept' : List Byte} {rest rest' : List Item}
    {s : State} (h : sent.length ≤ s.oracle.bytes.length) :
    transferred sent' kept' rest' (transferred sent kept rest s)
      = transferred (sent ++ sent') (kept ++ kept') rest' s := by
  simp [transferred, zipWith_append_left _ h]

theorem length_wireBytes (order : ByteOrder) (w : Word16) : (wireBytes order w).length = 2 := by
  cases order <;> rfl

/-- Outside a poll, with these answers to come, the items `body` send the bytes `sent` and keep the
answers `kept`. -/
def Transfers (p : Params) (answers : List Byte) (body : List Item) (sent kept : List Byte) : Prop :=
  ∀ (s : State) (rest : List Item), s.params = p → s.oracle.bytes = answers → s.seq.polls = 0 →
    s.seq.items = body ++ rest → Reaches s (transferred sent kept rest s)

section
variable {p : Params} {answers : List Byte}

theorem Transfers.nil : Transfers p answers [] [] [] := by
  rintro s rest - - - hitems
  refine ⟨0, ?_⟩
  simp [advance, transferred, ← show s.seq.items = rest from hitems]

/-- Transfers one after the other, each with the answers the ones before have left. -/
theorem Transfers.append {body body' : List Item} {sent sent' kept kept' : List Byte}
    (hlen : sent.length ≤ answers.length) (h : Transfers p answers body sent kept)
    (h' : Transfers p (answers.drop sent.length) body' sent' kept') :
    Transfers p answers (body ++ body') (sent ++ sent') (kept ++ kept') := by
  rintro s rest rfl rfl hpolls hitems
  rw [← transferred_transferred (rest := body' ++ rest) hlen]
  exact (h s _ rfl rfl hpolls (by rw [hitems, List.append_assoc])).trans
    (h' _ rest rfl rfl hpolls rfl)

/-- One byte, its answer ignored. -/
theorem Transfers.xfer {a : Byte} (b : Byte) : Transfers p (a :: answers) [.xfer b] [b] [] := by
  rintro s rest - hanswers hpolls hitems
  refine .perform ?_
  rw [perform_xfer hitems, doXfer_answered hanswers]
  simp [transferred, setItems, emit, selAfter, rstAfter, hanswers, hpolls]

/-- Bytes sent one after the other (R221). -/
theorem Transfers.xfers {bs : List Byte} (hlen : bs.length ≤ answers.length) :
    Transfers p answers (bs.map .xfer) bs [] := by
  induction bs generalizing answers with
  | nil => exact .nil
  | cons b bs ih =>
    obtain ⟨a, more, rfl⟩ := List.exists_cons_of_length_pos (Nat.zero_lt_of_lt hlen)
    exact .append (sent := [b]) (by simp) (.xfer b) (ih (Nat.le_of_succ_le_succ hlen))

/-- A word sent: a preamble, a code or data (R221). -/
theorem Transfers.word {item : Item} {w : Word16} (hitem : item = .op w ∨ item = .data w)
    (hlen : 2 ≤ answers.length) :
    Transfers p answers [item] (wireBytes p.wireWordOrder w) [] := by
  rintro s rest rfl rfl hpolls hitems
  have hpush : perform s = pushWord w rest s := by
    rcases hitem with rfl | rfl
    · exact perform_op hitems
    · exact perform_data hitems
  have hsent := Transfers.xfers (p := s.params) (answers := s.oracle.bytes)
    (bs := wireBytes s.params.wireWordOrder w) (by rwa [length_wireBytes])
    (pushWord w rest s) rest rfl rfl rfl (by rw [← wordBytes_eq_wireBytes]; rfl)
  have hsame : transferred (wireBytes s.params.wireWordOrder w) [] rest (pushWord w rest s)
      = transferred (wireBytes s.params.wireWordOrder w) [] rest s := by
    simp only [transferred, pushWord, setItems, hpolls]
  exact hsame ▸ (Reaches.perform hpush).trans hsent

/-- A word sent first, and the words that follow it. -/
theorem Transfers.cons {item : Item} {body : List Item} {w : Word16} {ws : List Word16}
    {kept : List Byte} (hitem : item = .op w ∨ item = .data w) (hlen : 2 ≤ answers.length)
    (h : Transfers p (answers.drop 2) body (ws.flatMap (wireBytes p.wireWordOrder)) kept) :
    Transfers p answers (item :: body) ((w :: ws).flatMap (wireBytes p.wireWordOrder)) kept := by
  have hword := length_wireBytes p.wireWordOrder w
  refine .append (body := [item]) (hword ▸ hlen) (.word hitem hlen) ?_
  rwa [hword]

/-- Data words sent one after the other, with no poll between them (R224, D24). -/
theorem Transfers.words {ws : List Word16} (hlen : 2 * ws.length ≤ answers.length) :
    Transfers p answers (ws.map .data) (ws.flatMap (wireBytes p.wireWordOrder)) [] := by
  induction ws generalizing answers with
  | nil => exact .nil
  | cons w ws ih =>
    rw [List.length_cons] at hlen
    refine .cons (.inr rfl) (by omega) (ih ?_)
    rw [List.length_drop]
    omega

/-- One byte received, its answer kept or discarded. -/
theorem Transfers.recv {a : Byte} (keep : Bool) :
    Transfers p (a :: answers) [.recv keep] [0] (if keep then [a] else []) := by
  rintro s rest - hanswers hpolls hitems
  refine .perform ?_
  rw [perform_recv hitems]
  cases keep <;>
    simp [doRecv, transferred, setItems, emit, selAfter, rstAfter, hanswers, hpolls]

/-- Bytes received one after the other (R221, R225). -/
theorem Transfers.recvs (keep : Bool) {n : Nat} (hlen : n ≤ answers.length) :
    Transfers p answers (List.replicate n (.recv keep)) (List.replicate n 0)
      (if keep then answers.take n else []) := by
  induction n generalizing answers with
  | zero => cases keep <;> exact .nil
  | succ n ih =>
    obtain ⟨a, more, rfl⟩ := List.exists_cons_of_length_pos (Nat.zero_lt_of_lt hlen)
    have hboth := (Transfers.recv (p := p) (a := a) keep).append (by simp)
      (ih (Nat.le_of_succ_le_succ hlen))
    cases keep <;> exact hboth

theorem flatMap_wireBytes_zeros (order : ByteOrder) (n : Nat) :
    (List.replicate n (0x0000 : Word16)).flatMap (wireBytes order) = List.replicate (2 * n) 0 := by
  induction n with
  | zero => rfl
  | succ n ih => rw [List.replicate_succ, List.flatMap_cons, ih]; cases order <;> rfl

theorem recvWords_eq_replicate (keep : Bool) (n : Nat) :
    recvWords keep n = List.replicate (2 * n) (.recv keep) := by
  induction n with
  | zero => rfl
  | succ n ih => rw [recvWords, ih]; rfl

/-- The words of a read phase after its preamble: the dummies' answers are discarded, the payload's
are kept (R225). -/
theorem Transfers.payload {dummies words : Nat} (hlen : 2 * (dummies + words) ≤ answers.length) :
    Transfers p answers (recvWords false dummies ++ recvWords true words)
      ((List.replicate (dummies + words) (0x0000 : Word16)).flatMap (wireBytes p.wireWordOrder))
      ((answers.drop (2 * dummies)).take (2 * words)) := by
  rw [recvWords_eq_replicate, recvWords_eq_replicate, flatMap_wireBytes_zeros, Nat.mul_add,
    List.replicate_add]
  have hdummies : Transfers p answers (List.replicate (2 * dummies) (.recv false))
      (List.replicate (2 * dummies) 0) [] := .recvs false (by omega)
  have hpayload : Transfers p (answers.drop (2 * dummies)) (List.replicate (2 * words) (.recv true))
      (List.replicate (2 * words) 0) ((answers.drop (2 * dummies)).take (2 * words)) :=
    .recvs true (by rw [List.length_drop]; omega)
  exact hdummies.append (by rw [List.length_replicate]; omega) (by rwa [List.length_replicate])

end

/-! ### A phase (R222-R225) -/

/-- The machine after a phase of these words, with `k` not-ready reads before the ready one. -/
def afterPhase (k : Nat) (more : List Level) (ws : List Word16) (kept : List Byte)
    (rest : List Item) (s : State) : State :=
  { s with
    seq := { s.seq with items := rest, polls := 0, rx := s.seq.rx ++ kept }
    trace := s.trace ++ List.replicate k (.readPin (!s.params.readyLevel))
      ++ phaseEvents s.params ws s.oracle.bytes
    sel := .driven true
    oracle := { s.oracle with levels := more, bytes := s.oracle.bytes.drop (2 * ws.length) } }

section
variable {s : State} {rest : List Item} {k : Nat} {more : List Level}

/-- A poll with `k` not-ready reads below the bound, and then a ready one (R222). -/
theorem reaches_poll (hitems : s.seq.items = .poll :: rest)
    (hlevels : s.oracle.levels
      = List.replicate k (!s.params.readyLevel) ++ s.params.readyLevel :: more)
    (hbound : s.seq.bound ≠ 0 → s.seq.polls + k < s.seq.bound) :
    Reaches s (setItems rest (emit (.readPin s.params.readyLevel)
      { waited k s with oracle := { s.oracle with levels := more } })) := by
  have hwaits : advance k s = waited k s :=
    advance_waits k hitems (by simp [hlevels]) hbound
  have hready : (waited k s).oracle.levels = s.params.readyLevel :: more := by
    simp [waited, hlevels]
  refine .trans ⟨k, hwaits⟩ (.perform ?_)
  rw [perform_poll (s := waited k s) hitems]
  exact doPoll_ready hready

/-- A phase: the poll, the select line low, the transfers of its words, the select line high. -/
theorem Transfers.phase {body : List Item} {ws : List Word16} {kept : List Byte}
    (hitems : s.seq.items = .poll :: .select false :: (body ++ .select true :: rest))
    (hlevels : s.oracle.levels
      = List.replicate k (!s.params.readyLevel) ++ s.params.readyLevel :: more)
    (hbound : s.seq.bound ≠ 0 → s.seq.polls + k < s.seq.bound)
    (h : Transfers s.params s.oracle.bytes body
      (ws.flatMap (wireBytes s.params.wireWordOrder)) kept) :
    Reaches s (afterPhase k more ws kept rest s) := by
  refine (reaches_poll hitems hlevels hbound).trans ?_
  refine .trans (.perform (perform_select rfl)) ?_
  refine .trans (h _ (.select true :: rest) rfl rfl rfl rfl) ?_
  refine .perform ((perform_select rfl).trans ?_)
  simp [transferred, afterPhase, waited, setItems, emit, selAfter, rstAfter, phaseEvents,
    wordEvents, length_wireBytes, Nat.mul_comm]

end

/-! ### The obligations -/

/-- Settles O43: a phase whose words are the preamble and the code. -/
theorem commandPhaseOnTheBus : Obligations.CommandPhaseOnTheBus := by
  intro s c rest k more hitems hlevels hbound hlen
  have hbody : Transfers s.params s.oracle.bytes [.op Config.preambleCmd, .op c]
      ([0x6000, c].flatMap (wireBytes s.params.wireWordOrder)) [] :=
    .cons (.inl rfl) (by omega) (.cons (ws := []) (.inl rfl) (by rw [List.length_drop]; omega) .nil)
  have hphase := Transfers.phase hitems hlevels hbound hbody
  rwa [afterPhase, List.append_nil] at hphase

/-- Settles O44: a phase whose words are the preamble and the data. -/
theorem writePhaseOnTheBus : Obligations.WritePhaseOnTheBus := by
  intro s ws rest k more hitems hlevels hbound hlen
  have hbody : Transfers s.params s.oracle.bytes (.op Config.preambleWrite :: ws.map .data)
      ((0x0000 :: ws).flatMap (wireBytes s.params.wireWordOrder)) [] :=
    .cons (.inl rfl) (by omega) (.words (by rw [List.length_drop]; omega))
  have hphase := Transfers.phase (rest := rest) (by simpa [phaseWrite] using hitems) hlevels hbound
    hbody
  rw [afterPhase, List.append_nil, List.length_cons, Nat.mul_add_one, Nat.add_comm] at hphase
  exact hphase

/-- Settles O45: a phase whose words are the preamble, the dummies and the payload. -/
theorem readPhaseOnTheBus : Obligations.ReadPhaseOnTheBus := by
  intro s words rest k more hitems hlevels hbound dummies hlen
  have hbody : Transfers s.params s.oracle.bytes
      (.op Config.preambleRead :: (recvWords false dummies ++ recvWords true words))
      ((0x1000 :: List.replicate (dummies + words) 0x0000).flatMap
        (wireBytes s.params.wireWordOrder))
      (((s.oracle.bytes.drop 2).drop (2 * dummies)).take (2 * words)) :=
    .cons (.inl rfl) (by omega) (.payload (by rw [List.length_drop]; omega))
  have hphase := Transfers.phase (rest := rest) (by simpa [phaseRead] using hitems) hlevels hbound
    hbody
  rw [afterPhase, List.drop_drop, List.length_cons, List.length_replicate, Nat.mul_add_one,
    Nat.add_comm (2 * (dummies + words))] at hphase
  exact hphase

end Sys2Proof.Proofs

/-! # The phases of a controller command in a row, every poll answered ready
(42_bus_phases.md R222-R228; 43_controller.md R250-R286) -/

namespace Sys2Proof.Proofs

open Sys2Proof Sys2Proof.Machine Sys2Proof.Spec

/-! ### Phases in a row -/

theorem bytesUsed_append (phases more : List (List Word16)) :
    bytesUsed (phases ++ more) = bytesUsed phases + bytesUsed more := by
  simp [bytesUsed]

theorem phasesEvents_append (p : Params) (phases more : List (List Word16)) (answers : List Byte) :
    phasesEvents p (phases ++ more) answers
      = phasesEvents p phases answers ++ phasesEvents p more (answers.drop (bytesUsed phases)) := by
  induction phases generalizing answers with
  | nil => rfl
  | cons ws phases ih => simp [phasesEvents, ih, bytesUsed]

/-- Answers that are there for phases in a row are there for the first ones, then for the rest. -/
theorem answersReady_append {phases more : List (List Word16)} {s : State}
    (h : answersReady (phases ++ more) s) :
    answersReady phases s ∧ answersReady more (afterPhases phases s) := by
  obtain ⟨hlevels, hbytes⟩ := h
  rw [List.length_append] at hlevels
  rw [bytesUsed_append] at hbytes
  refine ⟨⟨notReady_take (Nat.le_add_right _ _) hlevels, by omega⟩, ?_, ?_⟩
  · simpa [afterPhases, List.drop_take] using congrArg (List.drop phases.length) hlevels
  · simp only [afterPhases, List.length_drop]
    omega

/-- The machine after these phases, at the position `rest`, with the answers `kept` of them. -/
def afterRun (phases : List (List Word16)) (kept : List Byte) (rest : List Item) (s : State) :
    State :=
  { afterPhases phases s with
    seq := { s.seq with items := rest, polls := 0, rx := s.seq.rx ++ kept } }

theorem afterRun_afterRun (phases more : List (List Word16)) (kept kept' : List Byte)
    (rest rest' : List Item) (s : State) :
    afterRun more kept' rest' (afterRun phases kept rest s)
      = afterRun (phases ++ more) (kept ++ kept') rest' s := by
  simp [afterRun, afterPhases, phasesEvents_append, bytesUsed_append]

/-- Outside a poll, with these answers to the transfers, the items run as the phases and keep the
answers `kept`, where every poll is answered ready. -/
def RunsPhases (p : Params) (answers : List Byte) (items : List Item)
    (phases : List (List Word16)) (kept : List Byte) : Prop :=
  ∀ (s : State) (rest : List Item), s.params = p → s.oracle.bytes = answers → s.seq.polls = 0 →
    answersReady phases s → s.seq.items = items ++ rest → Reaches s (afterRun phases kept rest s)

section
variable {p : Params} {answers : List Byte}

/-- Phases one after the other, of which the last ones receive. -/
theorem RunsPhases.append {items items' : List Item} {phases phases' : List (List Word16)}
    {kept : List Byte} (h : RunsPhases p answers items phases [])
    (h' : RunsPhases p (answers.drop (bytesUsed phases)) items' phases' kept) :
    RunsPhases p answers (items ++ items') (phases ++ phases') kept := by
  rintro s rest rfl rfl hpolls hready hitems
  obtain ⟨hfirst, hthen⟩ := answersReady_append hready
  have hreach := h s (items' ++ rest) rfl rfl hpolls hfirst (by rw [hitems, List.append_assoc])
  have hreach' := h' (afterRun phases [] (items' ++ rest) s) rest rfl rfl rfl hthen rfl
  rw [afterRun_afterRun] at hreach'
  exact hreach.trans hreach'

/-- What the polls of a single phase find. -/
theorem levels_of_answersReady {ws : List Word16} {s : State} (h : answersReady [ws] s) :
    s.oracle.levels = s.params.readyLevel :: s.oracle.levels.drop 1 := by
  have hfirst : s.oracle.levels.take 1 = [s.params.readyLevel] := h.1
  calc s.oracle.levels
    _ = s.oracle.levels.take 1 ++ s.oracle.levels.drop 1 := (List.take_append_drop 1 _).symm
    _ = _ := by rw [hfirst]; rfl

/-- A phase of the bus without a not-ready read. -/
theorem RunsPhases.of_phase {items : List Item} {ws : List Word16} {kept : List Byte}
    (h : ∀ (s : State) (rest : List Item) (more : List Level), s.params = p →
      s.oracle.bytes = answers → s.seq.items = items ++ rest →
      s.oracle.levels = List.replicate 0 (!s.params.readyLevel) ++ s.params.readyLevel :: more →
      (s.seq.bound ≠ 0 → s.seq.polls + 0 < s.seq.bound) → 2 * ws.length ≤ s.oracle.bytes.length →
      Reaches s (afterPhase 0 more ws kept rest s)) : RunsPhases p answers items [ws] kept := by
  intro s rest hparams hanswers hpolls hready hitems
  have hreach := h s rest _ hparams hanswers hitems (levels_of_answersReady hready)
    (fun hbound => by omega) (by simpa [bytesUsed] using hready.2)
  simpa [afterPhase, afterRun, afterPhases, phasesEvents, bytesUsed] using hreach

theorem RunsPhases.cmd (c : Word16) : RunsPhases p answers (phaseCmd c) [cmdWords c] [] :=
  .of_phase fun s rest more _ _ hitems hlevels hbound hlen => by
    simpa [afterPhase, Reaches, cmdWords] using
      commandPhaseOnTheBus s c rest 0 more hitems hlevels hbound hlen

theorem RunsPhases.write (ws : List Word16) :
    RunsPhases p answers (phaseWrite ws) [writeWords ws] [] :=
  .of_phase fun s rest more _ _ hitems hlevels hbound hlen => by
    simpa [afterPhase, Reaches, writeWords, Nat.mul_add, Nat.add_comm] using
      writePhaseOnTheBus s ws rest 0 more hitems hlevels hbound
        (by simpa [writeWords, Nat.mul_add, Nat.add_comm] using hlen)

theorem RunsPhases.read (k : Nat) :
    RunsPhases p answers (phaseRead p k) [readWords p k]
      ((answers.drop (2 + 2 * p.readDummyWords)).take (2 * k)) :=
  .of_phase fun s rest more hparams hanswers hitems hlevels hbound hlen => by
    subst hparams hanswers
    have hwords : 2 * (readWords s.params k).length = 2 + 2 * (s.params.readDummyWords + k) := by
      simp [readWords]; omega
    rw [hwords] at hlen
    have hphase := readPhaseOnTheBus s k rest 0 more hitems hlevels hbound hlen
    rwa [← hwords] at hphase

/-- A command phase, and each argument in a write phase of its own (R226). -/
theorem RunsPhases.cmdArgs (c : Word16) (args : List Word16) :
    RunsPhases p answers (writeCmdArgs c args)
      (cmdWords c :: args.map fun a => writeWords [a]) [] := by
  suffices h : ∀ (items : List Item) (phases : List (List Word16)),
      RunsPhases p answers items phases [] →
        RunsPhases p answers (items ++ args.flatMap fun a => phaseWrite [a])
          (phases ++ args.map fun a => writeWords [a]) [] from h _ _ (.cmd c)
  induction args with
  | nil => intro items phases h; simpa using h
  | cons a args ih =>
    intro items phases h
    simpa using ih _ _ (h.append (.write [a]))

/-- What a read phase of `k` words keeps after these phases: the answers after its preamble's 2 and
the dummies' (R225). -/
def keptAfter (p : Params) (answers : List Byte) (phases : List (List Word16)) (k : Nat) :
    List Byte :=
  (answers.drop (bytesUsed phases + 2 + 2 * p.readDummyWords)).take (2 * k)

/-- A read phase after phases that keep nothing. -/
theorem RunsPhases.thenRead {items : List Item} {phases : List (List Word16)}
    (h : RunsPhases p answers items phases []) (k : Nat) :
    RunsPhases p answers (items ++ phaseRead p k) (phases ++ [readWords p k])
      (keptAfter p answers phases k) := by
  rw [keptAfter, Nat.add_assoc, ← List.drop_drop]
  exact h.append (.read k)

end

/-! ### The end of a sequence -/

/-- A sequence that can come to rest somewhere ends there. -/
theorem runSequence_of_reaches {i : Instr} {items : List Item} {s t : State}
    (hpace : s.pace = .whole) (h : Reaches (laidOut i items s) t) (hrests : t.seq.items = []) :
    runSequence i items s = t := by
  obtain ⟨n, hn⟩ := h
  rw [runSequence_whole i items hpace]
  rcases Nat.le_total n (enough (laidOut i items s)) with hle | hle
  · exact advance_eq_of_rests hle hn (perform_nil hrests)
  · rw [← hn]
    exact (advance_eq_of_rests hle rfl (advance_enough_settles _)).symm

/-- The machine where the phases of a command that has just begun have run. -/
theorem RunsPhases.reaches {i : Instr} {items rest : List Item} {phases : List (List Word16)}
    {kept : List Byte} {s : State} (h : RunsPhases s.params s.oracle.bytes items phases kept)
    (hready : answersReady phases s) :
    Reaches (laidOut i (items ++ rest) s)
      (afterRun phases kept rest (laidOut i (items ++ rest) s)) :=
  h _ rest rfl rfl rfl hready rfl

/-- A command whose phases are followed by its commit. -/
theorem RunsPhases.exec {i : Instr} {items : List Item} {last : Item}
    {phases : List (List Word16)} {kept : List Byte} {s t : State}
    (h : RunsPhases s.params s.oracle.bytes items phases kept) (hi : polled i)
    (hpace : s.pace = .whole) (hc : s.status.cstate ∈ allowedStates i)
    (hfb : i = .display → 2 * displayN s ≤ s.fb.length)
    (hitems : sequenceOf s i = some (items ++ [last])) (hready : answersReady phases s)
    (hcommit : perform (afterRun phases kept [last] (laidOut i (items ++ [last]) s)) = t)
    (hend : t.seq.items = []) : exec i s = .next t := by
  rw [exec_polled hi hc hfb hitems]
  exact congrArg _
    (runSequence_of_reaches hpace ((h.reaches hready).trans (.perform hcommit)) hend)

/-! ### Received words -/

theorem exists_pair_of_length {bs : List Byte} (h : 2 ≤ bs.length) :
    ∃ a b rest, bs = a :: b :: rest := by
  match bs, h with
  | a :: b :: rest, _ => exact ⟨a, b, rest, rfl⟩

/-- The i-th received word is made of the i-th pair of bytes (R116, R221). -/
theorem receivedWords_getD (order : ByteOrder) {bs : List Byte} {k : Nat} (d : Word16)
    (h : 2 * k + 1 < bs.length) :
    (receivedWords order bs).getD k d =
      if order = .highFirst then bs.getD (2 * k) 0 ++ bs.getD (2 * k + 1) 0
      else bs.getD (2 * k + 1) 0 ++ bs.getD (2 * k) 0 := by
  induction k generalizing bs with
  | zero =>
    obtain ⟨a, b, rest, rfl⟩ := exists_pair_of_length (bs := bs) (by omega)
    cases order <;> rfl
  | succ k ih =>
    obtain ⟨a, b, rest, rfl⟩ := exists_pair_of_length (bs := bs) (by omega)
    have hrest : 2 * k + 1 < rest.length := by
      rw [List.length_cons, List.length_cons] at h
      omega
    simpa [receivedWords, Nat.mul_add] using ih hrest

/-- The words kept of the answers from position `b` on are the words received there. -/
theorem rxWord_of_kept {s t : State} {b n k : Nat} (hparams : t.params = s.params)
    (hrx : t.seq.rx = (s.oracle.bytes.drop b).take (2 * n))
    (hlen : b + 2 * n ≤ s.oracle.bytes.length) (hk : k < n) :
    rxWord t k = answerWord s (b + 2 * k) := by
  have hbytes : ∀ j < 2 * n,
      ((s.oracle.bytes.drop b).take (2 * n)).getD j 0 = s.oracle.bytes.getD (b + j) 0 := by
    intro j hj
    simp [List.getD, hj]
  rw [rxWord, rxWords, hparams, hrx, receivedWords_getD _ _ (by simp; omega), hbytes _ (by omega),
    hbytes _ (by omega)]
  rfl

/-- The words a read phase has received, at whatever later position of the command. -/
theorem rxWord_afterRead {i : Instr} {items rest : List Item} {s : State}
    {phases done : List (List Word16)} {n k b : Nat}
    (hready : answersReady (phases ++ [readWords s.params n]) s) (hk : k < n)
    (hb : bytesUsed phases + 2 = b) :
    rxWord (afterRun done (keptAfter s.params s.oracle.bytes phases n) rest (laidOut i items s)) k
      = answerWord s (b + 2 * s.params.readDummyWords + 2 * k) := by
  subst hb
  refine rxWord_of_kept rfl rfl ?_ hk
  have hread : bytesUsed [readWords s.params n] = 2 + 2 * s.params.readDummyWords + 2 * n := by
    simp [bytesUsed, readWords]
    omega
  have hbytes := hready.2
  rw [bytesUsed_append, hread] at hbytes
  omega

end Sys2Proof.Proofs

/-! # The controller commands (43_controller.md R250-R286) -/

namespace Sys2Proof.Proofs

open Sys2Proof Sys2Proof.Machine Sys2Proof.Spec

/-! ### DISCOVER, CONFIGURE, REG_READ and REG_WRITE: phases and a commit -/

/-- Settles O36: three phases, and a completion that writes nothing. -/
theorem regWriteSendsAddressAndValue : Obligations.RegWriteSendsAddressAndValue := by
  intro s hpace hc phases hready
  exact (RunsPhases.cmdArgs s.params.codes.regWr [s.regs.regAddr, s.regs.regData]).exec
    (i := .regWrite) (by simp [polled]) hpace (by simpa [allowedStates] using hc) nofun rfl hready
    rfl rfl

/-- Settles O35: the word that is kept comes after the 8 answers of the command and its argument,
the preamble's 2 and the dummies'. -/
theorem regReadStoresTheReceivedWord : Obligations.RegReadStoresTheReceivedWord := by
  intro s hpace hc phases hready
  refine ((RunsPhases.cmdArgs s.params.codes.regRd [s.regs.regAddr]).thenRead 1).exec
    (i := .regRead) (by simp [polled]) hpace (by simpa [allowedStates] using hc) nofun rfl hready
    ?_ rfl
  show commitRegRead _ = _
  rw [commitRegRead, rxWord_afterRead (b := 10) hready Nat.one_pos rfl]
  rfl

/-- DISCOVER's commit, by the words 0 to 19 it uses (R122, R256, R257). -/
theorem commitDiscover_of_words {s : State} {r : Nat → Word16} (h : ∀ k < 20, rxWord s k = r k) :
    commitDiscover s =
      if r 0 = 0 ∨ r 1 = 0 ∨ s.params.fbCap < frameBufferSize (r 0) (r 1) then
        complete .initFailure s
      else
        complete .none { s with
          dev := deviceInfoOf r
          fb := List.replicate (frameBufferSize (r 0) (r 1)) 0
          regs := { s.regs with panelGeom := joinWords (r 1) (r 0) }
          status := { s.status with cstate := .discovered } } := by
  have hdev : deviceInfoOf (rxWord s) = deviceInfoOf r := by simp [deviceInfoOf, h]
  rw [commitDiscover, hdev, h 0 (by decide), h 1 (by decide)]

/-- Settles O31: the words that are kept come after the 4 answers of the command, the preamble's 2
and the dummies'; the commit's test is the statement's. -/
theorem discoverReadsDeviceInfo : Obligations.DiscoverReadsDeviceInfo := by
  intro s hpace hc hwords hready
  have hruns := (RunsPhases.cmd (p := s.params) (answers := s.oracle.bytes)
    s.params.codes.getDevInfo).thenRead s.params.devinfoWords
  have hcommit := commitDiscover_of_words (r := devWord s)
    fun k hk => rxWord_afterRead (i := .discover) (items := discoverSeq s.params)
      (done := discoverPhases s.params) (rest := [.finishDiscover])
      (phases := [cmdWords s.params.codes.getDevInfo]) hready (hk.trans_le hwords) rfl
  have hexec := fun t => hruns.exec (t := t) (i := .discover) (last := .finishDiscover)
    (by simp [polled]) hpace (by simp [allowedStates, hc]) nofun rfl hready
  constructor
  · intro hpw hph hsize
    refine hexec _ (hcommit.trans (if_neg ?_)) rfl
    rintro (h | h | h)
    · exact hpw h
    · exact hph h
    · exact Nat.not_lt.mpr hsize h
  · intro h
    exact hexec _ (hcommit.trans (if_pos h)) rfl

/-- The phases CONFIGURE runs: `vcom_set` comes last, where the voltage differs (R262). -/
def configureRun (s : State) : List (List Word16) :=
  if vcomRead s = s.regs.vcomTarget then configurePhases s.params
  else configurePhases s.params ++ vcomSetPhases s.params s.regs.vcomTarget

theorem configureRun_first {s : State} (hready : answersReady (configureRun s) s) :
    answersReady (configurePhases s.params) s := by
  rw [configureRun] at hready
  split at hready
  · exact hready
  · exact (answersReady_append hready).1

/-- The phases of CONFIGURE up to its voltage read, as a read phase after four others. -/
theorem configurePhases_run (p : Params) (answers : List Byte) :
    RunsPhases p answers (regWriteSeq p p.codes.i80cpcr Config.packedEnable ++ vcomGetSeq p)
      (configurePhases p) (keptAfter p answers ((configurePhases p).take 5) 1) := by
  have hruns := ((RunsPhases.cmdArgs (p := p) (answers := answers) p.codes.regWr
    [p.codes.i80cpcr, Config.packedEnable]).append
    (.cmdArgs p.codes.vcom [Config.vcomGetWord])).thenRead 1
  rwa [List.append_assoc] at hruns

/-- CONFIGURE where it has run the phases `done`, its voltage read among them, and `rest` is left. -/
def configureAt (s : State) (done : List (List Word16)) (rest : List Item) : State :=
  afterRun done (keptAfter s.params s.oracle.bytes ((configurePhases s.params).take 5) 1) rest
    (laidOut .configure (configureSeq s.params s.regs.vcomTarget) s)

/-- The voltage CONFIGURE has received, wherever it stands after its read. -/
theorem rxWord_configureAt {s : State} (hready : answersReady (configurePhases s.params) s)
    (done : List (List Word16)) (rest : List Item) :
    rxWord (configureAt s done rest) 0 = vcomRead s :=
  rxWord_afterRead (phases := (configurePhases s.params).take 5) hready Nat.one_pos rfl

/-- CONFIGURE comes to its commit with its phases done: where the voltage differs, its branch has
put the phases that set it in front of the commit. -/
theorem configure_reaches_commit {s : State} (hready : answersReady (configureRun s) s) :
    Reaches (laidOut .configure (configureSeq s.params s.regs.vcomTarget) s)
      (configureAt s (configureRun s) [.finishConfigure]) := by
  have hfirst := configureRun_first hready
  have hbranch := (configurePhases_run s.params s.oracle.bytes).reaches (i := .configure)
    (rest := [.vcomCheck s.regs.vcomTarget, .finishConfigure]) hfirst
  rw [configureRun] at hready ⊢
  refine hbranch.trans ?_
  split at hready
  · rename_i hsame
    refine .perform ?_
    show vcomBranch s.regs.vcomTarget _ (configureAt s _ _) = _
    rw [vcomBranch, rxWord_configureAt hfirst, if_pos hsame, if_pos hsame]
    rfl
  · rename_i hdiffers
    have hpushed : perform (configureAt s (configurePhases s.params)
          [.vcomCheck s.regs.vcomTarget, .finishConfigure])
        = configureAt s (configurePhases s.params)
          (vcomSetSeq s.params s.regs.vcomTarget ++ [.finishConfigure]) := by
      show vcomBranch s.regs.vcomTarget _ (configureAt s _ _) = _
      rw [vcomBranch, rxWord_configureAt hfirst, if_neg hdiffers]
      rfl
    have hset := RunsPhases.cmdArgs s.params.codes.vcom [Config.vcomSetWord, s.regs.vcomTarget]
      (configureAt s (configurePhases s.params) _) [.finishConfigure] rfl rfl rfl
      (answersReady_append hready).2 rfl
    rw [configureAt, afterRun_afterRun, List.append_nil] at hset
    rw [if_neg hdiffers]
    exact .trans (.perform hpushed) hset

/-- Settles O32: the commit stores the voltage received. -/
theorem configureEnforcesTheVoltage : Obligations.ConfigureEnforcesTheVoltage := by
  intro s hpace hc phases hready
  rw [exec_polled (i := .configure) (by simp [polled]) (by simp [allowedStates, hc]) nofun rfl]
  refine congrArg _ (runSequence_of_reaches hpace
    ((configure_reaches_commit hready).trans (.perform ?_)) rfl)
  show commitConfigure _ = _
  rw [commitConfigure, rxWord_configureAt (configureRun_first hready)]
  rfl

/-! ### INIT and DRAW -/

/-- Where INIT is allowed it runs its sequence (R250, R306). -/
theorem exec_init {s : State} (hc : s.status.cstate = .uninit) :
    exec .init s = .next (runSequence .init (initSeq s.params) s) :=
  if_pos (decide_eq_true hc)

/-- The answer to Init decides whether INIT goes on (R250, R251). -/
theorem doInit_answered {s : State} {rest : List Item} {ok : Bool} {more : List Bool}
    (h : s.oracle.inits = ok :: more) :
    doInit rest s =
      let s1 := emit (.init ok) { s with oracle := { s.oracle with inits := more } }
      if ok then setItems rest s1 else complete .initFailure s1 := by
  simp only [doInit, h]

/-- Settles O30: the answer to the first item decides, and the other seven items ask for none. -/
theorem initBringsTheTransportUp : Obligations.InitBringsTheTransportUp := by
  intro s more hpace hc
  rw [exec_init hc]
  refine ⟨fun hok => congrArg _ (runSequence_of_reaches hpace ⟨8, ?_⟩ rfl),
    fun hfail => congrArg _ (runSequence_of_reaches hpace (.perform ?_) rfl)⟩
  · have hfirst := doInit_answered (s := laidOut .init (initSeq s.params) s)
      (rest := (initSeq s.params).tail) hok
    refine (congrArg (advance 7) hfirst).trans ?_
    simp [advance, perform, initSeq, laidOut, emit, selAfter, rstAfter, setItems, commitInit,
      complete, Sequencer.idle, cstateAfter, ErrCode.fatal, finished, okStatus]
  · exact doInit_answered (s := laidOut .init (initSeq s.params) s) hfail

/-- In READY, DRAW is its body (R306). -/
theorem exec_draw {s : State} (hc : s.status.cstate = .ready) : exec .draw s = drawBody s :=
  if_pos (decide_eq_true hc)

/-- Bytes that have all been written can be read in a row. -/
theorem readBytes_total {m : Memory} {a n : Nat}
    (h : ∀ k, k < n → ∃ b, Memory.read m (a + k) = some b) :
    ∃ bs, Memory.readBytes m a n = .ok bs := by
  choose! f hf using h
  exact ⟨(List.range n).map f, readBytes_ok_iff.mpr ⟨by simp, fun k hk => by
    simpa using hf k (by simpa using hk)⟩⟩

/-- Settles O33: past the two capacities the bytes of PACKED are the frame buffer. -/
theorem drawReplacesTheFrameBuffer : Obligations.DrawReplacesTheFrameBuffer := by
  intro s hc size
  rw [exec_draw hc]
  constructor
  · intro hpacked hfb hwritten
    obtain ⟨bs, hbs⟩ := readBytes_total hwritten
    obtain ⟨hlen, hbytes⟩ := readBytes_ok_iff.mp hbs
    have hfits : ¬(s.params.packedCap < size ∨ s.params.fbCap < size) := by omega
    refine ⟨bs, ?_, hlen, fun k hk => ?_⟩
    · exact (if_neg hfits).trans (congrArg (orFault · _) hbs)
    · rw [List.getElem?_eq_getElem (hlen.symm ▸ hk), hbytes k (hlen.symm ▸ hk)]
  · exact fun hover => if_pos hover

/-! ### DISPLAY -/

/-- The rectangle's words are the fields they are taken from (R121 (e)). -/
theorem displayRect_eq (s : State) : displayRect s = displayRectWords s := by
  simp only [displayRect, displayRectWords, lo16, hi16, BitVec.ofNat_toNat, BitVec.setWidth_eq]
  rfl

/-- The words of 2n bytes are the n pairs of them, low byte first (R88, R277). -/
theorem frameBufferWords_take {bs : List Byte} {n : Nat} (h : 2 * n ≤ bs.length) :
    frameBufferWords (bs.take (2 * n)) = (List.range n).map fun i =>
      BitVec.ofNat 16 ((bs.getD (2 * i) 0).toNat + 256 * (bs.getD (2 * i + 1) 0).toNat) := by
  induction n generalizing bs with
  | zero => rfl
  | succ n ih =>
    obtain ⟨a, b, rest, rfl⟩ := exists_pair_of_length (bs := bs) (by omega)
    have hpair : b ++ a = BitVec.ofNat 16 (a.toNat + 256 * b.toNat) := by
      apply BitVec.eq_of_toNat_eq
      rw [BitVec.toNat_append, ← Nat.shiftLeft_add_eq_or_of_lt a.isLt, Nat.shiftLeft_eq,
        BitVec.toNat_ofNat]
      omega
    have hrest := ih (bs := rest) (by rw [List.length_cons, List.length_cons] at h; omega)
    rw [List.range_succ_eq_map, List.map_cons, List.map_map, Nat.mul_add_one]
    simp only [List.take_succ_cons, frameBufferWords, hpair, hrest]
    rfl

/-- DISPLAY's phases, with a frame buffer long enough for the stream (R275). -/
theorem displayPhases_run {s : State} (answers : List Byte) (h : 2 * displayN s ≤ s.fb.length) :
    RunsPhases s.params answers
      (writeCmdArgs s.params.codes.ldImgArea (s.params.ldimgArg :: displayRect s)
        ++ phaseWrite (frameBufferWords (s.fb.take (2 * displayWordCount s)))
        ++ phaseCmd s.params.codes.ldImgEnd
        ++ writeCmdArgs s.params.codes.dpyArea (displayRect s ++ [s.params.displayMode]))
      (displayPhases s) [] := by
  have hstream : frameBufferWords (s.fb.take (2 * displayWordCount s)) = displayStream s :=
    frameBufferWords_take h
  rw [hstream, displayRect_eq]
  exact (((RunsPhases.cmdArgs s.params.codes.ldImgArea (s.params.ldimgArg :: displayRectWords s)
    ).append (.write (displayStream s))).append (.cmd s.params.codes.ldImgEnd)).append
    (.cmdArgs s.params.codes.dpyArea (displayRectWords s ++ [s.params.displayMode]))

/-- Settles O34: with the stream in the frame buffer all fourteen phases run; the body tests for it
before it lays them out. -/
theorem displayStreamsTheFrameBuffer : Obligations.DisplayStreamsTheFrameBuffer := by
  intro s hc
  constructor
  · intro hpace hfb hready
    exact (displayPhases_run _ hfb).exec (i := .display) (by simp [polled]) hpace
      (by simp [allowedStates, hc]) (fun _ => hfb) rfl hready rfl rfl
  · intro hshort
    exact (if_pos (decide_eq_true hc)).trans (if_pos hshort)

end Sys2Proof.Proofs

/-! # What the controller commands leave unchanged (10_state.md R61; 43_controller.md R250-R286;
60_exceptions.md R302) -/

namespace Sys2Proof.Proofs

open Sys2Proof Sys2Proof.Machine Sys2Proof.Spec

/-- A sequence of command `i`, begun at `s`, is under way or has ended: what it has changed. -/
inductive SequenceEffect (i : Instr) (s : State) : State → Prop
  /-- It goes on, with items of the command's own only. -/
  | goesOn (q : Sequencer) (sel rst : Line) (trace : List Event) (oracle : Oracle)
      (hrst : i ≠ .init → rst = s.rst) (hown : ∀ item ∈ q.items, itemOf i item = true) :
      SequenceEffect i s { s with
        running := some i, seq := q, sel := sel, rst := rst, trace := trace, oracle := oracle }
  /-- It has completed, with or without an error, and written no result. -/
  | completes (e : ErrCode) (sel rst : Line) (trace : List Event) (oracle : Oracle)
      (hrst : i ≠ .init → rst = s.rst) :
      SequenceEffect i s (complete e
        { s with sel := sel, rst := rst, trace := trace, oracle := oracle })
  /-- INIT has ended. -/
  | inits (sel rst : Line) (trace : List Event) (oracle : Oracle) (hi : i = .init) :
      SequenceEffect i s (complete .none { s with
        sel := sel, rst := rst, trace := trace, oracle := oracle
        status := { s.status with cstate := .reset } })
  /-- DISCOVER has ended. -/
  | discovers (dev : DeviceInfo) (fb : List Byte) (geom : Word32) (sel : Line)
      (trace : List Event) (oracle : Oracle) (hi : i = .discover) :
      SequenceEffect i s (complete .none { s with
        sel := sel, trace := trace, oracle := oracle, dev := dev, fb := fb
        regs := { s.regs with panelGeom := geom }
        status := { s.status with cstate := .discovered } })
  /-- CONFIGURE has ended. -/
  | configures (v : Word16) (sel : Line) (trace : List Event) (oracle : Oracle)
      (hi : i = .configure) :
      SequenceEffect i s (complete .none { s with
        sel := sel, trace := trace, oracle := oracle
        regs := { s.regs with vcomRead := v }
        status := { s.status with cstate := .ready } })
  /-- REG_READ has ended. -/
  | reads (v : Word16) (sel : Line) (trace : List Event) (oracle : Oracle) (hi : i = .regRead) :
      SequenceEffect i s (complete .none { s with
        sel := sel, trace := trace, oracle := oracle, regs := { s.regs with regData := v } })

section
variable {i : Instr} {s : State} {q : Sequencer} {sel rst : Line} {trace : List Event}
  {oracle : Oracle} {rest : List Item}

/-- A word becomes transfers, which belong to every command that uses the bus. -/
theorem own_pushed (hbus : usesBus i = true) (hrest : ∀ item ∈ rest, itemOf i item = true)
    (bs : List Byte) : ∀ item ∈ bs.map .xfer ++ rest, itemOf i item = true := by
  refine List.forall_mem_append.mpr ⟨fun item hitem => ?_, hrest⟩
  obtain ⟨b, -, rfl⟩ := List.mem_map.mp hitem
  exact hbus

/-- CONFIGURE's branch puts items of its own in front. -/
theorem own_vcomBranch (p : Params) (t v : Word16)
    (hrest : ∀ item ∈ rest, itemOf .configure item = true) :
    ∀ item ∈ (if v = t then [] else vcomSetSeq p t) ++ rest, itemOf .configure item = true := by
  refine List.forall_mem_append.mpr ⟨?_, hrest⟩
  split
  · nofun
  · simp [vcomSetSeq, writeCmdArgs, phaseCmd, phaseWrite, itemOf, usesBus]

/-- The next item of a command under way. -/
theorem SequenceEffect.next (hrst : i ≠ .init → rst = s.rst)
    (hown : ∀ item ∈ q.items, itemOf i item = true) :
    SequenceEffect i s (perform { s with
      running := some i, seq := q, sel := sel, rst := rst, trace := trace, oracle := oracle }) := by
  rcases hitems : q.items with _ | ⟨item, rest⟩
  · rw [perform_nil hitems]
    exact .goesOn q sel rst trace oracle hrst hown
  obtain ⟨hitem, hrest⟩ := List.forall_mem_cons.mp (hitems ▸ hown)
  cases item <;> simp only [perform, hitems]
  case begin => exact .goesOn q sel rst trace oracle hrst hown
  case initCall =>
    simp only [doInit]
    split
    · exact .goesOn q sel rst trace oracle hrst hown
    · split
      · exact .goesOn _ _ _ _ _ hrst hrest
      · exact .completes _ _ _ _ _ hrst
  case config | pinDir | select | delay => exact .goesOn _ _ _ _ oracle hrst hrest
  case writeRst =>
    exact .goesOn _ _ _ _ oracle (fun hi => absurd (of_decide_eq_true hitem) hi) hrest
  case poll =>
    simp only [doPoll]
    split
    · exact .goesOn q sel rst trace oracle hrst hown
    · split
      · exact .goesOn _ _ _ _ _ hrst hrest
      · split
        · exact .completes _ _ _ _ _ hrst
        · exact .goesOn _ _ _ _ _ hrst hown
  case op | data =>
    exact .goesOn _ sel rst trace oracle hrst (own_pushed hitem hrest _)
  case xfer =>
    simp only [doXfer]
    split
    · exact .goesOn q sel rst trace oracle hrst hown
    · exact .goesOn _ _ _ _ _ hrst hrest
  case recv =>
    simp only [doRecv]
    split
    · exact .goesOn q sel rst trace oracle hrst hown
    · split <;> exact .goesOn _ _ _ _ _ hrst hrest
  case vcomCheck =>
    obtain rfl := of_decide_eq_true hitem
    exact .goesOn _ sel rst trace oracle hrst (own_vcomBranch _ _ _ hrest)
  case finishInit => exact .inits sel rst trace oracle (of_decide_eq_true hitem)
  case finishDiscover =>
    obtain rfl := of_decide_eq_true hitem
    obtain rfl := hrst nofun
    simp only [commitDiscover]
    split
    · exact .completes _ _ _ _ _ hrst
    · exact .discovers _ _ _ sel trace oracle rfl
  case finishConfigure =>
    obtain rfl := of_decide_eq_true hitem
    obtain rfl := hrst nofun
    exact .configures _ sel trace oracle rfl
  case finishRegRead =>
    obtain rfl := of_decide_eq_true hitem
    obtain rfl := hrst nofun
    exact .reads _ sel trace oracle rfl
  case finish => exact .completes .none sel rst trace oracle hrst

/-- One item of the command, or none once it has ended. -/
theorem SequenceEffect.perform {t : State} (h : SequenceEffect i s t) :
    SequenceEffect i s (perform t) := by
  cases h with
  | goesOn q sel rst trace oracle hrst hown => exact .next hrst hown
  | completes e sel rst trace oracle hrst => exact .completes e sel rst trace oracle hrst
  | inits sel rst trace oracle hi => exact .inits sel rst trace oracle hi
  | discovers dev fb geom sel trace oracle hi =>
    exact .discovers dev fb geom sel trace oracle hi
  | configures v sel trace oracle hi => exact .configures v sel trace oracle hi
  | reads v sel trace oracle hi => exact .reads v sel trace oracle hi

theorem runSequence_sequenceEffect {items : List Item}
    (hown : ∀ item ∈ items, itemOf i item = true) :
    SequenceEffect i s (runSequence i items s) := by
  have hbegun : SequenceEffect i s (laidOut i items s) :=
    .goesOn _ s.sel s.rst s.trace s.oracle (fun _ => rfl) hown
  simp only [runSequence]
  split
  · exact hbegun
  · exact advance_keeps (fun _ => .perform) _ hbegun

/-- A command that its state allows lays out items of its own: wherever the select line may be, its
sequence is sound from the line at rest (R250-R286). -/
theorem own_sequenceOf {items : List Item} (hitems : sequenceOf s i = some items)
    (hallowed : allowedIn i s.status.cstate = true) : ∀ item ∈ items, itemOf i item = true := by
  have hf : s.status.cstate ≠ .failed := by
    intro hc
    rw [hc] at hallowed
    cases i <;> cases hitems <;> cases hallowed
  obtain ⟨sel, hsel⟩ : ∃ sel, lineAtRest s.status.cstate sel = true := by
    cases s.status.cstate
    case uninit => exact ⟨.undriven, rfl⟩
    all_goals exact ⟨.driven true, rfl⟩
  have hmoved : sequenceOf { s with sel := sel } i = some items := by
    rw [← hitems]
    cases i <;> rfl
  exact (sequenceOf_sound hmoved hallowed hf hsel).own

/-- A gated meaning's answers are its body's, and STATE_ERROR. -/
theorem SequenceEffect.of_gated {body : State → Result} {t : State} (h : gated i body s = .next t)
    (hbody : allowedIn i s.status.cstate = true → body s = .next t → SequenceEffect i s t) :
    SequenceEffect i s t := by
  rcases gated_cases i body s with ⟨-, hg⟩ | ⟨hallowed, hg⟩ <;> rw [hg] at h
  · cases h
    exact .completes .stateError s.sel s.rst s.trace s.oracle fun _ => rfl
  · exact hbody hallowed h

/-- A command whose meaning is its sequence. -/
theorem SequenceEffect.of_sequence {items : List Item} {t : State}
    (hitems : sequenceOf s i = some items)
    (h : gated i (fun s => .next (runSequence i items s)) s = .next t) : SequenceEffect i s t := by
  refine .of_gated h fun hallowed hbody => ?_
  cases hbody
  exact runSequence_sequenceEffect (own_sequenceOf hitems hallowed)

theorem execDisplay_sequenceEffect {t : State} (h : execDisplay s = .next t) :
    SequenceEffect .display s t := by
  refine .of_gated h fun hallowed hbody => ?_
  rcases displayBody_cases s with ⟨-, hb⟩ | ⟨-, hb⟩ <;> rw [hb] at hbody <;> cases hbody
  · exact .completes .invariantViolation s.sel s.rst s.trace s.oracle fun _ => rfl
  · exact runSequence_sequenceEffect (own_sequenceOf rfl hallowed)

/-- What INIT and the commands with a ready poll can answer. -/
theorem exec_sequenceEffect {t : State} (hi : i = .init ∨ polled i) (h : exec i s = .next t) :
    SequenceEffect i s t := by
  rcases hi with rfl | rfl | rfl | rfl | rfl | rfl
  case inr.inr.inr.inl => exact execDisplay_sequenceEffect h
  all_goals exact .of_sequence rfl h

end

/-- Settles O48: by what the sequence of the command has come to. -/
theorem controllerCommandFrame : Obligations.ControllerCommandFrame := by
  intro i s t hi h
  cases exec_sequenceEffect hi h with
  | goesOn q sel rst trace oracle hrst _ =>
    exact ⟨by simp, rfl, rfl, hrst, fun _ => ⟨rfl, rfl, rfl, rfl⟩⟩
  | completes e sel rst trace oracle hrst => exact ⟨by simp [complete], rfl, rfl, hrst, nofun⟩
  | inits _ _ _ _ hi => subst hi; exact ⟨rfl, rfl, rfl, fun hne => absurd rfl hne, nofun⟩
  | discovers _ _ _ _ _ _ hi | configures _ _ _ _ hi | reads _ _ _ _ hi =>
    subst hi
    exact ⟨rfl, rfl, rfl, fun _ => rfl, nofun⟩

end Sys2Proof.Proofs

/-! # Accepting, rejecting and waiting for a command (30_encoding.md R142; 60_exceptions.md
R303, R304) -/

namespace Sys2Proof.Proofs

open Sys2Proof Sys2Proof.Machine Sys2Proof.Spec

/-! ### Rejected writes -/

/-- A busy block rejects every host write that names something (R304). -/
theorem step_busy_write {s : State} {i : Instr} {offset : Nat} {width : Width} {v : Word32}
    {t : Target} {rest : List Input} (hrun : s.running = some i)
    (ht : accessTarget s.params offset width = some t)
    (hin : nextAccess (.write offset width v) rest s) :
    step s = .next (setRej { s with inputs := rest }) := by
  rw [step_write hin]
  simp [hostWrite, ht, busy, hrun]

/-- No command writes STATUS as a result, so reading it is never free (R93, R304). -/
theorem not_runningWrites_status (s : State) : ¬runningWrites s (.reg .status) := by
  rintro ⟨i, -, -, hline⟩
  exact hline

/-! ### Accepted commands -/

section
variable {s : State} {w : Word32} {i : Instr}

/-- Under the pace whole, a command that decodes runs as it is accepted (R303). -/
theorem commandWrite_whole (hc : s.status.cstate ≠ .failed) (hd : decodeCmd w = .ok i)
    (hpace : s.pace = .whole) : commandWrite w s = exec i (accept i s) := by
  simp only [commandWrite, if_neg hc, hd, hpace]

/-- Under the pace single, a command that decodes is accepted only (R303). -/
theorem commandWrite_single (hc : s.status.cstate ≠ .failed) (hd : decodeCmd w = .ok i)
    (hpace : s.pace = .single) : commandWrite w s = .next (accept i s) := by
  simp only [commandWrite, if_neg hc, hd, hpace]

end

/-! ### The host's wait -/

/-- The wait reads STATUS and is over when no command runs (R142). -/
theorem step_wait_idle {s : State} {rest : List Input} (hin : s.inputs = .wait :: rest)
    (hidle : s.running = none) :
    step s = .next { s with inputs := rest, readback := statusWord s } := by
  simp [step, takeInput, hin, hostWait, busy, hidle]

/-- The wait reads STATUS and lets the block move while a command runs (R142). -/
theorem step_wait_busy {s : State} {rest : List Input} (hin : s.inputs = .wait :: rest)
    (hbusy : s.running ≠ none) : step s = blockTurn { s with readback := statusWord s } := by
  simp [step, takeInput, hin, hostWait, busy, Option.isSome_iff_ne_none.mpr hbusy]

/-! ### The obligations -/

/-- Settles O15: each of these writes names something, and STATUS is read as it stands. -/
theorem busyBlockRejectsWrites : Obligations.BusyBlockRejectsWrites := by
  intro s i rest hrun
  refine ⟨fun r v hin => ?_, fun w offset width v hlo hhi haligned hin => ?_, fun hin => ?_⟩
  · exact step_busy_write hrun (accessTarget_reg s.params r) hin
  · have hwindow : inWindow s.params offset (Width.bytes width) w = true :=
      (inWindow_iff _ _ _ _).mpr ⟨hlo, hhi⟩
    exact step_busy_write hrun (accessTarget_inWindow hwindow haligned) hin
  · have hread := registerReadsShowTheState s .status rest hin (not_runningWrites_status s)
    obtain ⟨hbusy, -⟩ := statusWordHoldsItsFields s
    refine ⟨statusWord s, hread, ?_⟩
    rw [hbusy, hrun]; rfl

/-- Settles O16: the write is a CMD write, which FAILED rejects. -/
theorem failedBlockRejectsCommands : Obligations.FailedBlockRejectsCommands := by
  intro s w rest hin hidle hc
  rw [step_command_write hin hidle, commandWrite, if_pos hc]
  rfl

/-- Settles O5: the CMD write accepts the command; its begin item, on whatever lets the block move,
runs its meaning; and a wait is the block's turn until the block is idle. -/
theorem stepRunsTheAcceptedCommand : Obligations.StepRunsTheAcceptedCommand := by
  refine ⟨?_, ?_, ?_⟩
  · intro s w i rest hin hidle hc hd accepted
    rw [step_command_write hin hidle]
    exact ⟨commandWrite_whole (s := { s with inputs := rest }) hc hd,
      commandWrite_single (s := { s with inputs := rest }) hc hd⟩
  · intro s i more rest hrun hitems begun
    refine ⟨fun hin => ?_, fun hin => ?_, fun hin => ?_⟩
    · rw [step_of_no_input hin, blockTurn_begin hrun hitems]
      rfl
    · rw [step_of_block hin, blockTurn_begin (s := { s with inputs := rest }) hrun hitems]
      rfl
    · rw [step_wait_busy hin (by simp [hrun]),
        blockTurn_begin (s := { s with readback := statusWord s }) hrun hitems]
      rfl
  · intro s rest hin
    refine ⟨step_wait_idle hin, fun hbusy => ?_⟩
    rw [step_wait_busy hin hbusy, step_of_block rfl, ← hin]

end Sys2Proof.Proofs

/-! # How a command ends: its errors, and what an error changes (60_exceptions.md R300-R307) -/

namespace Sys2Proof.Proofs

open Sys2Proof Sys2Proof.Machine Sys2Proof.Spec

/-! ### The states a command is allowed in (R306) -/

/-- A command outside its allowed states completes with STATE_ERROR, before anything else. -/
theorem exec_of_not_allowed {i : Instr} {s : State} (hi : i.isCommand = true)
    (hnot : allowedIn i s.status.cstate = false) : exec i s = .next (complete .stateError s) := by
  have hgated : ∃ body, exec i = gated i body := by
    cases i with
    | compare | rotate | pack | init | discover | configure | draw | display | regRead
    | regWrite => exact ⟨_, rfl⟩
    | _ => cases hi
  obtain ⟨body, hbody⟩ := hgated
  rw [hbody, gated, if_neg (by simp [hnot])]

/-- RVALID after a command that has ended in an error: only COMPARE clears it (R61, R302). -/
def rvalidAfterError (i : Instr) (v : Bool) : Bool :=
  match i with
  | .compare _ _ => false
  | _ => v

/-- While the block is not FAILED, only commands with STATE_ERROR in their row can be outside their
states, and COMPARE is none of them (R306, R307). -/
theorem stateError_of_not_allowed {i : Instr} {c : CState} (hi : i.isCommand = true)
    (hc : c ≠ .failed) (hnot : allowedIn i c = false) :
    .stateError ∈ reportable i ∧ ∀ v, rvalidAfterError i v = v := by
  cases i with
  | compare | rotate | pack => exact absurd hc (of_decide_eq_false hnot)
  | init | discover | configure | draw | display | regRead | regWrite =>
    exact ⟨by simp [reportable], fun _ => rfl⟩
  | _ => cases hi

/-! ### The errors of a sequence (R222, R250, R256) -/

/-- An error code of the command's row (R307) that its sequence can end with: not STATE_ERROR, which
comes before the sequence (R306). -/
def EndsSequence (i : Instr) (e : ErrCode) : Prop := e ∈ reportable i ∧ e ≠ .stateError

theorem endsSequence_none {i : Instr} (hi : i.isCommand = true) : EndsSequence i .none := by
  cases i with
  | compare | rotate | pack | init | discover | configure | draw | display | regRead
  | regWrite => exact ⟨List.mem_cons_self, nofun⟩
  | _ => cases hi

/-- Every command with a ready poll can time out (R222). -/
theorem endsSequence_timeout {i : Instr} (hbus : usesBus i = true) :
    EndsSequence i .protocolTimeout := by
  rcases of_decide_eq_true hbus with rfl | rfl | rfl | rfl | rfl <;>
    exact ⟨by simp [reportable], nofun⟩

/-- The command runs on, or has ended with an error code its sequence can end with. -/
def RunsOrEnds (i : Instr) (t : State) : Prop :=
  t.running = some i ∨ (t.running = none ∧ EndsSequence i t.status.errcode)

/-- An item of a running command's own sequence ends it with an error code of its row, if at all. -/
theorem perform_runsOrEnds {i : Instr} {s : State} (hrun : s.running = some i)
    (hown : ∀ item ∈ s.seq.items, itemOf i item = true) : RunsOrEnds i (perform s) := by
  rcases hitems : s.seq.items with _ | ⟨item, rest⟩
  · rw [perform_nil hitems]; exact .inl hrun
  have hitem : itemOf i item = true := hown item (by simp [hitems])
  cases item <;> simp only [perform, hitems]
  case initCall =>
    obtain rfl := of_decide_eq_true hitem
    simp only [doInit]
    split
    · exact .inl hrun
    · split
      · exact .inl hrun
      · exact .inr ⟨rfl, by simp [reportable], nofun⟩
  case poll =>
    simp only [doPoll]
    split
    · exact .inl hrun
    · split
      · exact .inl hrun
      · split
        · exact .inr ⟨rfl, endsSequence_timeout hitem⟩
        · exact .inl hrun
  case xfer => simp only [doXfer]; split <;> exact .inl hrun
  case recv => simp only [doRecv]; split; exacts [.inl hrun, by split <;> exact .inl hrun]
  case finishDiscover =>
    obtain rfl := of_decide_eq_true hitem
    simp only [commitDiscover]
    split
    · exact .inr ⟨rfl, by simp [reportable], nofun⟩
    · exact .inr ⟨rfl, endsSequence_none rfl⟩
  case finishInit | finishConfigure | finishRegRead =>
    obtain rfl := of_decide_eq_true hitem
    exact .inr ⟨rfl, endsSequence_none rfl⟩
  case finish =>
    rcases of_decide_eq_true hitem with rfl | rfl <;> exact .inr ⟨rfl, endsSequence_none rfl⟩
  -- the items that cannot end a command
  all_goals exact .inl hrun

/-- A sequence that has ended rests. -/
theorem SequenceEffect.rests {i : Instr} {s t : State} (h : SequenceEffect i s t)
    (hend : t.running = none) : Machine.perform t = t := by
  cases h with
  | goesOn => cases hend
  | _ => exact perform_nil rfl

/-- A sequence that has not ended has items of its command only. -/
theorem SequenceEffect.own {i : Instr} {s t : State} (h : SequenceEffect i s t)
    (hrun : t.running = some i) : ∀ item ∈ t.seq.items, itemOf i item = true := by
  cases h with
  | goesOn q sel rst trace oracle hrst hown => exact hown
  | _ => cases hrun

/-- The sequence of a command ends with an error code of its row, if at all. -/
theorem runSequence_runsOrEnds {i : Instr} {s : State} {items : List Item}
    (hown : ∀ item ∈ items, itemOf i item = true) : RunsOrEnds i (runSequence i items s) := by
  have hstep : ∀ t, SequenceEffect i s t ∧ RunsOrEnds i t →
      SequenceEffect i s (perform t) ∧ RunsOrEnds i (perform t) := by
    rintro t ⟨heffect, hrun | hend⟩
    · exact ⟨heffect.perform, perform_runsOrEnds hrun (heffect.own hrun)⟩
    · rw [heffect.rests hend.1]
      exact ⟨heffect, .inr hend⟩
  have hbegun : SequenceEffect i s (laidOut i items s) :=
    .goesOn _ s.sel s.rst s.trace s.oracle (fun _ => rfl) hown
  simp only [runSequence]
  split
  · exact .inl rfl
  · exact (advance_keeps hstep _ ⟨hbegun, .inl rfl⟩).2

/-! ### What a command comes to -/

/-- What the meaning of a command comes to, told by its end. -/
inductive CommandOutcome (i : Instr) (s : State) : State → Prop
  /-- It has begun and not ended, with STATUS as it was. -/
  | runs {t : State} (hrun : t.running = some i) (hstatus : t.status = s.status) :
      CommandOutcome i s t
  /-- It has ended without error. -/
  | succeeds {t : State} (hcode : t.status.errcode = .none) (herr : t.status.err = false) :
      CommandOutcome i s t
  /-- It has ended with an error of its row, and changed nothing but STATUS and the bus. -/
  | fails (e : ErrCode) (sel rst : Line) (trace : List Event) (oracle : Oracle)
      (hrow : e ∈ reportable i) (hnone : e ≠ .none)
      (hstate : e = .stateError → allowedIn i s.status.cstate = false) :
      CommandOutcome i s (complete e (setRvalid (rvalidAfterError i s.status.rvalid)
        { s with sel := sel, rst := rst, trace := trace, oracle := oracle }))

section
variable {i : Instr} {s t : State}

/-- An error before any event, of a command other than COMPARE. -/
theorem CommandOutcome.failsAtOnce {e : ErrCode} (hrow : e ∈ reportable i) (hnone : e ≠ .none)
    (hstate : e = .stateError → allowedIn i s.status.cstate = false)
    (hrvalid : rvalidAfterError i s.status.rvalid = s.status.rvalid) :
    CommandOutcome i s (complete e s) := by
  have h := CommandOutcome.fails e s.sel s.rst s.trace s.oracle hrow hnone hstate
  rwa [hrvalid] at h

/-- A gated meaning comes to what its body comes to, or to STATE_ERROR. -/
theorem CommandOutcome.of_gated {body : State → Result} (hi : i.isCommand = true)
    (hc : s.status.cstate ≠ .failed) (h : gated i body s = .next t)
    (hbody : allowedIn i s.status.cstate = true → body s = .next t → CommandOutcome i s t) :
    CommandOutcome i s t := by
  rcases gated_cases i body s with ⟨hnot, hg⟩ | ⟨hallowed, hg⟩ <;> rw [hg] at h
  · cases h
    obtain ⟨hrow, hrvalid⟩ := stateError_of_not_allowed hi hc hnot
    exact .failsAtOnce hrow nofun (fun _ => hnot) (hrvalid _)
  · exact hbody hallowed h

/-- COMPARE's errors clear RVALID (R61, R162). -/
theorem compareFails_outcome {slot : Slot} {prev : Bool} {e : ErrCode}
    (hrow : e ∈ reportable (.compare slot prev)) (hnone : e ≠ .none) :
    CommandOutcome (.compare slot prev) s (compareFails e s) := by
  refine .fails e s.sel s.rst s.trace s.oracle hrow hnone ?_
  rintro rfl
  simp [reportable] at hrow

theorem execCompare_outcome {slot : Slot} {prev : Bool} (hc : s.status.cstate ≠ .failed)
    (h : execCompare slot prev s = .next t) : CommandOutcome (.compare slot prev) s t := by
  refine .of_gated rfl hc h fun _ hbody => ?_
  rcases compareBody_cases hbody with ⟨-, rfl⟩ | ⟨-, _, -, ⟨-, rfl⟩ | ⟨_, -, ⟨-, rfl⟩ | ⟨r, -, hr⟩⟩⟩
  · exact compareFails_outcome (by simp [reportable]) nofun
  · exact .succeeds rfl rfl
  · exact compareFails_outcome (by simp [reportable]) nofun
  · rcases extractRegion_cases hr with ⟨-, rfl⟩ | rfl | ⟨-, rfl⟩ | ⟨-, -, -, -, -, -, -, _, -, rfl⟩
    · exact .succeeds rfl rfl
    · exact compareFails_outcome (by simp [reportable]) nofun
    · exact compareFails_outcome (by simp [reportable]) nofun
    · exact .succeeds rfl rfl

theorem execRotate_outcome (hc : s.status.cstate ≠ .failed) (h : execRotate s = .next t) :
    CommandOutcome .rotate s t := by
  refine .of_gated rfl hc h fun _ hbody => ?_
  rcases rotateBody_cases hbody with ⟨-, rfl⟩ | ⟨-, -, rfl⟩ | ⟨-, -, -, rfl⟩ | ⟨-, -, -, _, -, rfl⟩
  · exact .succeeds rfl rfl
  · exact .failsAtOnce (by simp [reportable]) nofun nofun rfl
  · exact .failsAtOnce (by simp [reportable]) nofun nofun rfl
  · exact .succeeds rfl rfl

theorem execPack_outcome (hc : s.status.cstate ≠ .failed) (h : execPack s = .next t) :
    CommandOutcome .pack s t := by
  refine .of_gated rfl hc h fun _ hbody => ?_
  rcases packBody_cases hbody with ⟨-, rfl⟩ | ⟨-, -, rfl⟩ | ⟨-, -, -, rfl⟩ | ⟨-, -, -, _, -, rfl⟩
  · exact .failsAtOnce (by simp [reportable]) nofun nofun rfl
  · exact .failsAtOnce (by simp [reportable]) nofun nofun rfl
  · exact .failsAtOnce (by simp [reportable]) nofun nofun rfl
  · exact .succeeds rfl rfl

theorem execDraw_outcome (hc : s.status.cstate ≠ .failed) (h : execDraw s = .next t) :
    CommandOutcome .draw s t := by
  refine .of_gated rfl hc h fun _ hbody => ?_
  rcases drawBody_cases hbody with ⟨-, rfl⟩ | ⟨-, -, _, -, rfl⟩
  · exact .failsAtOnce (by simp [reportable]) nofun nofun rfl
  · exact .succeeds rfl rfl

/-- A sequence begun in an allowed state: it goes on, or its end is one of those above. -/
theorem runSequence_outcome {items : List Item} (hitems : sequenceOf s i = some items)
    (hallowed : allowedIn i s.status.cstate = true) :
    CommandOutcome i s (runSequence i items s) := by
  have hown := own_sequenceOf hitems hallowed
  have hrvalid : rvalidAfterError i s.status.rvalid = s.status.rvalid := by
    cases i with
    | compare => cases hitems
    | _ => rfl
  have hends := runSequence_runsOrEnds (s := s) hown
  have heffect := runSequence_sequenceEffect (s := s) hown
  generalize runSequence i items s = t at hends heffect
  cases heffect with
  | goesOn => exact .runs rfl rfl
  | completes e sel rst trace oracle =>
    obtain hrun | ⟨-, hrow, hstate⟩ := hends
    · cases hrun
    · by_cases hnone : e = .none
      · subst hnone
        exact .succeeds rfl rfl
      · have h := CommandOutcome.fails (i := i) (s := s) e sel rst trace oracle hrow hnone
          fun he => absurd he hstate
        rwa [hrvalid] at h
  | inits | discovers | configures | reads => exact .succeeds rfl rfl

theorem execDisplay_outcome (hc : s.status.cstate ≠ .failed) (h : execDisplay s = .next t) :
    CommandOutcome .display s t := by
  refine .of_gated rfl hc h fun hallowed hbody => ?_
  rcases displayBody_cases s with ⟨-, hb⟩ | ⟨-, hb⟩ <;> rw [hb] at hbody <;> cases hbody
  · exact .failsAtOnce (by simp [reportable]) nofun nofun rfl
  · exact runSequence_outcome rfl hallowed

/-- Every answer of a command's meaning, from a block that is not FAILED. -/
theorem exec_outcome (hi : i.isCommand = true) (hc : s.status.cstate ≠ .failed)
    (h : exec i s = .next t) : CommandOutcome i s t := by
  have hsequence : ∀ {items}, sequenceOf s i = some items →
      gated i (fun s => .next (runSequence i items s)) s = .next t → CommandOutcome i s t := by
    intro items hitems hg
    refine .of_gated hi hc hg fun hallowed hbody => ?_
    cases hbody
    exact runSequence_outcome hitems hallowed
  cases i with
  | compare slot prev => exact execCompare_outcome hc h
  | rotate => exact execRotate_outcome hc h
  | pack => exact execPack_outcome hc h
  | draw => exact execDraw_outcome hc h
  | display => exact execDisplay_outcome hc h
  | init | discover | configure | regRead | regWrite => exact hsequence rfl h
  | _ => cases hi

end

/-! ### The obligations -/

/-- Settles O37: outside its states by the gate; inside them no outcome is STATE_ERROR. -/
theorem commandsAreGatedByTheirStates : Obligations.CommandsAreGatedByTheirStates := by
  intro i s hi hc
  have hmem := allowedIn_iff_mem hi s.status.cstate
  refine ⟨fun hout => ?_, fun hin hcode t h => ?_⟩
  · rw [exec_of_not_allowed hi (Bool.eq_false_iff.mpr fun hallowed => hout (hmem.mp hallowed))]
    rfl
  · cases exec_outcome hi hc h with
    | runs _ hstatus => rw [hstatus, hcode]; nofun
    | succeeds hnone => rw [hnone]; nofun
    | fails e _ _ _ _ _ _ hstate =>
      intro he
      rw [hmem.mpr hin] at hstate
      cases hstate he

/-- Settles O39: a command that has ended in an error is a failed outcome. -/
theorem errorsChangeNothingButStatus : Obligations.ErrorsChangeNothingButStatus := by
  intro i s t hi hc h hend herr
  cases exec_outcome hi hc h with
  | runs hrun => rw [hrun] at hend; cases hend
  | succeeds _ hok => rw [hok] at herr; cases herr
  | fails e sel rst trace oracle _ hnone _ =>
    refine ⟨rfl, rfl, hnone, rfl, ?_, ?_⟩
    · cases e <;> rfl
    · cases i <;> rfl

/-- Settles O40: a failed outcome's error is of the command's row, and every row has `none`. -/
theorem eachCommandReportsItsErrors : Obligations.EachCommandReportsItsErrors := by
  intro i s t hi hc h hend
  cases exec_outcome hi hc h with
  | runs hrun => rw [hrun] at hend; cases hend
  | succeeds hnone => rw [hnone]; exact (endsSequence_none hi).1
  | fails e _ _ _ _ hrow => exact hrow

end Sys2Proof.Proofs

/-! # Every poll ends, or none does (42_bus_phases.md R222; 70_reset_and_hazards.md R360, R362) -/

namespace Sys2Proof.Proofs

open Sys2Proof Sys2Proof.Machine Sys2Proof.Spec

/-! ### A command that has ended -/

/-- The command has ended: the block is idle, and STATUS says so consistently (R302). -/
structure Ended (s : State) : Prop where
  running : s.running = none
  done : s.status.done = true
  items : s.seq.items = []
  err : s.status.err = true ↔ s.status.errcode ≠ .none

theorem ended_complete (e : ErrCode) (s : State) : Ended (complete e s) :=
  ⟨rfl, rfl, rfl, decide_eq_true_iff⟩

theorem ended_commitDiscover (s : State) : Ended (commitDiscover s) := by
  simp only [commitDiscover]
  split <;> exact ended_complete _ _

/-! ### What a sequence asks of the oracle -/

/-- The ready polls and the Xfer answers an item stands for; CONFIGURE's branch counts as taken. -/
def itemNeeds : Item → Nat × Nat
  | .poll => (1, 0)
  | .op _ | .data _ => (0, 2)
  | .xfer _ | .recv _ => (0, 1)
  | .vcomCheck _ => (3, 12)
  | _ => (0, 0)

/-- The ready polls and the Xfer answers of a sequence. -/
def needs (items : List Item) : Nat × Nat := (items.map itemNeeds).sum

@[simp] theorem needs_nil : needs [] = (0, 0) := rfl

@[simp] theorem needs_cons (item : Item) (items : List Item) :
    needs (item :: items) = itemNeeds item + needs items := by simp [needs]

@[simp] theorem needs_append (items items' : List Item) :
    needs (items ++ items') = needs items + needs items' := by simp [needs]

theorem needs_data (ws : List Word16) : needs (ws.map .data) = (0, 2 * ws.length) := by
  induction ws with
  | nil => rfl
  | cons w ws ih => simp [ih, itemNeeds]; omega

theorem needs_recvWords (keep : Bool) (n : Nat) : needs (recvWords keep n) = (0, 2 * n) := by
  induction n with
  | zero => rfl
  | succ n ih => simp [recvWords, recvWord, ih, itemNeeds]; omega

theorem needs_phaseCmd (c : Word16) : needs (phaseCmd c) = (1, 4) := by
  simp [phaseCmd, itemNeeds]

theorem needs_phaseWrite (ws : List Word16) : needs (phaseWrite ws) = (1, 2 + 2 * ws.length) := by
  simp [phaseWrite, needs_data, itemNeeds]

theorem needs_phaseRead (p : Params) (k : Nat) :
    needs (phaseRead p k) = (1, 2 + 2 * (p.readDummyWords + k)) := by
  simp [phaseRead, needs_recvWords, itemNeeds]; omega

theorem needs_writeCmdArgs (c : Word16) (args : List Word16) :
    needs (writeCmdArgs c args) = (1 + args.length, 4 + 4 * args.length) := by
  have hargs : needs (args.flatMap fun a => phaseWrite [a]) = (args.length, 4 * args.length) := by
    induction args with
    | nil => rfl
    | cons a args ih => simp [ih, needs_phaseWrite]; omega
  simp [writeCmdArgs, needs_phaseCmd, hargs]

theorem needs_wordBytes (order : ByteOrder) (w : Word16) :
    needs ((wordBytes order w).map .xfer) = (0, 2) := by cases order <;> rfl

/-- The answers a polling command asks for: at most fourteen polls, and no more bytes than DISPLAY or
DISCOVER (R256-R286). -/
theorem needs_sequenceOf {i : Instr} {s : State} {items : List Item} (hi : polled i)
    (hfb : i = .display → 2 * displayN s ≤ s.fb.length) (hitems : sequenceOf s i = some items) :
    (needs items).1 ≤ 14 ∧
      ((needs items).2 ≤ 54 + 2 * displayN s + 2 * s.params.readDummyWords ∨
        (needs items).2 ≤ 6 + 2 * (s.params.readDummyWords + s.params.devinfoWords)) := by
  rcases hi with rfl | rfl | rfl | rfl | rfl <;> cases hitems
  · simp [discoverSeq, needs_phaseCmd, needs_phaseRead, itemNeeds]; omega
  · simp [configureSeq, regWriteSeq, vcomGetSeq, needs_writeCmdArgs, needs_phaseRead, itemNeeds]
    omega
  · have hstream : (frameBufferWords (s.fb.take (2 * displayN s))).length = displayN s := by
      rw [frameBufferWords_take (hfb rfl), List.length_map, List.length_range]
    have hcount : displayWordCount s = displayN s := rfl
    simp [displaySeq, displayRect, needs_writeCmdArgs, needs_phaseWrite, needs_phaseCmd, itemNeeds,
      hcount, hstream]
    omega
  · simp [regReadSeq, needs_writeCmdArgs, needs_phaseRead, itemNeeds]; omega
  · simp [regWriteSeq, needs_writeCmdArgs, itemNeeds]; omega

/-! ### A sequence that has all the answers it asks for -/

/-- The item ends the command. -/
def isCommit : Item → Bool
  | .finishInit | .finishDiscover | .finishConfigure | .finishRegRead | .finish => true
  | _ => false

/-- No item is a command that has not begun, or one that waits for `Init`. -/
def Underway (items : List Item) : Prop := ∀ item ∈ items, item ≠ .begin ∧ item ≠ .initCall

@[simp] theorem underway_nil : Underway [] := List.forall_mem_nil _

@[simp] theorem underway_cons (item : Item) (items : List Item) : Underway (item :: items) ↔
    (item ≠ .begin ∧ item ≠ .initCall) ∧ Underway items := List.forall_mem_cons

@[simp] theorem underway_append (items items' : List Item) :
    Underway (items ++ items') ↔ Underway items ∧ Underway items' := List.forall_mem_append

theorem underway_phaseCmd (c : Word16) : Underway (phaseCmd c) := by
  simp [phaseCmd]

theorem underway_phaseWrite (ws : List Word16) : Underway (phaseWrite ws) := by
  have hdata : Underway (ws.map .data) := by simp [Underway]
  simp [phaseWrite, hdata]

theorem underway_phaseRead (p : Params) (k : Nat) : Underway (phaseRead p k) := by
  have hrecv : ∀ keep n, Underway (recvWords keep n) := by
    simp [Underway, recvWords_eq_replicate]
  simp [phaseRead, hrecv]

theorem underway_writeCmdArgs (c : Word16) (args : List Word16) :
    Underway (writeCmdArgs c args) :=
  List.forall_mem_append.mpr ⟨underway_phaseCmd c, fun item hitem => by
    obtain ⟨a, -, hmem⟩ := List.mem_flatMap.mp hitem
    exact underway_phaseWrite [a] item hmem⟩

/-- A sequence under a poll bound, with an end, and with answers for each poll's every read and for
every byte (R222, R362). -/
structure Fed (s : State) : Prop where
  underway : Underway s.seq.items
  ends : ∃ item ∈ s.seq.items, isCommit item = true
  polls : s.seq.polls < s.seq.bound
  counts : (∃ rest, s.seq.items = .poll :: rest) ∨ s.seq.polls = 0
  levels : (needs s.seq.items).1 * s.seq.bound ≤ s.oracle.levels.length + s.seq.polls
  bytes : (needs s.seq.items).2 ≤ s.oracle.bytes.length

section
variable {s u : State} {item : Item} {rest more : List Item}

/-- The next item gives way to others, and uses up no more answers than it stands for. -/
theorem Fed.moves (h : Fed s) (hitems : s.seq.items = item :: rest) (hitem : isCommit item = false)
    (hu : u.seq.items = more ++ rest) (hmore : Underway more)
    (hbound : u.seq.bound = s.seq.bound) (hpolls : u.seq.polls = 0)
    (hlevels : s.oracle.levels.length + s.seq.polls + (needs more).1 * s.seq.bound
      ≤ u.oracle.levels.length + (itemNeeds item).1 * s.seq.bound)
    (hbytes : s.oracle.bytes.length + (needs more).2
      ≤ u.oracle.bytes.length + (itemNeeds item).2) : Fed u := by
  obtain ⟨hunder, ⟨last, hlast, hcommit⟩, hcount, -, hl, hb⟩ := h
  rw [hitems] at hunder hlast hl hb
  have hrest : last ∈ rest := by
    rcases List.mem_cons.mp hlast with rfl | hmem
    · rw [hitem] at hcommit; cases hcommit
    · exact hmem
  simp only [needs_cons, Prod.fst_add, Prod.snd_add, Nat.add_mul] at hl hb
  refine ⟨?_, ⟨last, by simp [hu, hrest], hcommit⟩, by omega, .inr hpolls, ?_, ?_⟩
  · rw [hu]
    exact (underway_append _ _).mpr ⟨hmore, ((underway_cons _ _).mp hunder).2⟩
  · rw [hu, hbound, needs_append, Prod.fst_add, Nat.add_mul]
    omega
  · rw [hu, needs_append, Prod.snd_add]
    omega

/-- Between polls no not-ready read counts. -/
theorem Fed.polls_eq_zero (h : Fed s) (hitems : s.seq.items = item :: rest)
    (hitem : item ≠ .poll) : s.seq.polls = 0 := by
  rcases h.counts with ⟨rest', hpoll⟩ | hzero
  · rw [hitems] at hpoll
    exact absurd (List.cons.inj hpoll).1 hitem
  · exact hzero

/-- The sequence has moved and is still fed, or its command has ended. -/
def FedOrEnded (s t : State) : Prop := (Fed t ∧ t ≠ s) ∨ Ended t

/-- The poll has a level to read: it is answered, goes on counting, or times out (R222). -/
theorem Fed.doPoll (h : Fed s) (hitems : s.seq.items = .poll :: rest) :
    FedOrEnded s (doPoll rest s) := by
  have hlevels := h.levels
  have hpolls := h.polls
  simp only [hitems, needs_cons, itemNeeds, Prod.fst_add, Nat.add_mul] at hlevels
  rcases hl : s.oracle.levels with _ | ⟨l, tail⟩
  · rw [hl, List.length_nil] at hlevels
    omega
  simp only [Machine.doPoll, hl]
  rw [hl, List.length_cons] at hlevels
  split
  · refine .inl ⟨h.moves (more := []) hitems rfl rfl underway_nil rfl rfl ?_ ?_, ?_⟩
    · simp [hl, itemNeeds]; omega
    · simp [itemNeeds]
    · exact fun heq => by simpa using congrArg State.trace heq
  · split
    · exact .inr (ended_complete _ _)
    · refine .inl ⟨⟨h.underway, h.ends, ?_, .inl ⟨rest, hitems⟩, ?_, h.bytes⟩, ?_⟩
      · simp only [emit_seq]; omega
      · simp [hitems, itemNeeds, Nat.add_mul]; omega
      · exact fun heq => by simpa using congrArg State.trace heq

/-- A transfer has a byte to take. -/
theorem Fed.bytes_ne_nil (h : Fed s) (hitems : s.seq.items = item :: rest)
    (hitem : (itemNeeds item).2 = 1) : ∃ a tail, s.oracle.bytes = a :: tail := by
  refine List.exists_cons_of_ne_nil fun hnil => ?_
  have hbytes := h.bytes
  simp [hitems, hnil, hitem] at hbytes

/-- One event that takes at most the byte its item stands for. -/
theorem Fed.emits (h : Fed s) (hitems : s.seq.items = item :: rest) (hitem : isCommit item = false)
    (hpoll : item ≠ .poll) {e : Event} (htrace : u.trace = s.trace ++ [e])
    (hu : u.seq.items = rest) (hbound : u.seq.bound = s.seq.bound) (hpolls : u.seq.polls = 0)
    (hlevels : u.oracle.levels = s.oracle.levels)
    (hbytes : s.oracle.bytes.length ≤ u.oracle.bytes.length + (itemNeeds item).2) :
    FedOrEnded s u := by
  refine .inl ⟨h.moves (more := []) hitems hitem hu underway_nil hbound hpolls ?_ hbytes, ?_⟩
  · simp [hlevels, h.polls_eq_zero hitems hpoll]
  · rintro rfl
    simp at htrace

/-- Items put in place of one that asks for no less. -/
theorem Fed.unfolds (h : Fed s) (hitems : s.seq.items = item :: rest)
    (hitem : isCommit item = false) (hpoll : item ≠ .poll) (hmore : Underway more)
    (hlength : more.length ≠ 1) (hneeds : needs more ≤ itemNeeds item) :
    FedOrEnded s (setItems (more ++ rest) s) := by
  refine .inl ⟨h.moves hitems hitem rfl hmore rfl rfl ?_ ?_, ?_⟩
  · have := Nat.mul_le_mul_right s.seq.bound hneeds.1
    simp only [setItems_oracle, h.polls_eq_zero hitems hpoll]
    omega
  · exact Nat.add_le_add_left hneeds.2 _
  · intro heq
    have hlen := congrArg (fun t : State => t.seq.items.length) heq
    simp only [setItems_seq, hitems, List.length_append, List.length_cons] at hlen
    omega

/-- The next item of a fed sequence finds its answer. -/
theorem Fed.perform (h : Fed s) : FedOrEnded s (perform s) := by
  rcases hitems : s.seq.items with _ | ⟨item, rest⟩
  · obtain ⟨_, hmem, -⟩ := h.ends
    simp [hitems] at hmem
  have hunder := h.underway item (by simp [hitems])
  cases item <;> simp only [Machine.perform, hitems]
  case begin => exact absurd rfl hunder.1
  case initCall => exact absurd rfl hunder.2
  case config | pinDir | select | writeRst | delay =>
    exact h.emits hitems rfl nofun rfl rfl rfl rfl rfl (Nat.le_add_right _ _)
  case poll => exact h.doPoll hitems
  case op w | data w =>
    have hneeds := needs_wordBytes s.params.wireWordOrder w
    refine h.unfolds hitems rfl nofun ?_ ?_ hneeds.le
    · simp [Underway]
    · cases s.params.wireWordOrder <;> simp [wordBytes]
  case xfer =>
    obtain ⟨a, tail, hb⟩ := h.bytes_ne_nil hitems rfl
    simp only [doXfer, hb]
    exact h.emits hitems rfl nofun rfl rfl rfl rfl rfl (by simp [hb, itemNeeds])
  case recv keep =>
    obtain ⟨a, tail, hb⟩ := h.bytes_ne_nil hitems rfl
    simp only [doRecv, hb]
    split <;>
      exact h.emits (e := .xfer 0 a) hitems rfl nofun rfl rfl rfl rfl rfl (by simp [hb, itemNeeds])
  case vcomCheck t =>
    refine h.unfolds hitems rfl nofun ?_ ?_ ?_ <;> split
    · exact underway_nil
    · exact underway_writeCmdArgs _ _
    · simp
    · simp [vcomSetSeq, writeCmdArgs, phaseCmd, phaseWrite]
    · simp [itemNeeds]
    · simp [vcomSetSeq, needs_writeCmdArgs, itemNeeds]
  case finishDiscover => exact .inr (ended_commitDiscover s)
  case finishInit | finishConfigure | finishRegRead | finish => exact .inr (ended_complete _ _)

/-- A fed sequence comes to its end (R362). -/
theorem Fed.reaches (h : Fed s) : ∃ t, Reaches s t ∧ Ended t := by
  induction hn : enough s using Nat.strong_induction_on generalizing s with
  | _ n ih =>
    rcases h.perform with ⟨hfed, hne⟩ | hend
    · have hless := (perform_measure s).resolve_left hne
      obtain ⟨t, hreach, hend⟩ := ih _ (hn ▸ hless) hfed rfl
      exact ⟨t, (Reaches.perform rfl).trans hreach, hend⟩
    · exact ⟨_, .perform rfl, hend⟩

end

/-! ### The polling commands (R256-R286) -/

theorem underway_sequenceOf {i : Instr} {s : State} {items : List Item} (hi : polled i)
    (hitems : sequenceOf s i = some items) : Underway items := by
  rcases hi with rfl | rfl | rfl | rfl | rfl <;> cases hitems
  · simp [discoverSeq, underway_phaseCmd, underway_phaseRead]
  · simp [configureSeq, regWriteSeq, vcomGetSeq, underway_writeCmdArgs, underway_phaseRead]
  · simp [displaySeq, underway_writeCmdArgs, underway_phaseWrite, underway_phaseCmd]
  · simp [regReadSeq, underway_writeCmdArgs, underway_phaseRead]
  · simp [regWriteSeq, underway_writeCmdArgs]

theorem commit_mem_sequenceOf {i : Instr} {s : State} {items : List Item} (hi : polled i)
    (hitems : sequenceOf s i = some items) : ∃ item ∈ items, isCommit item = true := by
  rcases hi with rfl | rfl | rfl | rfl | rfl <;> cases hitems
  · exact ⟨.finishDiscover, by simp [discoverSeq], rfl⟩
  · exact ⟨.finishConfigure, by simp [configureSeq], rfl⟩
  · exact ⟨.finish, by simp [displaySeq], rfl⟩
  · exact ⟨.finishRegRead, by simp, rfl⟩
  · exact ⟨.finish, by simp, rfl⟩

/-- A polling command outside its states, or a DISPLAY whose frame buffer is short, ends at once. -/
theorem exec_polled_cases {i : Instr} (hi : polled i) (s : State) :
    (∃ e, exec i s = .next (complete e s)) ∨
      ((i = .display → 2 * displayN s ≤ s.fb.length) ∧
        ∃ items, sequenceOf s i = some items ∧ exec i s = .next (runSequence i items s)) := by
  have hcmd : i.isCommand = true := by rcases hi with rfl | rfl | rfl | rfl | rfl <;> rfl
  by_cases hallowed : allowedIn i s.status.cstate = true
  · by_cases hfb : i = .display → 2 * displayN s ≤ s.fb.length
    · obtain ⟨rest, hitems⟩ := sequenceOf_polled hi s
      exact .inr ⟨hfb, _, hitems, exec_polled hi ((allowedIn_iff_mem hcmd _).mp hallowed) hfb hitems⟩
    · obtain ⟨rfl, hshort⟩ := Classical.not_imp.mp hfb
      exact .inl ⟨_, (if_pos hallowed).trans (if_pos (Nat.lt_of_not_le hshort))⟩
  · exact .inl ⟨_, exec_of_not_allowed hcmd (Bool.eq_false_iff.mpr hallowed)⟩

/-- Settles O41: fourteen polls' levels and every byte feed the sequence of each polling command. -/
theorem boundedPollsComplete : Obligations.BoundedPollsComplete := by
  intro i s hi hpace hpos hlevels hbytes hbytes'
  rcases exec_polled_cases hi s with ⟨e, hexec⟩ | ⟨hfb, items, hitems, hexec⟩
  · exact ⟨_, hexec, rfl, rfl⟩
  · obtain ⟨hpolls, hneeds⟩ := needs_sequenceOf hi hfb hitems
    have hfed : Fed (laidOut i items s) :=
      ⟨underway_sequenceOf hi hitems, commit_mem_sequenceOf hi hitems, hpos, .inr rfl, (Nat.mul_le_mul_right _ hpolls).trans hlevels, by
        rcases hneeds with hle | hle
        · exact hle.trans hbytes
        · exact hle.trans hbytes'⟩
    obtain ⟨t, hreach, hend⟩ := hfed.reaches
    exact ⟨t, by rw [hexec, runSequence_of_reaches hpace hreach hend.items],
      hend.running, hend.done⟩

/-! ### A poll without a bound -/

/-- Levels that are all not ready. -/
theorem eq_replicate_notReady {l : Level} {levels : List Level} (h : ∀ x ∈ levels, x ≠ l) :
    levels = List.replicate levels.length (!l) :=
  List.eq_replicate_of_mem fun x hx => Bool.eq_not.mpr (h x hx)

/-- Settles O59: each level is one not-ready read, and after the last of them the poll waits. -/
theorem unboundedPollStaysBusy : Obligations.UnboundedPollStaysBusy := by
  intro s rest n hitems hbound hnever
  have hall := eq_replicate_notReady hnever
  have hwaits : ∀ k ≤ s.oracle.levels.length, advance k s = waited k s := fun k hk =>
    advance_waits k hitems
      (by rw [hall, List.take_replicate, Nat.min_eq_left hk])
      fun h0 => absurd hbound h0
  have hrun : advance n s = waited (min n s.oracle.levels.length) s := by
    rcases Nat.le_total n s.oracle.levels.length with hle | hle
    · rw [Nat.min_eq_left hle, hwaits n hle]
    · rw [Nat.min_eq_right hle]
      refine advance_eq_of_rests hle (hwaits _ le_rfl) ?_
      rw [perform_poll (s := waited _ s) hitems]
      simp [doPoll, waited]
  rw [hrun]
  exact ⟨rfl, rfl, rfl, rfl⟩

end Sys2Proof.Proofs

/-! # What stops the machine: reads of unwritten window bytes (20_memory.md R83;
70_reset_and_hazards.md R340) -/

namespace Sys2Proof.Proofs

open Sys2Proof Sys2Proof.Machine Sys2Proof.Spec

/-! ### A missing byte -/

/-- The byte is within a window's capacity, and nothing has written it. -/
def MissingByte (s : State) (a : Nat) : Prop :=
  Memory.read s.mem a = none ∧ ∃ w : Window, w.base ≤ a ∧ a < w.base + w.capacity s.params

/-- The machine goes on, or stops at a missing byte of `s`. -/
def GoesOnOrFaults (s : State) (r : Result) : Prop :=
  (∃ t, r = .next t) ∨ ∃ a, r = .fault (.unwrittenByte a) ∧ MissingByte s a

section
variable {s : State}

theorem GoesOnOrFaults.next (t : State) : GoesOnOrFaults s (.next t) := .inl ⟨t, rfl⟩

/-- Reads that can fail at missing bytes only. -/
theorem GoesOnOrFaults.orFault {α : Type} {r : Except Nat α} {k : α → Result}
    (herror : ∀ a, r = .error a → MissingByte s a) (hok : ∀ v, r = .ok v → GoesOnOrFaults s (k v)) :
    GoesOnOrFaults s (orFault r k) := by
  cases r with
  | error a => exact .inr ⟨a, rfl, herror a rfl⟩
  | ok v => exact hok v rfl

theorem GoesOnOrFaults.gated {i : Instr} {body : State → Result}
    (hbody : GoesOnOrFaults s (body s)) : GoesOnOrFaults s (gated i body s) := by
  rcases gated_cases i body s with ⟨-, hg⟩ | ⟨-, hg⟩ <;> rw [hg]
  · exact .next _
  · exact hbody

/-! ### Reads -/

/-- A run of bytes fails at one of its own that nothing has written. -/
theorem readBytes_error {m : Memory} {start n a : Nat} (h : Memory.readBytes m start n = .error a) :
    Memory.read m a = none ∧ start ≤ a ∧ a < start + n := by
  induction n generalizing start with
  | zero => cases h
  | succ n ih =>
    simp only [Memory.readBytes] at h
    split at h
    · rename_i hnone
      cases h
      exact ⟨hnone, le_rfl, by omega⟩
    · split at h
      · rename_i e hrest
        cases h
        obtain ⟨hnone, hlo, hhi⟩ := ih hrest
        exact ⟨hnone, by omega, by omega⟩
      · cases h

/-- A pixel fails at one of its three bytes. -/
theorem readPixel_error {m : Memory} {w : Window} {i a : Nat} (h : readPixel m w i = .error a) :
    Memory.read m a = none ∧ w.base + 3 * i ≤ a ∧ a < w.base + 3 * (i + 1) := by
  simp only [readPixel] at h
  split at h
  · rename_i hnone; cases h; exact ⟨hnone, by omega, by omega⟩
  · split at h
    · rename_i hnone; cases h; exact ⟨hnone, by omega, by omega⟩
    · split at h
      · rename_i hnone; cases h; exact ⟨hnone, by omega, by omega⟩
      · cases h

/-- A pixel below a window's capacity fails at a missing byte. -/
theorem missingByte_of_readPixel {w : Window} {i n a : Nat} (h : readPixel s.mem w i = .error a)
    (hlt : i < n) (hcap : 3 * n ≤ w.capacity s.params) : MissingByte s a := by
  obtain ⟨hnone, hlo, hhi⟩ := readPixel_error h
  exact ⟨hnone, w, by omega, by omega⟩

/-- Pixels fail where one of them does. -/
theorem readPixels_error {m : Memory} {w : Window} {is : List Nat} {a : Nat}
    (h : readPixels m w is = .error a) : ∃ i ∈ is, readPixel m w i = .error a := by
  induction is with
  | nil => cases h
  | cons i is ih =>
    simp only [readPixels] at h
    split at h
    · rename_i e hi
      cases h
      exact ⟨i, List.mem_cons_self, hi⟩
    · split at h
      · rename_i e hrest
        cases h
        obtain ⟨j, hj, hread⟩ := ih hrest
        exact ⟨j, List.mem_cons_of_mem _ hj, hread⟩
      · cases h

theorem missingByte_of_readPixels {w : Window} {is : List Nat} {n a : Nat}
    (h : readPixels s.mem w is = .error a) (hlt : ∀ i ∈ is, i < n)
    (hcap : 3 * n ≤ w.capacity s.params) : MissingByte s a := by
  obtain ⟨i, hi, hread⟩ := readPixels_error h
  exact missingByte_of_readPixel hread (hlt i hi) hcap

/-- A scan fails where a pixel of the new or of the old frame does. -/
theorem changedAt_error {m : Memory} {new : Window} {old : Option Window} {fw a : Nat}
    {coords : List (Nat × Nat)} (h : changedAt m new old fw coords = .error a) :
    ∃ x y, (x, y) ∈ coords ∧ ∃ w, (w = new ∨ old = some w) ∧
      readPixel m w (y * fw + x) = .error a := by
  induction coords with
  | nil => cases h
  | cons c coords ih =>
    obtain ⟨x, y⟩ := c
    simp only [changedAt] at h
    split at h
    · rename_i e hnew
      cases h
      exact ⟨x, y, List.mem_cons_self, new, .inl rfl, hnew⟩
    · split at h
      · rename_i e hold
        cases h
        cases old with
        | none => cases hold
        | some w => exact ⟨x, y, List.mem_cons_self, w, .inr rfl, hold⟩
      · split at h
        · rename_i e hrest
          cases h
          obtain ⟨x', y', hmem, hread⟩ := ih hrest
          exact ⟨x', y', List.mem_cons_of_mem _ hmem, hread⟩
        · cases h

/-! ### Meanings: each reads within its windows' capacities -/

/-- A pixel inside a frame has an index below the frame's size. -/
theorem frameIndex_lt {x y fw fh : Nat} (hx : x < fw) (hy : y < fh) : y * fw + x < fw * fh :=
  calc y * fw + x < y * fw + fw := Nat.add_lt_add_left hx _
    _ = fw * (y + 1) := by ring
    _ ≤ fw * fh := Nat.mul_le_mul_left fw hy

/-- The frames a COMPARE reads are as large as FRAME_CAP says. -/
theorem capacity_of_compared {slot : Slot} {prev : Bool} {w : Window} (p : Params)
    (h : w = newWindow slot ∨ oldSource slot prev = some w) : w.capacity p = 3 * p.frameCap := by
  rcases h with rfl | h
  · cases slot <;> rfl
  · cases prev <;> cases h
    cases slot <;> rfl

theorem extractRegion_goesOnOrFaults {slot : Slot} {r : Rect}
    (hcap : frameWidth s * frameHeight s ≤ s.params.frameCap) :
    GoesOnOrFaults s (extractRegion (newWindow slot) r s) := by
  simp only [extractRegion]
  split
  · exact .next _
  · split
    · exact .next _
    · rename_i hfits
      split
      · exact .next _
      · refine .orFault (fun a ha => ?_) fun _ _ => .next _
        refine missingByte_of_readPixels ha (n := s.params.frameCap) (fun i hi => ?_)
          (capacity_of_compared (prev := false) s.params (.inl rfl)).ge
        simp only [rectIndices, List.mem_flatMap, List.mem_range, List.mem_map] at hi
        obtain ⟨j, hj, c, hc, rfl⟩ := hi
        exact (frameIndex_lt (by omega) (by omega)).trans_le hcap

theorem compareBody_goesOnOrFaults (slot : Slot) (prev : Bool) :
    GoesOnOrFaults s (compareBody slot prev s) := by
  simp only [compareBody]
  split
  · exact .next _
  · rename_i hcap
    rw [not_lt] at hcap
    refine .orFault (fun a ha => ?_) fun changed _ => ?_
    · obtain ⟨x, y, hmem, w, hw, hread⟩ := changedAt_error ha
      obtain ⟨hx, hy⟩ := mem_scanCoords.mp hmem
      exact missingByte_of_readPixel hread
        ((frameIndex_lt (lt_min_iff.mp hx).1 (lt_min_iff.mp hy).1).trans_le hcap)
        (capacity_of_compared s.params hw).ge
    · split
      · exact .next _
      · split
        · exact .next _
        · exact extractRegion_goesOnOrFaults hcap

theorem rotateBody_goesOnOrFaults : GoesOnOrFaults s (rotateBody s) := by
  simp only [rotateBody]
  split
  · exact .next _
  · split
    · exact .next _
    · rename_i hcap
      rw [not_lt] at hcap
      split
      · exact .next _
      · exact .orFault (fun a ha => missingByte_of_readPixels ha (fun i => List.mem_range.mp)
          (Nat.mul_le_mul_left 3 hcap)) fun _ _ => .next _

theorem packBody_goesOnOrFaults : GoesOnOrFaults s (packBody s) := by
  simp only [packBody]
  split
  · exact .next _
  · rename_i hcap
    rw [not_lt] at hcap
    split
    · exact .next _
    · split
      · exact .next _
      · exact .orFault (fun a ha => missingByte_of_readPixels ha (fun i => List.mem_range.mp)
          (Nat.mul_le_mul_left 3 hcap)) fun _ _ => .next _

theorem drawBody_goesOnOrFaults : GoesOnOrFaults s (drawBody s) := by
  simp only [drawBody]
  split
  · exact .next _
  · rename_i hcap
    refine .orFault (fun a ha => ?_) fun _ _ => .next _
    obtain ⟨hnone, hlo, hhi⟩ := readBytes_error ha
    exact ⟨hnone, .packed, hlo, by simp only [Window.capacity]; omega⟩

/-- No meaning refuses, and none stops but at a missing byte. -/
theorem exec_goesOnOrFaults (i : Instr) (s : State) : GoesOnOrFaults s (exec i s) := by
  have hruns : ∀ {i : Instr} (f : State → State),
      GoesOnOrFaults s (gated i (fun u => .next (f u)) s) := fun f => .gated (.next (f s))
  cases i with
  | compare slot prev => exact .gated (compareBody_goesOnOrFaults slot prev)
  | rotate => exact .gated rotateBody_goesOnOrFaults
  | pack => exact .gated packBody_goesOnOrFaults
  | draw => exact .gated drawBody_goesOnOrFaults
  | display =>
    refine .gated ?_
    rcases displayBody_cases s with ⟨-, hb⟩ | ⟨-, hb⟩ <;> rw [hb] <;> exact .next _
  | init | discover | configure | regRead | regWrite => exact hruns _
  | _ => exact .next _

/-! ### Steps -/

/-- A host read stops at a byte of the window it names. -/
theorem hostRead_goesOnOrFaults (offset : Nat) (width : Width) (s : State) :
    GoesOnOrFaults s (hostRead offset width s) := by
  rcases hostRead_cases offset width s with ⟨_, _, -, -, -, -, hr⟩ | ⟨-, hr⟩ <;> rw [hr]
  · exact .next _
  · refine .orFault (fun a ha => ?_) fun _ _ => .next _
    rcases ht : accessTarget s.params offset width with _ | r | w <;> rw [ht, readTarget] at ha
    · cases ha
    · cases ha
    · have hin := (inWindow_iff _ _ _ _).mp (accessTarget_window ht)
      split at ha <;> cases ha
      rename_i hread
      obtain ⟨hnone, hlo, hhi⟩ := readBytes_error hread
      exact ⟨hnone, w, by omega, by omega⟩

theorem hostWrite_goesOnOrFaults (offset : Nat) (width : Width) (v : Word32) (s : State) :
    GoesOnOrFaults s (hostWrite offset width v s) := by
  rcases hostWrite_cases offset width v s with
    ⟨-, hw⟩ | ⟨_, -, -, hw⟩ | ⟨-, -, hw⟩ | ⟨_, -, -, -, hw⟩ | ⟨_, -, -, hw⟩ <;> rw [hw]
  case inr.inr.inl =>
    rcases commandWrite_cases v s with
      ⟨-, hc⟩ | ⟨-, -, hc⟩ | ⟨_, -, -, -, hc⟩ | ⟨i, -, -, -, hc⟩ <;> rw [hc]
    case inr.inr.inr => exact exec_goesOnOrFaults i (accept i s)
    all_goals exact .next _
  all_goals exact .next _

/-- The words the sequencer has to send decode, so that the block's turn refuses none (R115). -/
theorem blockTurn_goesOnOrFaults (h : s.inv = true) : GoesOnOrFaults s (blockTurn s) := by
  rcases blockTurn_cases s with ⟨-, hb⟩ | ⟨rest, -, hb⟩ | ⟨w, rest, hitems, hb⟩ | ⟨-, -, hb⟩ <;>
    rw [hb]
  · exact .next _
  · unfold beginRunning
    split
    · exact .next _
    · exact exec_goesOnOrFaults _ (setItems rest s)
  · obtain ⟨-, -, -, -, hwords⟩ := (inv_iff_parts s).mp h
    obtain ⟨i, hd⟩ := decodeWire_of_issued ((wordsSound_iff s).mp hwords w (by simp [hitems]))
    simp only [runWireWord, hd]
    exact exec_goesOnOrFaults i (setItems rest s)
  · exact .next _

/-- A step of a sound state goes on or stops at a missing byte. -/
theorem step_goesOnOrFaults (h : s.inv = true) : GoesOnOrFaults s (step s) := by
  have hturn : ∀ {u}, SameBlock s u → GoesOnOrFaults s (blockTurn u) := by
    intro u hu
    have hblock := blockTurn_goesOnOrFaults (inv_of_sameBlock hu h)
    obtain ⟨_, _, _, rfl⟩ := hu
    exact hblock
  rcases step_cases s with ⟨-, hs⟩ | ⟨rest, -, hs⟩ | ⟨a, rest, -, hs⟩ | ⟨rest, -, hs⟩ |
    ⟨rest, -, hs⟩ <;> rw [hs]
  · exact hturn (.refl s)
  · exact hturn (.inputs s rest)
  · cases a with
    | read offset width => exact hostRead_goesOnOrFaults offset width { s with inputs := rest }
    | write offset width v => exact hostWrite_goesOnOrFaults offset width v { s with inputs := rest }
  · simp only [hostWait]
    split
    · exact hturn ⟨s.inputs, statusWord s, s.freeCount, rfl⟩
    · exact .next _
  · exact .next _

end

/-- Settles O56: a sound state's capacities fit their spans. -/
theorem onlyUnwrittenBytesStopTheMachine : Obligations.OnlyUnwrittenBytesStopTheMachine := by
  intro s h
  refine (step_goesOnOrFaults h).imp_right ?_
  rintro ⟨a, hfault, hnone, w, hlo, hhi⟩
  refine ⟨a, hfault, hnone, w, hlo, ?_⟩
  rwa [Nat.min_eq_left (capacity_le_span ((inv_iff s).mp h).1.params w)]

/-! ### The commands with no ready poll (R362) -/

/-- A command that lays out no sequence ends with its meaning. -/
theorem ended_of_no_sequence {i : Instr} {s t : State} (hi : i.isCommand = true)
    (hnone : sequenceOf s i = none) (h : exec i s = .next t) : Ended t := by
  cases exec_effect h with
  | completes | stores | draws => exact ended_complete _ _
  | runs items _ hitems => rw [hnone] at hitems; cases hitems
  | sends w hw => rw [hi] at hw; cases hw

/-- INIT ends once `Init` is answered (R250, R251, R306). -/
theorem exec_init_ended {s : State} (hpace : s.pace = .whole) (hanswer : s.oracle.inits ≠ []) :
    ∃ t, exec .init s = .next t ∧ Ended t := by
  by_cases hc : s.status.cstate = .uninit
  · obtain ⟨ok, more, hinits⟩ := List.exists_cons_of_ne_nil hanswer
    obtain ⟨hok, hfail⟩ := initBringsTheTransportUp s more hpace hc
    cases ok with
    | true => exact ⟨_, hok hinits, rfl, rfl, rfl, by simp [finished, okStatus]⟩
    | false => exact ⟨_, hfail hinits, rfl, rfl, rfl, by simp [finished, fatalStatus]⟩
  · exact ⟨_, exec_of_not_allowed rfl (decide_eq_false hc), ended_complete _ _⟩

/-- A command with no ready poll ends, or stops at a missing byte. -/
theorem exec_ends_or_faults {i : Instr} {s : State}
    (hi : (∃ slot prev, i = .compare slot prev) ∨ i = .rotate ∨ i = .pack ∨ i = .draw ∨
      (i = .init ∧ s.pace = .whole ∧ s.oracle.inits ≠ [])) :
    (∃ t, exec i s = .next t ∧ Ended t) ∨
      ∃ a, i ≠ .init ∧ exec i s = .fault (.unwrittenByte a) ∧ MissingByte s a := by
  have hwindow : i.isCommand = true → sequenceOf s i = none → i ≠ .init →
      (∃ t, exec i s = .next t ∧ Ended t) ∨
        ∃ a, i ≠ .init ∧ exec i s = .fault (.unwrittenByte a) ∧ MissingByte s a :=
    fun hcmd hnone hinit => (exec_goesOnOrFaults i s).imp
      (fun ⟨t, h⟩ => ⟨t, h, ended_of_no_sequence hcmd hnone h⟩) fun ⟨a, h⟩ => ⟨a, hinit, h⟩
  rcases hi with ⟨_, _, rfl⟩ | rfl | rfl | rfl | ⟨rfl, hpace, hanswer⟩
  case inr.inr.inr.inr => exact .inl (exec_init_ended hpace hanswer)
  all_goals exact hwindow rfl rfl nofun

/-- Settles O42: where every byte of the windows has been written none is missing. -/
theorem commandsWithoutPollComplete : Obligations.CommandsWithoutPollComplete := by
  intro i s hi
  rcases exec_ends_or_faults hi with ⟨t, h, hend⟩ | ⟨a, hinit, h, hnone, w, hlo, hhi⟩
  · exact ⟨.inl ⟨t, h, hend.running, hend.done, hend.items, hend.err⟩,
      fun _ => ⟨t, h, hend.running, hend.done⟩⟩
  · exact ⟨.inr ⟨a, hinit, h, hnone⟩, fun hwritten => absurd hnone (hwritten w a hlo hhi)⟩

end Sys2Proof.Proofs

/-! # Where CSTATE can move, and the external reset (10_state.md R53; 70_reset_and_hazards.md
R340-R343) -/

namespace Sys2Proof.Proofs

open Sys2Proof Sys2Proof.Machine Sys2Proof.Spec

/-! ### The state machine of R53 -/

/-- CSTATE stays, or moves along one transition of the state machine, or to FAILED (R53). -/
def MovesForward (c c' : CState) : Prop :=
  c' = c ∨ (c = .uninit ∧ c' = .reset) ∨ (c = .reset ∧ c' = .discovered) ∨
    (c = .discovered ∧ c' = .ready) ∨ (c ≠ .failed ∧ c' = .failed)

/-- A completion leaves CSTATE, or fails it (R301). -/
theorem movesForward_complete (e : ErrCode) (c : CState) : MovesForward c (cstateAfter e c) := by
  by_cases hc : c = .failed
  · exact .inl (by simp [cstateAfter, hc])
  · rw [cstateAfter]
    split
    · exact .inr (.inr (.inr (.inr ⟨hc, rfl⟩)))
    · exact .inl rfl

/-- A sequence moves CSTATE as its command's row of the state table says (R53, R306). -/
theorem SequenceEffect.movesForward {i : Instr} {s t : State} (h : SequenceEffect i s t)
    (hallowed : allowedIn i s.status.cstate = true) :
    MovesForward s.status.cstate t.status.cstate := by
  cases h with
  | goesOn | reads => exact .inl rfl
  | completes e => exact movesForward_complete e _
  | inits _ _ _ _ hi =>
    subst hi
    exact .inr (.inl ⟨of_decide_eq_true hallowed, rfl⟩)
  | discovers _ _ _ _ _ _ hi =>
    subst hi
    exact .inr (.inr (.inl ⟨of_decide_eq_true hallowed, rfl⟩))
  | configures _ _ _ _ hi =>
    subst hi
    exact .inr (.inr (.inr (.inl ⟨of_decide_eq_true hallowed, rfl⟩)))

/-- The meaning of a command. -/
theorem exec_movesForward {i : Instr} {s t : State} (hi : i.isCommand = true)
    (h : exec i s = .next t) : MovesForward s.status.cstate t.status.cstate := by
  cases exec_effect h with
  | completes e => exact movesForward_complete e _
  | stores | draws => exact .inl rfl
  | runs items hallowed hitems =>
    exact (runSequence_sequenceEffect (own_sequenceOf hitems hallowed)).movesForward hallowed
  | sends w hw => rw [hi] at hw; cases hw

/-- Any number of items of a sound state. -/
theorem advance_movesForward (n : Nat) {s : State} (h : s.inv = true) :
    MovesForward s.status.cstate (advance n s).status.cstate := by
  obtain ⟨-, hidle | ⟨i, hacc⟩ | ⟨i, hmid⟩⟩ := (inv_iff s).mp h
  · rw [advance_of_idle h hidle.running]; exact .inl rfl
  · rw [advance_fixed (by simp [perform, hacc.items])]; exact .inl rfl
  · have hbegun : SequenceEffect i s { s with running := some i } :=
      .goesOn s.seq s.sel s.rst s.trace s.oracle (fun _ => rfl) hmid.sequence.own
    rw [← hmid.running] at hbegun
    exact (advance_keeps (fun _ => .perform) n hbegun).movesForward hmid.allowed

/-- Every effect of a step other than the reset. -/
theorem StepEffect.movesForward {s t : State} (h : StepEffect s t) (hinv : s.inv = true) :
    MovesForward s.status.cstate t.status.cstate := by
  cases h with
  | stays hu | rejects hu | writesWindow hu | skips hu | accepts hu | illegal hu =>
    obtain ⟨_, _, _, rfl⟩ := hu
    exact .inl rfl
  | writesRegister hu r v =>
    obtain ⟨_, _, _, rfl⟩ := hu
    rw [writeReg_regs]
    exact .inl rfl
  | acceptsAndRuns hu i _ _ hi _ hexec =>
    obtain ⟨_, _, _, rfl⟩ := hu
    exact (exec_movesForward hi hexec :)
  | begins hu i rest hrun hitems hexec =>
    obtain ⟨_, _, _, rfl⟩ := hu
    exact (exec_movesForward (accepted_of_inv hinv hrun hitems).2.command hexec :)
  | advances hu n =>
    have hmoves := advance_movesForward n (inv_of_sameBlock hu hinv)
    rwa [hu.status] at hmoves

/-- Settles O53: each effect of a step moves CSTATE forward, and the external reset is UNINIT. -/
theorem cStateMovesOnlyForward : Obligations.CStateMovesOnlyForward := by
  intro s t hinv hstep
  rcases step_effect hstep with ⟨hreset, u, -, rfl⟩ | ⟨hreset, ht⟩ <;> rw [hreset]
  · exact ⟨nofun, fun _ => rfl⟩
  · exact ⟨fun _ => ht.movesForward hinv, nofun⟩

/-! ### Reset -/

/-- Every register but ID reads 0 after reset (R340). -/
theorem readReg_reset (r : HostReg) :
    readReg r State.reset = if r = .id then 0x41440007 else 0 := by
  cases r with
  | devFw k | devLut k => fin_cases k <;> rfl
  | _ => rfl

/-- After reset a read of any byte within a window's capacity faults (R340). -/
theorem step_read_reset {w : Window} {offset : Nat} (rest : List Input) (hlo : w.base ≤ offset)
    (hhi : offset < w.base + min (w.capacity State.reset.params) Window.span) :
    step { State.reset with inputs := .access (.read offset .w8) :: rest }
      = .fault (.unwrittenByte offset) := by
  have hin : inWindow State.reset.params offset (Width.bytes .w8) w = true :=
    (inWindow_iff _ _ _ _).mpr ⟨hlo, hhi⟩
  have hidle : ¬runningWrites State.reset (.window w) := by
    rintro ⟨_, hrun, -⟩
    cases hrun
  exact step_target_read (s := { State.reset with inputs := .access (.read offset .w8) :: rest })
    (accessTarget_inWindow hin (Nat.mod_one offset)) hidle rfl

/-- Settles O49: register by register, field by field. -/
theorem resetValues : Obligations.ResetValues :=
  ⟨readReg_reset, rfl, rfl, rfl, rfl, rfl, rfl, rfl, rfl, fun _ => rfl,
    fun _ _ rest hlo hhi => step_read_reset rest hlo hhi⟩

/-- Settles O50: the step of a reset input is `externalReset`. -/
theorem externalResetStep : Obligations.ExternalResetStep := by
  intro s rest hin
  simp only [step, takeInput, hin, externalReset]

/-- Settles O51: the state after reset is that of an external reset of it. -/
theorem invariantHoldsAtReset : Obligations.InvariantHoldsAtReset :=
  inv_externalReset (s := State.reset) (by decide)

end Sys2Proof.Proofs
